-- ==== Sys2Proof/Word.lean ====
section
/-! DEFINITION. The machine's bit vectors, by the widths of `spec/00_scope.md` rule R4 and
`spec/10_state.md` rule R20. Bit 0 is the least significant bit (R5); every value is unsigned (R6). -/

namespace Sys2Proof

/-- A command word, a response datum, `PEND`, `FCMD`: 32 bits (CMDW, PW; R4). -/
abbrev Word := BitVec 32

/-- `LOW`, `HIGH`, `CODE`: W = 16 bits (R4). -/
abbrev Bound := BitVec 16

/-- A count, `TOT`, `RL`, `RH`, `RT`, `SV`: CW = 15 bits (R4). -/
abbrev Count := BitVec 15

/-- A symbol field and `SYM`: SYMW = 9 bits, of which 0..256 are symbols (R4, R28). -/
abbrev Symbol := BitVec 9

/-- A register number: the 5-bit field of format R (R86). -/
abbrev RegNo := BitVec 5

end Sys2Proof
end

