-- ==== Sys2Proof/Syntax.lean ====
section
/-! DEFINITION. The command set ACC v1: one constructor per row of `spec/opcode_table.json`
(`spec/30_encoding.md` rule R88), with its operand fields as rule R87 reads them. -/

namespace Sys2Proof

/-- The two model variants: the operand `m` of `MINIT` and the flag `MODE` (R32). -/
inductive Mode where
  | adaptive
  | static
  deriving DecidableEq, Repr

/-- The bit that `MODE` and the operand `m` hold: 0 = adaptive, 1 = static (R32, R83). -/
def Mode.bit : Mode → BitVec 1
  | .adaptive => 0#1
  | .static => 1#1

/-- The fifteen commands (R88). -/
inductive Instr where
  | nop
  | reset
  | minit (m : Mode)
  | ldcnt (s : Symbol) (v : Count)
  | rdcnt (s : Symbol)
  | getprob (s : Symbol)
  | getsym
  | update (s : Symbol)
  | ebegin
  | esym
  | efinish
  | dbegin
  | getcnt
  | dsym
  | rdreg (r : RegNo)
  deriving DecidableEq, Repr

end Sys2Proof
end

