-- ==== Sys2Proof/WellFormed.lean ====
section
/-! DEFINITION. The operand constraints of `spec/30_encoding.md` rule R88: `s <= 256`, `r <= 14`. -/

namespace Sys2Proof

/-- A symbol field names a symbol: 0..256 (R84, R85). -/
def symbolOk (s : Symbol) : Bool := decide (s.toNat ≤ 256)

/-- A register field names a register: 0..14 (R86). -/
def registerOk (r : RegNo) : Bool := decide (r.toNat ≤ 14)

/-- The operand constraint of the instruction's row (R88). -/
def Instr.wellFormed : Instr → Bool
  | .nop => true
  | .reset => true
  | .minit _ => true
  | .ldcnt s _ => symbolOk s
  | .rdcnt s => symbolOk s
  | .getprob s => symbolOk s
  | .getsym => true
  | .update s => symbolOk s
  | .ebegin => true
  | .esym => true
  | .efinish => true
  | .dbegin => true
  | .getcnt => true
  | .dsym => true
  | .rdreg r => registerOk r

end Sys2Proof
end

