-- ==== Sys2Proof/Decode.lean ====
section
/-! DEFINITION. `spec/30_encoding.md`: the decoder (rule R89, total on all 2^32 words) and the encoder
(formats R82 to R86, opcode map R88). A command word is one 32-bit value without a byte order (R61). -/

namespace Sys2Proof

/-- Why a word is no command (R93). -/
inductive IllegalWord where
  | reservedOpcode    -- opcode 0xF
  | reservedBits      -- a nonzero bit in a `zero` field
  | symbolRange       -- a symbol field of 257..511
  | registerRange     -- a register field of 15..31
  deriving DecidableEq, Repr

/-- The decoder's answer on a word. -/
inductive Decoded where
  | instr (i : Instr)
  | illegal (why : IllegalWord)
  deriving DecidableEq, Repr

/-- `op = IW[31:28]` (R81). -/
def opField (w : Word) : Nat := (w.extractLsb' 28 4).toNat

/-- `s = IW[8:0]` (R84, R85). -/
def symbolField (w : Word) : Symbol := w.extractLsb' 0 9

/-- `v = IW[23:9]` (R85). -/
def countField (w : Word) : Count := w.extractLsb' 9 15

/-- `r = IW[4:0]` (R86). -/
def registerField (w : Word) : RegNo := w.extractLsb' 0 5

/-- `m = IW[0]` (R83). -/
def modeField (w : Word) : Mode := if w.getLsbD 0 then .static else .adaptive

/-- Format N (R82): bits 27..0 are zero. -/
def decodeN (w : Word) (i : Instr) : Decoded :=
  if w.extractLsb' 0 28 = 0#28 then .instr i else .illegal .reservedBits

/-- Format M (R83): bits 27..1 are zero. -/
def decodeM (w : Word) : Decoded :=
  if w.extractLsb' 1 27 = 0#27 then .instr (.minit (modeField w)) else .illegal .reservedBits

/-- Format S (R84): bits 27..9 are zero, the symbol is 0..256. -/
def decodeS (w : Word) (mk : Symbol → Instr) : Decoded :=
  if w.extractLsb' 9 19 ≠ 0#19 then .illegal .reservedBits
  else if symbolOk (symbolField w) then .instr (mk (symbolField w))
  else .illegal .symbolRange

/-- Format V (R85): bits 27..24 are zero, the symbol is 0..256, every count decodes (R93). -/
def decodeV (w : Word) : Decoded :=
  if w.extractLsb' 24 4 ≠ 0#4 then .illegal .reservedBits
  else if symbolOk (symbolField w) then .instr (.ldcnt (symbolField w) (countField w))
  else .illegal .symbolRange

/-- Format R (R86): bits 27..5 are zero, the register number is 0..14. -/
def decodeR (w : Word) : Decoded :=
  if w.extractLsb' 5 23 ≠ 0#23 then .illegal .reservedBits
  else if registerOk (registerField w) then .instr (.rdreg (registerField w))
  else .illegal .registerRange

/-- `Decode(w)` (R89). -/
def decode (w : Word) : Decoded :=
  match opField w with
  | 0x0 => decodeN w .nop
  | 0x1 => decodeN w .reset
  | 0x2 => decodeM w
  | 0x3 => decodeV w
  | 0x4 => decodeS w .rdcnt
  | 0x5 => decodeS w .getprob
  | 0x6 => decodeN w .getsym
  | 0x7 => decodeS w .update
  | 0x8 => decodeN w .ebegin
  | 0x9 => decodeN w .esym
  | 0xA => decodeN w .efinish
  | 0xB => decodeN w .dbegin
  | 0xC => decodeN w .getcnt
  | 0xD => decodeN w .dsym
  | 0xE => decodeR w
  | _ => .illegal .reservedOpcode

/-- The instruction's opcode (R88). -/
def Instr.opcode : Instr → BitVec 4
  | .nop => 0x0#4
  | .reset => 0x1#4
  | .minit _ => 0x2#4
  | .ldcnt _ _ => 0x3#4
  | .rdcnt _ => 0x4#4
  | .getprob _ => 0x5#4
  | .getsym => 0x6#4
  | .update _ => 0x7#4
  | .ebegin => 0x8#4
  | .esym => 0x9#4
  | .efinish => 0xA#4
  | .dbegin => 0xB#4
  | .getcnt => 0xC#4
  | .dsym => 0xD#4
  | .rdreg _ => 0xE#4

/-- The instruction's bits 27..0 (R82 to R86). -/
def Instr.operandBits : Instr → BitVec 28
  | .minit m => 0#27 ++ m.bit
  | .ldcnt s v => 0#4 ++ v ++ s
  | .rdcnt s => 0#19 ++ s
  | .getprob s => 0#19 ++ s
  | .update s => 0#19 ++ s
  | .rdreg r => 0#23 ++ r
  | .nop => 0#28
  | .reset => 0#28
  | .getsym => 0#28
  | .ebegin => 0#28
  | .esym => 0#28
  | .efinish => 0#28
  | .dbegin => 0#28
  | .getcnt => 0#28
  | .dsym => 0#28

/-- The command word of an instruction (R81 to R88): opcode in the top four bits. -/
def encode (i : Instr) : Word := i.opcode ++ i.operandBits

/-- What the decoder reads from an opcode-table word: the table's bits are the command word's bits,
and every bit above `nbits` is zero. -/
def decodeTableWord (nbits w : Nat) : Option Instr :=
  match decode (BitVec.ofNat 32 (w % 2 ^ nbits)) with
  | .instr i => some i
  | .illegal _ => none

end Sys2Proof
end

