-- ==== Sys2Proof/Config.lean ====
section
/-! DEFINITION. The implementation parameters of `spec/00_scope.md` rule R4, the two constant
registers (R38, R39), and the free values: what the spec leaves unspecified is an opaque constant with
no body, so that no proof can know it. -/

namespace Sys2Proof.Config

/-- `W`: width of `LOW`, `HIGH`, `CODE` (R4, D1). -/
def width : Nat := 16

/-- `MAX = 2^W - 1`: all precision bits set (R4). -/
def maxBound : Bound := 0xFFFF#16

/-- `HALF = 2^(W-1)` (R4). -/
def half : Nat := 0x8000

/-- `QTR = 2^(W-2)` (R4). -/
def quarter : Nat := 0x4000

/-- `Q3 = HALF + QTR` (R4). -/
def threeQuarters : Nat := 0xC000

/-- `NSYM`: number of symbols (R4). -/
def numSymbols : Nat := 257

/-- `EOS`: the end-of-stream symbol (R4, D3). -/
def eos : Symbol := 256#9

/-- `CEIL = 2^(W-2)`: ceiling of the sum of all counts (R4, D2). -/
def ceiling : Nat := 16384

/-- `EOSLIM = W - 2`: most end-of-stream answers taken as bit 0 (R4, D14). -/
def eosLimit : Nat := 14

/-- `2^PW - 1`: the largest value of `PEND` (R24). -/
def maxPending : Word := 0xFFFFFFFF#32

/-- `ID` (R38): "A", "C", W, version 1 of the command set. -/
def idWord : Word := 0x41431001#32

/-- `CEILR` (R39). -/
def ceilingWord : Word := 0x00004000#32

/-- FREE VALUE (log 2): `LOW` after the `n`-th event that leaves it unspecified (R232). -/
opaque freeLow : Nat → Bound

/-- FREE VALUE (log 2): `HIGH` after such an event (R232). -/
opaque freeHigh : Nat → Bound

/-- FREE VALUE (log 2): `CODE` after such an event (R232). -/
opaque freeCode : Nat → Bound

/-- FREE VALUE (log 2): `PEND` after such an event (R232). -/
opaque freePend : Nat → Word

/-- FREE VALUE (log 2): `EOSCNT` after such an event (R232: any value of its width). -/
opaque freeEoscnt : Nat → BitVec 4

/-- FREE VALUE (log 3): entry `i` of the count table after the `n`-th reset (R47, R201, R250). -/
opaque freeCount : Nat → Nat → Count

/-- FREE VALUE (log 6): whether the bit sink acted on the request that the `n`-th hardware reset
withdrew (R251, U6). -/
opaque withdrawnActed : Nat → Bool

/-- FREE VALUE (log 9): the count register that receives the exact sum `x`, which does not fit CW bits,
in an `UPDATE`; no run reaches it (R117 "No overflow is possible"). -/
opaque freeSum : Nat → Count

end Sys2Proof.Config
end

