-- ==== Sys2Proof/Machine/State.lean ====
section
/-! DEFINITION. The machine's state: the architectural state of `spec/10_state.md` rule R20, and the
four channels of `spec/00_scope.md` rules R9 and R10 (what the host will do, what the collaborators will
answer, what the core has sent), which the spec calls parameters of a step and a closed machine must
hold. State is plain data. -/

namespace Sys2Proof.Machine

/-- `ST`, the sequencing state (R30): ten values, 9 to 14 are never held. -/
inductive Seq where
  | idle        -- 0 `IDLE`
  | encReady    -- 1 `ENC_READY`
  | encRange    -- 2 `ENC_RANGE`
  | encEos      -- 3 `ENC_EOS`
  | encFlush    -- 4 `ENC_FLUSH`, held only while `EFINISH` executes
  | done        -- 5 `DONE`
  | decReady    -- 6 `DEC_READY`
  | decCount    -- 7 `DEC_COUNT`
  | decRange    -- 8 `DEC_RANGE`
  | fault       -- 15 `FAULT`
  deriving DecidableEq, Repr

/-- The five fault kinds (R220). -/
inductive FaultKind where
  | ioError
  | modelError
  | precisionError
  | corruptStreamError
  | illegalCommand
  deriving DecidableEq, Repr

/-- The count table `CNT[0..256]` (R43): the entries that differ from what an unlisted index reads as,
by strictly rising index (`CountTable.wf` in `Machine/Table.lean`). Log 1. -/
abbrev CountTable := List (Nat × Count)

/-- The five registers that a mid-command fault leaves unspecified (R232): the interval (R21, R22), the
decoder's position (R23), the pending bits (R24) and the end-of-stream counter (R34). -/
structure Interval where
  /-- `LOW` (R21) -/
  low : Bound
  /-- `HIGH` (R22) -/
  high : Bound
  /-- `CODE` (R23) -/
  code : Bound
  /-- `PEND` (R24) -/
  pend : Word
  /-- `EOSCNT` (R34) -/
  eoscnt : BitVec 4
  deriving DecidableEq, Repr

/-- The latches between the model and the interval unit (R26 to R28). -/
structure Latch where
  /-- `RL` (R26) -/
  rl : Count
  /-- `RH` (R26) -/
  rh : Count
  /-- `RT` (R26) -/
  rt : Count
  /-- `SV` (R27) -/
  sv : Count
  /-- `SYM` (R28) -/
  sym : Symbol
  deriving DecidableEq, Repr

/-- The probability model: the count table, its total and its flags. -/
structure Model where
  /-- `CNT[0..256]` (R43) -/
  cnt : CountTable
  /-- `TOT` (R40) -/
  tot : Count
  /-- `MODE` (R32) -/
  mode : Mode
  /-- `MVALID` (R33) -/
  mvalid : Bool
  deriving DecidableEq, Repr

/-- The fault registers (R35 to R37). -/
structure FaultRegs where
  /-- `E_IO` (R35) -/
  eIo : Bool
  /-- `E_MODEL` (R35) -/
  eModel : Bool
  /-- `E_PREC` (R35) -/
  ePrec : Bool
  /-- `E_CORRUPT` (R35) -/
  eCorrupt : Bool
  /-- `E_ILL` (R35) -/
  eIll : Bool
  /-- `FCAUSE` (R36) -/
  fcause : BitVec 4
  /-- `FCMD` (R37) -/
  fcmd : Word
  deriving DecidableEq, Repr

/-- An answer of the bit sink to `Emit` or `Flush` (R9, R70, R71). -/
inductive SinkAnswer where
  | ok
  | fail
  deriving DecidableEq, Repr

/-- An answer of the bit source to `ReadBit` (R9, R72). -/
inductive SourceAnswer where
  | bit (b : Bool)
  | endOfStream
  | fail
  deriving DecidableEq, Repr

/-- A bit-out event (R10): a bit in the sink, or the flush request. -/
inductive OutEvent where
  | emit (b : Bool)
  | flush
  deriving DecidableEq, Repr

/-- A response (R90): status and datum. -/
structure Response where
  status : BitVec 4
  data : Word
  deriving DecidableEq, Repr

/-- A transfer whose other side the core waits for: the sink's answer to a bit or a flush (R70, R71), the
source's answer (R72), the host's taking of a response (R9, U5). -/
inductive Request where
  | out (e : OutEvent)
  | readBit
  | response (r : Response)
  deriving DecidableEq, Repr

/-- What the host does next on the core (R9). A hardware reset comes with the answers of the
collaborators that the host resets or re-opens (R251). -/
inductive HostInput where
  /-- Sends a command word and takes its response (R90). -/
  | command (w : Word)
  /-- Asserts and releases the hardware reset between commands, or while the core waits inside one
  (R250, R251). -/
  | hardwareReset (sink : List SinkAnswer) (source : List SourceAnswer)
  /-- Sends a command word and never takes its response (R9: a side may wait without bound; U5). -/
  | untaken (w : Word)
  /-- Sends a command word and asserts the hardware reset before its response (R251). -/
  | abandoned (w : Word) (sink : List SinkAnswer) (source : List SourceAnswer)
  deriving DecidableEq, Repr

/-- The four channels (R9, R10). -/
structure Channels where
  /-- What the host will do, first first. -/
  inputs : List HostInput
  /-- The responses the host has taken, first first. -/
  responses : List Response
  /-- The answers the bit sink will give, first first; it answers nothing after the last. -/
  sinkAnswers : List SinkAnswer
  /-- The answers the bit source will give, first first; it answers nothing after the last. -/
  sourceAnswers : List SourceAnswer
  /-- The bit-out events made, first first. -/
  events : List OutEvent
  /-- The transfer the core waits for inside a command, if it does (R9, R70: no bound on the wait). -/
  waiting : Option Request
  deriving DecidableEq, Repr

/-- The machine's state. -/
structure State where
  /-- `LOW`, `HIGH`, `CODE`, `PEND`, `EOSCNT` -/
  iv : Interval
  /-- `RL`, `RH`, `RT`, `SV`, `SYM` -/
  latch : Latch
  /-- `CNT`, `TOT`, `MODE`, `MVALID` -/
  model : Model
  /-- `ST` -/
  st : Seq
  /-- `E_IO`, `E_MODEL`, `E_PREC`, `E_CORRUPT`, `E_ILL`, `FCAUSE`, `FCMD` -/
  faults : FaultRegs
  /-- The command, response, bit-out and bit-in channels -/
  chan : Channels
  /-- The MODEL's own field, none of the spec's: how many events so far left values unspecified (log 2) -/
  draws : Nat
  deriving DecidableEq, Repr

/-- No step of this machine ends in a fault of the model's own: the spec's five fault kinds are next
states with `ST = FAULT` (R230), and a command that waits for ever is a next state with
`Channels.waiting` set (R9, R70). So the type has no constructor. -/
inductive Fault : Type
  deriving DecidableEq, Repr

/-- Why the model has no meaning for an instruction. -/
inductive Refusal where
  /-- Raised by an arm of `exec` that gives its instruction no meaning yet; no arm is such. Safe. -/
  | notModelled (mnemonic : String)
  deriving DecidableEq, Repr

/-- Every interval register at its reset value (R47). -/
def Interval.zero : Interval := { low := 0, high := 0, code := 0, pend := 0, eoscnt := 0 }

/-- Every latch at its reset value (R47). -/
def Latch.zero : Latch := { rl := 0, rh := 0, rt := 0, sv := 0, sym := 0 }

/-- Every fault register at its reset value (R47). -/
def FaultRegs.zero : FaultRegs :=
  { eIo := false, eModel := false, ePrec := false, eCorrupt := false, eIll := false,
    fcause := 0, fcmd := 0 }

/-- The machine right after a hardware reset (R47, R250). The content of the count table is
DESIGN CHOICE (log 1): nothing is listed. Nothing has been sent on any channel. -/
def State.reset : State :=
  { iv := .zero
    latch := .zero
    model := { cnt := [], tot := 0, mode := .adaptive, mvalid := false }
    st := .idle
    faults := .zero
    chan :=
      { inputs := [], responses := [], sinkAnswers := [], sourceAnswers := [], events := [],
        waiting := none }
    draws := 0 }

end Sys2Proof.Machine
end

