-- ==== Sys2Proof/Machine/Flags.lean ====
section
/-! DEFINITION. Codes, flags and the packed status word: the values of `ST` (`spec/10_state.md` rule
R30), the cause codes (`spec/60_exceptions.md` rule R220), the sticky flags and first-fault registers
(R35 to R37, R230), `STATUS` (R41) and the fault pin (R237). -/

namespace Sys2Proof.Machine

/-- The value of `ST` (R30). -/
def Seq.code : Seq → BitVec 4
  | .idle => 0#4
  | .encReady => 1#4
  | .encRange => 2#4
  | .encEos => 3#4
  | .encFlush => 4#4
  | .done => 5#4
  | .decReady => 6#4
  | .decCount => 7#4
  | .decRange => 8#4
  | .fault => 15#4

/-- The cause code, which is also the response status (R91, R220). -/
def FaultKind.code : FaultKind → BitVec 4
  | .ioError => 1#4
  | .modelError => 2#4
  | .precisionError => 3#4
  | .corruptStreamError => 4#4
  | .illegalCommand => 5#4

/-- `flag(K) <- 1` (R230); the other flags keep their values (R35). -/
def FaultRegs.setFlag (f : FaultRegs) : FaultKind → FaultRegs
  | .ioError => { f with eIo := true }
  | .modelError => { f with eModel := true }
  | .precisionError => { f with ePrec := true }
  | .corruptStreamError => { f with eCorrupt := true }
  | .illegalCommand => { f with eIll := true }

/-- `if FCAUSE = 0: FCAUSE <- k, FCMD <- w` (R230): only the first fault since reset is recorded
(R36, R37). -/
def FaultRegs.setFirst (f : FaultRegs) (k : FaultKind) (w : Word) : FaultRegs :=
  if f.fcause = 0 then { f with fcause := k.code, fcmd := w } else f

/-- The fault registers after `raise K` of the command word `w` (R230). -/
def FaultRegs.record (f : FaultRegs) (k : FaultKind) (w : Word) : FaultRegs :=
  (f.setFlag k).setFirst k w

/-- One bit of a packed word. -/
def flagBit (b : Bool) : BitVec 1 := if b then 1#1 else 0#1

/-- The `STATUS` word (R41): reserved bits read 0. -/
def State.statusWord (s : State) : Word :=
  0#11 ++ flagBit s.faults.eIll ++ flagBit s.faults.eCorrupt ++ flagBit s.faults.ePrec ++
    flagBit s.faults.eModel ++ flagBit s.faults.eIo ++ 0#4 ++ s.iv.eoscnt ++ 0#2 ++
    flagBit s.model.mvalid ++ s.model.mode.bit ++ s.st.code

/-- The optional output pin `fault` (R237): 1 exactly while `ST = FAULT`; not state. -/
def State.faultPin (s : State) : Bool := decide (s.st = .fault)

end Sys2Proof.Machine
end

