-- ==== Sys2Proof/Machine/Table.lean ====
section
/-! DEFINITION. The count table (`spec/10_state.md` rules R43, R45): the one place that reads and writes
`CNT`, the cumulative function, the search of `GETSYM` and the halving of `UPDATE`. -/

namespace Sys2Proof.Machine

/-- What an index that the table does not list reads as: the count that `MINIT` gives every entry
(R110). DESIGN CHOICE for the table before the first `MINIT` (log 1). -/
def CountTable.unlisted : Count := 1#15

/-- `CNT[i]` (R7: `MemRead(i, 1)`). -/
def CountTable.read : CountTable → Nat → Count
  | [], _ => CountTable.unlisted
  | (k, c) :: t, i => if k = i then c else CountTable.read t i

/-- The table without index `i`. -/
def CountTable.erase : CountTable → Nat → CountTable
  | [], _ => []
  | (k, c) :: t, i => if k = i then CountTable.erase t i else (k, c) :: CountTable.erase t i

/-- An entry put in its place by index. -/
def CountTable.insert : CountTable → Nat → Count → CountTable
  | [], i, c => [(i, c)]
  | (k, d) :: t, i, c => if i < k then (i, c) :: (k, d) :: t else (k, d) :: CountTable.insert t i c

/-- `CNT[i] <- c` (R7: `MemWrite(i, 1, c)`); keeps the canonical form. -/
def CountTable.write (t : CountTable) (i : Nat) (c : Count) : CountTable :=
  if c = CountTable.unlisted then CountTable.erase t i
  else CountTable.insert (CountTable.erase t i) i c

/-- The table whose entries at the `n` indices from `k` on are those of `f`. -/
def CountTable.ofFnFrom (f : Nat → Count) : Nat → Nat → CountTable
  | 0, _ => []
  | n + 1, k =>
    if f k = CountTable.unlisted then CountTable.ofFnFrom f n (k + 1)
    else (k, f k) :: CountTable.ofFnFrom f n (k + 1)

/-- The table whose entry at every index `i` of 0..256 is `f i`: a write of all entries. -/
def CountTable.ofFn (f : Nat → Count) : CountTable := CountTable.ofFnFrom f Config.numSymbols 0

/-- `cum(k) = CNT[0] + ... + CNT[k-1]` (R45), an exact integer (R6). -/
def CountTable.cum (t : CountTable) : Nat → Nat
  | 0 => 0
  | k + 1 => CountTable.cum t k + (CountTable.read t k).toNat

/-- Searches `n` indices from `k` on for the one whose range holds `v`; `lo` is `cum(k)`. -/
def CountTable.findFrom (t : CountTable) (v : Nat) : Nat → Nat → Nat → Option Nat
  | 0, _, _ => none
  | n + 1, k, lo =>
    if v < lo + (CountTable.read t k).toNat then some k
    else CountTable.findFrom t v n (k + 1) (lo + (CountTable.read t k).toNat)

/-- The unique `k` in 0..256 with `cum(k) <= v < cum(k+1)` (R45, R115, R116). -/
def CountTable.symbolAt (t : CountTable) (v : Nat) : Option Nat :=
  CountTable.findFrom t v Config.numSymbols 0 0

/-- One count after the halving: `max(1, c >> 1)` (R118). -/
def halved (c : Count) : Count := if c.toNat / 2 = 0 then 1#15 else BitVec.ofNat 15 (c.toNat / 2)

/-- `for i in 0..256: CNT[i] <- max(1, CNT[i] >> 1)` (R118). -/
def CountTable.halve (t : CountTable) : CountTable :=
  CountTable.ofFn fun i => halved (CountTable.read t i)

/-- Strictly rising indices from `lo` on, all below 257, none with the unlisted count. -/
def CountTable.wfFrom : Nat → CountTable → Bool
  | _, [] => true
  | lo, (k, c) :: t =>
    decide (lo ≤ k) && decide (k < Config.numSymbols) && decide (c ≠ CountTable.unlisted) &&
      CountTable.wfFrom (k + 1) t

/-- The table's canonical form: equal tables are equal data (log 1). -/
def CountTable.wf (t : CountTable) : Bool := CountTable.wfFrom 0 t

end Sys2Proof.Machine
end

