-- ==== Sys2Proof/Machine/Operands.lean ====
section
/-! DEFINITION. Operand forms and legality: the register map that `RDREG` reads (`spec/10_state.md` rule
R42), the count that a symbol operand names, and the table of rule R31 that says in which state a
command is legal. -/

namespace Sys2Proof.Machine

/-- The register map (R42): register `r` as 32 bits, zero-extended; 15 to 31 are reserved. -/
def State.readReg (s : State) (r : RegNo) : Option Word :=
  match r.toNat with
  | 0 => some Config.idWord
  | 1 => some s.statusWord
  | 2 => some (s.iv.low.setWidth 32)
  | 3 => some (s.iv.high.setWidth 32)
  | 4 => some (s.iv.code.setWidth 32)
  | 5 => some s.iv.pend
  | 6 => some (s.latch.rl.setWidth 32)
  | 7 => some (s.latch.rh.setWidth 32)
  | 8 => some (s.latch.rt.setWidth 32)
  | 9 => some (s.latch.sv.setWidth 32)
  | 10 => some (s.latch.sym.setWidth 32)
  | 11 => some (s.model.tot.setWidth 32)
  | 12 => some Config.ceilingWord
  | 13 => some (s.faults.fcause.setWidth 32)
  | 14 => some s.faults.fcmd
  | _ => none

/-- `CNT[s]` for a symbol operand (R60, R62). -/
def State.count (s : State) (x : Symbol) : Count := CountTable.read s.model.cnt x.toNat

/-- `cum(k)` of the current table (R45). -/
def State.cum (s : State) (k : Nat) : Nat := CountTable.cum s.model.cnt k

/-- The operand constraints that the decode step tests (R8 step 1, R93). -/
def operandsOk (i : Instr) : Bool := i.wellFormed

/-- Command legality by state, with the extra conditions (R31; R8 step 2). -/
def State.legal (s : State) : Instr → Bool
  | .nop => true
  | .reset => true
  | .rdreg _ => true
  | .rdcnt _ => s.model.mvalid
  | .minit _ => decide (s.st = .idle) || decide (s.st = .done)
  | .ldcnt _ _ => decide (s.st = .idle) && s.model.mvalid && decide (s.model.mode = .static)
  | .ebegin => decide (s.st = .idle) && s.model.mvalid
  | .getprob _ => decide (s.st = .encReady)
  | .esym => decide (s.st = .encRange)
  | .efinish => decide (s.st = .encEos)
  | .dbegin => decide (s.st = .idle) && s.model.mvalid
  | .getcnt => decide (s.st = .decReady)
  | .getsym => decide (s.st = .decCount)
  | .dsym => decide (s.st = .decRange)
  | .update _ =>
    (decide (s.st = .encReady) || decide (s.st = .decReady)) && decide (s.model.mode = .adaptive)

end Sys2Proof.Machine
end

