-- ==== Sys2Proof/Machine/Ops.lean ====
section
/-! DEFINITION. The shared operations: named state updates, the response (`spec/30_encoding.md` rules
R90 to R92), RAISING A FAULT (`spec/60_exceptions.md` rules R230 to R232) and leaving the fault state by
a reset (R234; `spec/43_system.md` rule R201; `spec/70_reset_and_hazards.md` rules R250, R251), the
channel primitives `Emit`, `Flush`, `ReadBit` (`spec/20_memory.md` rules R70 to R72) and the guard of
every command (`spec/00_scope.md` rule R8 steps 1 and 2). -/

namespace Sys2Proof.Machine

/-! ### Named updates -/

def State.setIv (s : State) (v : Interval) : State := { s with iv := v }

def State.setLatch (s : State) (v : Latch) : State := { s with latch := v }

def State.setModel (s : State) (v : Model) : State := { s with model := v }

/-- `ST <- v`: the block's only control transfer (R7). -/
def State.setSt (s : State) (v : Seq) : State := { s with st := v }

def State.setFaults (s : State) (v : FaultRegs) : State := { s with faults := v }

def State.setChan (s : State) (v : Channels) : State := { s with chan := v }

/-- The next free values are fresh. -/
def State.draw (s : State) : State := { s with draws := s.draws + 1 }

/-! ### Responses and faults -/

/-- `respond(status, data)` (R7, R90): the one response of the command. -/
def State.respond (s : State) (status : BitVec 4) (data : Word) : State :=
  s.setChan { s.chan with responses := s.chan.responses ++ [{ status := status, data := data }] }

/-- `respond(OK, data)`: status code 0 (R91). -/
def State.respondOk (s : State) (data : Word) : State := s.respond 0#4 data

/-- `raise K` of the command word `w` (R230): flag, first-fault registers, `ST <- FAULT`, the response
`(k, 0)`. All else is unchanged: a "pre" fault (R231). -/
def State.raise (s : State) (k : FaultKind) (w : Word) : State :=
  ((s.setFaults (s.faults.record k w)).setSt .fault).respond k.code 0

/-- The values the five interval registers hold after a "mid" fault: any (R232, log 2). -/
def freeInterval (n : Nat) : Interval :=
  { low := Config.freeLow n
    high := Config.freeHigh n
    code := Config.freeCode n
    pend := Config.freePend n
    eoscnt := Config.freeEoscnt n }

/-- `raise K` in mid-command (R229, R232): `LOW`, `HIGH`, `CODE`, `PEND`, `EOSCNT` become free values. -/
def State.raiseMid (s : State) (k : FaultKind) (w : Word) : State :=
  ((s.setIv (freeInterval s.draws)).draw).raise k w

/-! ### Reset -/

/-- The count table after a reset: any content (R47, R201, R250, log 3). -/
def freeTable (n : Nat) : CountTable := CountTable.ofFn (Config.freeCount n)

/-- Every register at its reset value (R47); the channels are not touched. -/
def State.resetRegs (s : State) : State :=
  { iv := .zero
    latch := .zero
    model := { cnt := freeTable s.draws, tot := 0, mode := .adaptive, mvalid := false }
    st := .idle
    faults := .zero
    chan := s.chan
    draws := s.draws + 1 }

/-- The events in the sink after a hardware reset: a request that waited is withdrawn, and whether the
sink acted on it is free (R251, log 6). A read or a response that waited leaves no event. -/
def withdrawn (n : Nat) (c : Channels) : List OutEvent :=
  match c.waiting with
  | some (.out e) => if Config.withdrawnActed n then c.events ++ [e] else c.events
  | some .readBit => c.events
  | some (.response _) => c.events
  | none => c.events

/-- The hardware reset (R250, R251): registers as R47, the command in progress abandoned without a
response, the events made kept, the collaborators re-opened. -/
def State.hardwareReset (s : State) (sink : List SinkAnswer) (source : List SourceAnswer) : State :=
  (s.resetRegs).setChan
    { s.chan with
      sinkAnswers := sink, sourceAnswers := source, events := withdrawn s.draws s.chan, waiting := none }

/-! ### Channel primitives -/

/-- How a part of a command ends: it goes on, it raises a fault, or it waits for an answer that never
comes. -/
inductive Flow (α : Type) where
  | goesOn (a : α) (s : State)
  | raises (k : FaultKind) (s : State)
  | waits (s : State)
  deriving DecidableEq, Repr

/-- What follows happens only if the part before goes on (R8: a raise means no later step happens). -/
def Flow.andThen {α β : Type} (x : Flow α) (f : α → State → Flow β) : Flow β :=
  match x with
  | .goesOn a s => f a s
  | .raises k s => .raises k s
  | .waits s => .waits s

/-- A bit-out request (R70, R71): on `ok` the event is appended, on `fail` it is not and `IOError` is
raised; without an answer the core waits. -/
def State.sendOut (s : State) (e : OutEvent) : Flow Unit :=
  match s.chan.sinkAnswers with
  | [] => .waits (s.setChan { s.chan with waiting := some (.out e) })
  | .ok :: rest =>
    .goesOn () (s.setChan { s.chan with sinkAnswers := rest, events := s.chan.events ++ [e] })
  | .fail :: rest => .raises .ioError (s.setChan { s.chan with sinkAnswers := rest })

/-- `Emit(b)` (R70). -/
def State.emit (s : State) (b : Bool) : Flow Unit := s.sendOut (.emit b)

/-- `repeat n times: Emit(b)` (R7). -/
def State.emitTimes : Nat → Bool → State → Flow Unit
  | 0, _, s => .goesOn () s
  | n + 1, b, s => (s.emit b).andThen fun _ t => State.emitTimes n b t

/-- `Flush()` (R71). -/
def State.flush (s : State) : Flow Unit := s.sendOut .flush

/-- `ReadBit()` (R72): `EndOfStream` is taken as 0 at most `EOSLIM` times in a run. -/
def State.readBit (s : State) : Flow Bool :=
  match s.chan.sourceAnswers with
  | [] => .waits (s.setChan { s.chan with waiting := some .readBit })
  | .fail :: rest => .raises .ioError (s.setChan { s.chan with sourceAnswers := rest })
  | .bit b :: rest => .goesOn b (s.setChan { s.chan with sourceAnswers := rest })
  | .endOfStream :: rest =>
    if Config.eosLimit ≤ s.iv.eoscnt.toNat then
      .raises .corruptStreamError (s.setChan { s.chan with sourceAnswers := rest })
    else
      .goesOn false
        ((s.setChan { s.chan with sourceAnswers := rest }).setIv
          { s.iv with eoscnt := s.iv.eoscnt + 1#4 })

/-! ### The shape of a command (R8) -/

/-- What a machine step answers. -/
abbrev Result := Host.Outcome State Fault Refusal

/-- `raise K(w)` before any change of the command (R229 "pre"). -/
def faultPre (k : FaultKind) (i : Instr) (s : State) : Result := .next (s.raise k (encode i))

/-- The end of a command whose effect may raise in mid-command (R229 "mid") or wait (R70). -/
def finish (i : Instr) (data : Word) : Flow Unit → Result
  | .goesOn _ s => .next (s.respondOk data)
  | .raises k s => .next (s.raiseMid k (encode i))
  | .waits s => .next s

/-- Decode and legality come first (R8 steps 1 and 2, R228): a command that fails either raises
`IllegalCommand` with all state unchanged (R225, R231). -/
def guarded (i : Instr) (s : State) (body : Result) : Result :=
  if operandsOk i && s.legal i then body else faultPre .illegalCommand i s

end Sys2Proof.Machine
end

