-- ==== Sys2Proof/Machine/Interval.lean ====
section
/-! DEFINITION. The interval unit (`spec/41_encoder.md` rules R141 to R144, `spec/42_decoder.md` rule
R173): the narrowing, the conditions E1, E2, E3, one renormalization step of each kind, and the loops
`RenormE` and `RenormD`. -/

namespace Sys2Proof.Machine

/-- `Narrow(lo, hi, rl, rh, rt)` (R141); `none` is `PrecisionError`. Both bounds come from the old ones.
Where the inputs are outside rule R141's (no run reaches it) a bound that would leave 0..MAX is rejected
as `PrecisionError` too (R6; DESIGN CHOICE, log 8). -/
def narrow (lo hi : Bound) (rl rh rt : Count) : Option (Bound × Bound) :=
  let range := hi.toNat + 1 - lo.toNat
  let a := range * rl.toNat / rt.toNat
  let b := range * rh.toNat / rt.toNat
  if b ≤ a then none
  else if Config.maxBound.toNat < lo.toNat + b - 1 then none
  else some (BitVec.ofNat 16 (lo.toNat + a), BitVec.ofNat 16 (lo.toNat + b - 1))

/-- E1: both bounds below `HALF` (R142). -/
def Interval.e1 (v : Interval) : Bool := !v.low.getLsbD 15 && !v.high.getLsbD 15

/-- E2: both bounds at or above `HALF` (R142). -/
def Interval.e2 (v : Interval) : Bool := v.low.getLsbD 15 && v.high.getLsbD 15

/-- E3: `QTR <= LOW < HALF <= HIGH < Q3` (R142). -/
def Interval.e3 (v : Interval) : Bool :=
  !v.low.getLsbD 15 && v.high.getLsbD 15 && v.low.getLsbD 14 && !v.high.getLsbD 14

/-- `(v << 1) mod 2^16`, the vacated bit 0 set to `b` (R143, R173). -/
def shiftIn (v : Bound) (b : Bool) : Bound := (v <<< 1) ||| (if b then 1#16 else 0#16)

/-- The E1/E2 step of `LOW` and `HIGH` (R143): shifted, the vacated bits 0 and 1. -/
def Interval.shift (v : Interval) : Interval :=
  { v with low := shiftIn v.low false, high := shiftIn v.high true }

/-- The E3 step of `LOW` and `HIGH` in bit terms (R143): bit 14 of `LOW` cleared, bit 14 of `HIGH` set,
both shifted, the vacated bits 0 and 1. -/
def Interval.widen (v : Interval) : Interval :=
  { v with
    low := shiftIn (v.low &&& 0x3FFF#16) false
    high := shiftIn (v.high ||| 0x4000#16) true }

/-- The E1/E2 step of `CODE` with the bit read (R173). -/
def Interval.shiftCode (v : Interval) (b : Bool) : Interval := { v with code := shiftIn v.code b }

/-- The E3 step of `CODE` in bit terms (R173): bit 14 inverted, shifted, the bit read in bit 0. -/
def Interval.widenCode (v : Interval) (b : Bool) : Interval :=
  { v with code := shiftIn (v.code ^^^ 0x4000#16) b }

/-- The encoder's E1/E2 step (R143): the common top bit, then the pending complements, then the shift. -/
def State.emitTop (s : State) : Flow Unit :=
  (s.emit (s.iv.low.getLsbD 15)).andThen fun _ t =>
    (State.emitTimes s.iv.pend.toNat (!s.iv.low.getLsbD 15) t).andThen fun _ u =>
      .goesOn () (u.setIv { u.iv.shift with pend := 0#32 })

/-- The encoder's E3 step (R143): one more pending bit, `PrecisionError` at the counter's maximum. -/
def State.deferBit (s : State) : Flow Unit :=
  if s.iv.pend = Config.maxPending then .raises .precisionError s
  else .goesOn () (s.setIv { s.iv.widen with pend := s.iv.pend + 1#32 })

/-- `RenormE()` (R143), at most `n` steps; 16 always suffice (R148). -/
def renormE : Nat → State → Flow Unit
  | 0, s => .goesOn () s
  | n + 1, s =>
    if s.iv.e1 || s.iv.e2 then s.emitTop.andThen fun _ t => renormE n t
    else if s.iv.e3 then s.deferBit.andThen fun _ t => renormE n t
    else .goesOn () s

/-- `RenormD()` (R173), at most `n` steps; 16 always suffice (R148). One `ReadBit` a step. -/
def renormD : Nat → State → Flow Unit
  | 0, s => .goesOn () s
  | n + 1, s =>
    if s.iv.e1 || s.iv.e2 then
      (s.setIv s.iv.shift).readBit.andThen fun b t => renormD n (t.setIv (t.iv.shiftCode b))
    else if s.iv.e3 then
      (s.setIv s.iv.widen).readBit.andThen fun b t => renormD n (t.setIv (t.iv.widenCode b))
    else .goesOn () s

/-- The narrowing of the current interval by the range latch (R145, R175). -/
def State.narrowed (s : State) : Option (Bound × Bound) :=
  narrow s.iv.low s.iv.high s.latch.rl s.latch.rh s.latch.rt

/-- `LOW <- nl`, `HIGH <- nh` (R145, R175). -/
def State.setBounds (s : State) (nl nh : Bound) : State := s.setIv { s.iv with low := nl, high := nh }

end Sys2Proof.Machine
end

