-- ==== Sys2Proof/Machine/Encoder.lean ====
section
/-! DEFINITION. `spec/41_encoder.md`: `EBEGIN`, `ESYM`, `EFINISH`. -/

namespace Sys2Proof.Machine

/-- What a begin command writes: the whole interval, no pending bits, `CODE` and `EOSCNT` cleared
(R140, R170). -/
def Interval.begin : Interval :=
  { low := 0, high := Config.maxBound, code := 0, pend := 0, eoscnt := 0 }

/-- `EBEGIN` (R140). -/
def execEbegin (s : State) : Result :=
  guarded .ebegin s <| .next (((s.setIv .begin).setSt .encReady).respondOk 0)

/-- `ESYM` after its narrowing (R145): `RenormE`, then the next state by the symbol. -/
def State.encodeFrom (s : State) : Flow Unit :=
  (renormE Config.width s).andThen fun _ t =>
    .goesOn () (t.setSt (if s.latch.sym = Config.eos then .encEos else .encReady))

/-- `ESYM` (R145): narrows by the latch, `PrecisionError` before any change if that fails. -/
def execEsym (s : State) : Result :=
  guarded .esym s <|
    match s.narrowed with
    | none => faultPre .precisionError .esym s
    | some (nl, nh) => finish .esym 0 (s.setBounds nl nh).encodeFrom

/-- The effect of `EFINISH` (R146): the second-highest bit of `LOW`, `PEND + 1` complements, the flush. -/
def State.finishRun (s : State) : Flow Unit :=
  ((s.setSt .encFlush).emit (s.iv.low.getLsbD 14)).andThen fun _ t =>
    (State.emitTimes (s.iv.pend.toNat + 1) (!s.iv.low.getLsbD 14) t).andThen fun _ u =>
      (u.setIv { u.iv with pend := 0#32 }).flush.andThen fun _ v => .goesOn () (v.setSt .done)

/-- `EFINISH` (R146). -/
def execEfinish (s : State) : Result := guarded .efinish s <| finish .efinish 0 s.finishRun

end Sys2Proof.Machine
end

