-- ==== Sys2Proof/Machine/Decoder.lean ====
section
/-! DEFINITION. `spec/42_decoder.md`: `DBEGIN`, `GETCNT`, `DSYM`. -/

namespace Sys2Proof.Machine

/-- `repeat n times: CODE <- ((CODE << 1) mod 2^16) | ReadBit()` (R170). -/
def fillCode : Nat → State → Flow Unit
  | 0, s => .goesOn () s
  | n + 1, s => s.readBit.andThen fun b t => fillCode n (t.setIv (t.iv.shiftCode b))

/-- The effect of `DBEGIN` (R170): the whole interval, then the first W bits into `CODE`. -/
def State.beginDecode (s : State) : Flow Unit :=
  (fillCode Config.width (s.setIv .begin)).andThen fun _ t => .goesOn () (t.setSt .decReady)

/-- `DBEGIN` (R170). -/
def execDbegin (s : State) : Result := guarded .dbegin s <| finish .dbegin 0 s.beginDecode

/-- The scaled value of `GETCNT` (R171), none where it raises `CorruptStreamError`: `CODE` below `LOW`,
or the value not below the total. With `LOW <= CODE` the second test is `CODE > HIGH` (R172), which also
decides the case of an empty interval (log 8). -/
def State.scaled (s : State) : Option Nat :=
  if s.iv.code.toNat < s.iv.low.toNat then none
  else if s.iv.high.toNat + 1 ≤ s.iv.low.toNat then none
  else
    let t := ((s.iv.code.toNat - s.iv.low.toNat + 1) * s.model.tot.toNat - 1) /
      (s.iv.high.toNat + 1 - s.iv.low.toNat)
    if s.model.tot.toNat ≤ t then none else some t

/-- `GETCNT` (R171). -/
def execGetcnt (s : State) : Result :=
  guarded .getcnt s <|
    match s.scaled with
    | none => faultPre .corruptStreamError .getcnt s
    | some t =>
      .next <|
        ((s.setLatch { s.latch with sv := BitVec.ofNat 15 t }).setSt .decCount).respondOk
          (BitVec.ofNat 32 t)

/-- `DSYM` after its narrowing (R175): `RenormD`, then `DEC_READY`. -/
def State.decodeFrom (s : State) : Flow Unit :=
  (renormD Config.width s).andThen fun _ t => .goesOn () (t.setSt .decReady)

/-- `DSYM` (R175): the end-of-stream symbol ends the run and changes nothing else. -/
def execDsym (s : State) : Result :=
  guarded .dsym s <|
    if s.latch.sym = Config.eos then .next ((s.setSt .done).respondOk 0)
    else
      match s.narrowed with
      | none => faultPre .precisionError .dsym s
      | some (nl, nh) => finish .dsym 0 (s.setBounds nl nh).decodeFrom

end Sys2Proof.Machine
end

