-- ==== Sys2Proof/Machine/ModelUnit.lean ====
section
/-! DEFINITION. `spec/40_model.md`: `MINIT`, `LDCNT`, `RDCNT`, `GETPROB`, `GETSYM`, `UPDATE`, `Rescale`. -/

namespace Sys2Proof.Machine

/-- An exact sum as a count register holds it (R6). A sum that does not fit is left free (log 9). -/
def countOf (x : Nat) : Count := if x < 2 ^ 15 then BitVec.ofNat 15 x else Config.freeSum x

/-- `MINIT m` (R110): every count 1, `TOT = 257`, the mode fixed, the table valid. -/
def execMinit (m : Mode) (s : State) : Result :=
  guarded (.minit m) s <|
    .next <|
      ((s.setModel
            { cnt := CountTable.ofFn fun _ => 1#15, tot := 257#15, mode := m, mvalid := true }).setSt
          .idle).respondOk 0

/-- `TOT - CNT[s] + v` (R112); none where the exact sum would be negative, which no run reaches
(log 8). -/
def State.loadSum (s : State) (x : Symbol) (v : Count) : Option Nat :=
  if s.model.tot.toNat + v.toNat < (s.count x).toNat then none
  else some (s.model.tot.toNat + v.toNat - (s.count x).toNat)

/-- `LDCNT s, v` (R112): the value tests in the order of rule R228, then the write. -/
def execLdcnt (x : Symbol) (v : Count) (s : State) : Result :=
  guarded (.ldcnt x v) s <|
    if v = 0#15 then faultPre .modelError (.ldcnt x v) s
    else if Config.ceiling < v.toNat then faultPre .modelError (.ldcnt x v) s
    else
      match s.loadSum x v with
      | none => faultPre .modelError (.ldcnt x v) s
      | some t =>
        if Config.ceiling < t then faultPre .modelError (.ldcnt x v) s
        else
          .next <|
            (s.setModel
              { s.model with cnt := CountTable.write s.model.cnt x.toNat v, tot := BitVec.ofNat 15 t }
              ).respondOk (BitVec.ofNat 32 t)

/-- `RDCNT s` (R113): the count, zero-extended; no effect on state. -/
def execRdcnt (x : Symbol) (s : State) : Result :=
  guarded (.rdcnt x) s <| .next (s.respondOk ((s.count x).setWidth 32))

/-- The latch with the Cumulative Range of symbol `k` (R26, R114, R115). -/
def State.rangeLatch (s : State) (k : Nat) : Latch :=
  { s.latch with
    rl := BitVec.ofNat 15 (s.cum k)
    rh := BitVec.ofNat 15 (s.cum (k + 1))
    rt := s.model.tot
    sym := BitVec.ofNat 9 k }

/-- The upper count of symbol `k`'s range fits the latch (R6); it does in every run (R44, log 8). -/
def State.rangeFits (s : State) (k : Nat) : Bool := decide (s.cum (k + 1) < 2 ^ 15)

/-- `GETPROB s` (R114): the symbol's range into the latch. -/
def execGetprob (x : Symbol) (s : State) : Result :=
  guarded (.getprob x) s <|
    if Config.ceiling < s.model.tot.toNat || !s.rangeFits x.toNat then
      faultPre .modelError (.getprob x) s
    else .next (((s.setLatch (s.rangeLatch x.toNat)).setSt .encRange).respondOk 0)

/-- `GETSYM` (R115): the symbol whose range holds `SV`, and its range, into the latch. -/
def execGetsym (s : State) : Result :=
  guarded .getsym s <|
    if s.model.tot.toNat ≤ s.latch.sv.toNat then faultPre .corruptStreamError .getsym s
    else
      match CountTable.symbolAt s.model.cnt s.latch.sv.toNat with
      | none => faultPre .corruptStreamError .getsym s
      | some k =>
        if s.rangeFits k then
          .next
            (((s.setLatch (s.rangeLatch k)).setSt .decRange).respondOk
              ((s.rangeLatch k).sym.setWidth 32))
        else faultPre .corruptStreamError .getsym s

/-- `Rescale()` (R118): every count halved with a floor of 1, the total summed anew. -/
def Model.rescale (m : Model) : Model :=
  { m with
    cnt := CountTable.halve m.cnt
    tot := countOf (CountTable.cum (CountTable.halve m.cnt) Config.numSymbols) }

/-- `CNT[s] <- CNT[s] + 1`, `TOT <- TOT + 1` (R117). -/
def Model.increment (m : Model) (x : Symbol) : Model :=
  { m with
    cnt := CountTable.write m.cnt x.toNat (countOf ((CountTable.read m.cnt x.toNat).toNat + 1))
    tot := countOf (m.tot.toNat + 1) }

/-- The model after `UPDATE s` (R117): the halving runs when the total has reached the ceiling. -/
def Model.update (m : Model) (x : Symbol) : Model :=
  if Config.ceiling ≤ (m.increment x).tot.toNat then (m.increment x).rescale else m.increment x

/-- `UPDATE s` (R117). -/
def execUpdate (x : Symbol) (s : State) : Result :=
  guarded (.update x) s <|
    .next ((s.setModel (s.model.update x)).respondOk ((s.model.update x).tot.setWidth 32))

end Sys2Proof.Machine
end

