-- ==== Sys2Proof/Machine/System.lean ====
section
/-! DEFINITION. `spec/43_system.md`: `NOP`, `RESET`, `RDREG`. -/

namespace Sys2Proof.Machine

/-- `NOP` (R200): legal in every state, changes nothing. -/
def execNop (s : State) : Result := guarded .nop s <| .next (s.respondOk 0)

/-- `RESET` (R201): every register to its reset value, answered `(OK, 0)`; the return from a fault. -/
def execReset (s : State) : Result := guarded .reset s <| .next (s.resetRegs.respondOk 0)

/-- `RDREG r` (R202): the register, zero-extended; no effect on state. -/
def execRdreg (r : RegNo) (s : State) : Result :=
  guarded (.rdreg r) s <|
    match s.readReg r with
    | some w => .next (s.respondOk w)
    | none => faultPre .illegalCommand (.rdreg r) s

end Sys2Proof.Machine
end

