-- ==== Sys2Proof/Machine/Dispatch.lean ====
section
/-! DEFINITION. One arm per command (`spec/30_encoding.md` rule R88), each one call of its meaning. -/

namespace Sys2Proof.Machine

/-- The command's meaning. -/
def exec (i : Instr) (s : State) : Host.Outcome State Fault Refusal :=
  match i with
  | .nop => Sys2Proof.Machine.execNop s
  | .reset => Sys2Proof.Machine.execReset s
  | .minit m => Sys2Proof.Machine.execMinit m s
  | .ldcnt x v => Sys2Proof.Machine.execLdcnt x v s
  | .rdcnt x => Sys2Proof.Machine.execRdcnt x s
  | .getprob x => Sys2Proof.Machine.execGetprob x s
  | .getsym => Sys2Proof.Machine.execGetsym s
  | .update x => Sys2Proof.Machine.execUpdate x s
  | .ebegin => Sys2Proof.Machine.execEbegin s
  | .esym => Sys2Proof.Machine.execEsym s
  | .efinish => Sys2Proof.Machine.execEfinish s
  | .dbegin => Sys2Proof.Machine.execDbegin s
  | .getcnt => Sys2Proof.Machine.execGetcnt s
  | .dsym => Sys2Proof.Machine.execDsym s
  | .rdreg r => Sys2Proof.Machine.execRdreg r s

end Sys2Proof.Machine
end

