-- ==== Sys2Proof/Machine/Input.lean ====
section
/-! DEFINITION. How a command word comes to run: the core takes what the host does next
(`spec/00_scope.md` rules R9, R12; `spec/30_encoding.md` rule R90; `spec/70_reset_and_hazards.md` rules
R251, R252, R258). There is no program counter and no fetch (R29). -/

namespace Sys2Proof.Machine

/-- The host's next action is taken off the command channel. -/
def State.setInputs (s : State) (rest : List HostInput) : State :=
  s.setChan { s.chan with inputs := rest }

/-- One command word (R8): a word that is no command raises `IllegalCommand` in every state (R93,
R225), a command has its meaning. -/
def runWord (w : Word) (s : State) : Result :=
  match decode w with
  | .instr i => exec i s
  | .illegal _ => .next (s.raise .illegalCommand w)

/-- The responses given before, kept: an abandoned command gets none (R251). -/
def State.withResponses (s : State) (r : List Response) : State :=
  s.setChan { s.chan with responses := r }

/-- A command abandoned by the hardware reset before its response (R251): the channel events it made
stay made, all else is as after a reset. -/
def runAbandoned (w : Word) (sink : List SinkAnswer) (source : List SourceAnswer) (s : State) : Result :=
  match runWord w s with
  | .next t => .next ((t.withResponses s.chan.responses).hardwareReset sink source)
  | .fault f => .fault f
  | .refused r => .refused r

/-- The response just given, offered instead: the host does not take it, and the core waits for that with
the command's effect complete (R9, R90, U5). `given` are the responses taken before. -/
def State.offerResponse (s : State) (given : List Response) : State :=
  match s.chan.responses.getLast? with
  | some r => s.setChan { s.chan with responses := given, waiting := some (.response r) }
  | none => s

/-- A command whose response the host never takes (R9, U5): its effect happens in full. One that waits for
a collaborator has no response to offer. -/
def runUntaken (w : Word) (s : State) : Result :=
  match runWord w s with
  | .next t => if t.chan.waiting.isSome then .next t else .next (t.offerResponse s.chan.responses)
  | .fault f => .fault f
  | .refused r => .refused r

/-- What the core does with the host's next action. It does nothing while there is none (R252). While it
waits inside a command, for a collaborator or for its response to be taken, it takes no word (R90, R258),
and only the hardware reset ends the wait (R70, U5). -/
def takeInput (s : State) : Result :=
  match s.chan.inputs with
  | [] => .next s
  | .hardwareReset sink source :: rest => .next ((s.setInputs rest).hardwareReset sink source)
  | .command w :: rest => if s.chan.waiting.isSome then .next s else runWord w (s.setInputs rest)
  | .untaken w :: rest => if s.chan.waiting.isSome then .next s else runUntaken w (s.setInputs rest)
  | .abandoned w sink source :: rest =>
    if s.chan.waiting.isSome then .next s else runAbandoned w sink source (s.setInputs rest)

/-- The state in which the host's next action is to send the command word `w` and the core takes it. -/
def State.sendWord (s : State) (w : Word) : State :=
  s.setChan { s.chan with inputs := .command w :: s.chan.inputs, waiting := none }

end Sys2Proof.Machine
end

