-- ==== Sys2Proof/Machine/Step.lean ====
section
/-! DEFINITION. One step of the machine at command level (`spec/00_scope.md` rule R11): one action of the
host, one command word in, one response out. -/

namespace Sys2Proof.Machine

/-- One step. -/
def step (s : State) : Host.Outcome State Fault Refusal := takeInput s

/-- `s` with the command word of an opcode-table row as the host's next action. -/
def State.withFetchWord (s : State) (nbits w : Nat) : State :=
  s.sendWord (BitVec.ofNat 32 (w % 2 ^ nbits))

end Sys2Proof.Machine
end

