-- ==== Sys2Proof/Machine/Sequencer.lean ====
section
/-! DEFINITION. The renormalization FSM (`spec/41_encoder.md` rules R150, R151): the micro-steps that
refine `ESYM`, `EFINISH`, `DBEGIN`, `DSYM`. The phase is hidden state, `RN_IDLE` at every command
boundary (`spec/10_state.md` rule R46), so it stands here beside the state and not in it (log 10). The
hardware reset brings it back to `RN_IDLE` from every phase (`spec/70_reset_and_hazards.md` rules R250,
R251). -/

namespace Sys2Proof.Machine

/-- The phases of the sequencer (R150). -/
inductive Phase where
  | idle      -- `RN_IDLE`
  | narrow    -- `RN_NARROW`
  | test      -- `RN_TEST`
  | emit      -- `RN_EMIT`
  | follow    -- `RN_FOLLOW`
  | shift     -- `RN_SHIFT`
  | under     -- `RN_UNDER`
  | fill      -- `RN_FILL`
  | fin1      -- `RN_FIN1`
  | fin2      -- `RN_FIN2`
  | fin3      -- `RN_FIN3`
  | flush     -- `RN_FLUSH`
  deriving DecidableEq, Repr

/-- The machine inside a command: the command, the phase, the bits `RN_FILL` has read, and the bit `fb`
that `RN_FIN1` latches. -/
structure Micro where
  st : State
  instr : Instr
  phase : Phase
  filled : Nat
  fb : Bool
  deriving DecidableEq, Repr

/-- A sequencer with no command in progress (R46): `RN_IDLE`, no bit read or latched. In `RN_IDLE` the field
`instr` says nothing. -/
def Micro.resting (s : State) : Micro :=
  { st := s, instr := .nop, phase := .idle, filled := 0, fb := false }

/-- The core right after power-on, which is a hardware reset: the phase is `RN_IDLE` (R250). -/
def Micro.reset : Micro := .resting .reset

/-- The hardware reset in any phase of any command (R250, R251): the command is abandoned, every register has
its reset value, and the phase is `RN_IDLE`. -/
def Micro.hardwareReset (m : Micro) (sink : List SinkAnswer) (source : List SourceAnswer) : Micro :=
  .resting (m.st.hardwareReset sink source)

/-- A phase that makes a channel request (R151): its transition on the answer; on a fault the sequencer
goes to `RN_IDLE` and `ST` to `FAULT`; without an answer it stays in place. -/
def Micro.request {α : Type} (m : Micro) (x : Flow α) (next : α → State → Micro) : Micro :=
  match x with
  | .goesOn a s => next a s
  | .raises k s => { m with st := s.raiseMid k (encode m.instr), phase := .idle }
  | .waits s => { m with st := m.st.setChan s.chan }

/-- The end of a command: `ST` moves, the command responds, `RN_IDLE` (R151). -/
def Micro.finished (m : Micro) (s : State) (q : Seq) : Micro :=
  { m with st := (s.setSt q).respondOk 0, phase := .idle }

/-- The command is an encode command: the kind of run (R151 "enc", "dec"). -/
def Micro.encodes (m : Micro) : Bool := decide (m.instr = .esym)

/-- `RN_NARROW` (R150). -/
def Micro.narrowStep (m : Micro) : Micro :=
  match m.st.narrowed with
  | none => { m with st := m.st.raise .precisionError (encode m.instr), phase := .idle }
  | some (nl, nh) => { m with st := m.st.setBounds nl nh, phase := .test }

/-- `RN_TEST` (R150, R151). -/
def Micro.testStep (m : Micro) : Micro :=
  if m.st.iv.e1 || m.st.iv.e2 then { m with phase := if m.encodes then .emit else .shift }
  else if m.st.iv.e3 then { m with phase := .under }
  else if m.encodes then
    m.finished m.st (if m.st.latch.sym = Config.eos then .encEos else .encReady)
  else m.finished m.st .decReady

/-- `RN_EMIT` (R150, R151): the bit is taken from `LOW[15]`. -/
def Micro.emitStep (m : Micro) : Micro :=
  m.request (m.st.emit (m.st.iv.low.getLsbD 15)) fun _ s =>
    { m with st := s, phase := if s.iv.pend = 0#32 then .shift else .follow }

/-- `RN_FOLLOW` (R150, R151): a complement bit, `PEND` counts down. -/
def Micro.followStep (m : Micro) : Micro :=
  m.request (m.st.emit (!m.st.iv.low.getLsbD 15)) fun _ s =>
    { m with
      st := s.setIv { s.iv with pend := s.iv.pend - 1#32 }
      phase := if s.iv.pend - 1#32 = 0#32 then .shift else .follow }

/-- `RN_SHIFT` (R150): the E1/E2 step; the decoder also reads a bit into `CODE`. -/
def Micro.shiftStep (m : Micro) : Micro :=
  if m.encodes then { m with st := m.st.setIv m.st.iv.shift, phase := .test }
  else
    m.request (m.st.setIv m.st.iv.shift).readBit fun b s =>
      { m with st := s.setIv (s.iv.shiftCode b), phase := .test }

/-- `RN_UNDER` (R150): the E3 step; the encoder counts a pending bit, the decoder reads one. -/
def Micro.underStep (m : Micro) : Micro :=
  if m.encodes then m.request m.st.deferBit fun _ s => { m with st := s, phase := .test }
  else
    m.request (m.st.setIv m.st.iv.widen).readBit fun b s =>
      { m with st := s.setIv (s.iv.widenCode b), phase := .test }

/-- `RN_FILL` (R150): one bit into `CODE`, W times. -/
def Micro.fillStep (m : Micro) : Micro :=
  m.request m.st.readBit fun b s =>
    if m.filled + 1 = Config.width then
      { m.finished (s.setIv (s.iv.shiftCode b)) .decReady with filled := m.filled + 1 }
    else { m with st := s.setIv (s.iv.shiftCode b), filled := m.filled + 1 }

/-- `RN_FIN1` (R150): latches `fb <- LOW[14]` and emits it. -/
def Micro.fin1Step (m : Micro) : Micro :=
  m.request (m.st.emit (m.st.iv.low.getLsbD 14)) fun _ s =>
    { m with st := s, fb := m.st.iv.low.getLsbD 14, phase := .fin2 }

/-- `RN_FIN2` (R150): the complement once. -/
def Micro.fin2Step (m : Micro) : Micro :=
  m.request (m.st.emit (!m.fb)) fun _ s =>
    { m with st := s, phase := if s.iv.pend = 0#32 then .flush else .fin3 }

/-- `RN_FIN3` (R150): the pending complements, `PEND` counts down. -/
def Micro.fin3Step (m : Micro) : Micro :=
  m.request (m.st.emit (!m.fb)) fun _ s =>
    { m with
      st := s.setIv { s.iv with pend := s.iv.pend - 1#32 }
      phase := if s.iv.pend - 1#32 = 0#32 then .flush else .fin3 }

/-- `RN_FLUSH` (R150). -/
def Micro.flushStep (m : Micro) : Micro := m.request m.st.flush fun _ s => m.finished s .done

/-- One micro-step (R150, R151); nothing happens in `RN_IDLE`. -/
def microStep (m : Micro) : Micro :=
  match m.phase with
  | .idle => m
  | .narrow => m.narrowStep
  | .test => m.testStep
  | .emit => m.emitStep
  | .follow => m.followStep
  | .shift => m.shiftStep
  | .under => m.underStep
  | .fill => m.fillStep
  | .fin1 => m.fin1Step
  | .fin2 => m.fin2Step
  | .fin3 => m.fin3Step
  | .flush => m.flushStep

/-- `n` micro-steps. -/
def microRun : Nat → Micro → Micro
  | 0, m => m
  | n + 1, m => microRun n (microStep m)

/-- The sequencer's transition out of `RN_IDLE` when a command is accepted (R151); none for a command
that it does not execute. -/
def accept (i : Instr) (s : State) : Option Micro :=
  match i with
  | .esym => some { st := s, instr := i, phase := .narrow, filled := 0, fb := false }
  | .dsym =>
    if s.latch.sym = Config.eos then
      some { st := (s.setSt .done).respondOk 0, instr := i, phase := .idle, filled := 0, fb := false }
    else some { st := s, instr := i, phase := .narrow, filled := 0, fb := false }
  | .dbegin => some { st := s.setIv .begin, instr := i, phase := .fill, filled := 0, fb := false }
  | .efinish => some { st := s.setSt .encFlush, instr := i, phase := .fin1, filled := 0, fb := false }
  | .nop => none
  | .reset => none
  | .minit _ => none
  | .ldcnt _ _ => none
  | .rdcnt _ => none
  | .getprob _ => none
  | .getsym => none
  | .update _ => none
  | .ebegin => none
  | .getcnt => none
  | .rdreg _ => none

end Sys2Proof.Machine
end

