-- ==== Sys2Proof/Safety.lean ====
section
/-! DEFINITION. What holds of the machine at every command boundary: the invariants of
`spec/10_state.md` rules R25 to R28, R30, R34, R36, R37, R40 and R44. -/

namespace Sys2Proof.Machine

/-- The model invariants (M-a), (M-b), (M-c) (R44), with `TOT` as the sum of all counts (R40). -/
def Model.sound (m : Model) : Prop :=
  (∀ i, i < Config.numSymbols → 1 ≤ (CountTable.read m.cnt i).toNat) ∧
    m.tot.toNat = CountTable.cum m.cnt Config.numSymbols ∧
    m.tot.toNat ≤ Config.ceiling ∧
    (m.mode = .adaptive → m.tot.toNat < Config.ceiling)

/-- A valid model is sound (R44), and `TOT` reads 0 while there is none (R40). -/
def State.ModelInv (s : State) : Prop :=
  (s.model.mvalid = true → s.model.sound) ∧ (s.model.mvalid = false → s.model.tot = 0#15)

/-- The count table is in its canonical form. -/
def State.TableInv (s : State) : Prop := CountTable.wf s.model.cnt = true

/-- The states of an encode run before `EFINISH` (R30). -/
def Seq.encoding (q : Seq) : Bool :=
  decide (q = .encReady) || decide (q = .encRange) || decide (q = .encEos)

/-- The states of a decode run (R30). -/
def Seq.decoding (q : Seq) : Bool :=
  decide (q = .decReady) || decide (q = .decCount) || decide (q = .decRange)

/-- (I-b) (R25): `LOW < HALF <= HIGH`, and `LOW < QTR` or `HIGH >= Q3`. -/
def Interval.settled (v : Interval) : Prop :=
  v.low.toNat < Config.half ∧ Config.half ≤ v.high.toNat ∧
    (v.low.toNat < Config.quarter ∨ Config.threeQuarters ≤ v.high.toNat)

/-- The interval invariants (I-a), (I-b), (I-d) (R25, R181); the registers that a kind of run does not
use (R23, R24, R34); the bound of `EOSCNT` (R34). -/
def State.IntervalInv (s : State) : Prop :=
  (s.st ≠ .idle → s.st ≠ .fault → s.iv.low.toNat ≤ s.iv.high.toNat) ∧
    (s.st.encoding = true → s.iv.settled ∧ s.iv.code = 0#16 ∧ s.iv.eoscnt = 0#4) ∧
    (s.st.decoding = true →
      s.iv.settled ∧ s.iv.low.toNat ≤ s.iv.code.toNat ∧ s.iv.code.toNat ≤ s.iv.high.toNat ∧
        s.iv.pend = 0#32) ∧
    (s.st ≠ .fault → s.iv.eoscnt.toNat ≤ Config.eosLimit)

/-- The latch invariants (R26, R27, R28). -/
def State.LatchInv (s : State) : Prop :=
  s.latch.sym.toNat ≤ 256 ∧
    (s.st = .decCount → s.latch.sv.toNat < s.model.tot.toNat) ∧
    (s.st = .encRange ∨ s.st = .decRange →
      s.latch.rl.toNat = s.cum s.latch.sym.toNat ∧
        s.latch.rh.toNat = s.cum (s.latch.sym.toNat + 1) ∧ s.latch.rt = s.model.tot) ∧
    (s.st = .decRange →
      s.latch.rl.toNat ≤ s.latch.sv.toNat ∧ s.latch.sv.toNat < s.latch.rh.toNat ∧
        s.latch.sv.toNat * (s.iv.high.toNat + 1 - s.iv.low.toNat) ≤
          (s.iv.code.toNat - s.iv.low.toNat + 1) * s.model.tot.toNat - 1 ∧
        (s.iv.code.toNat - s.iv.low.toNat + 1) * s.model.tot.toNat - 1 <
          (s.latch.sv.toNat + 1) * (s.iv.high.toNat + 1 - s.iv.low.toNat)) ∧
    (s.st = .decCount →
      s.latch.sv.toNat * (s.iv.high.toNat + 1 - s.iv.low.toNat) ≤
          (s.iv.code.toNat - s.iv.low.toNat + 1) * s.model.tot.toNat - 1 ∧
        (s.iv.code.toNat - s.iv.low.toNat + 1) * s.model.tot.toNat - 1 <
          (s.latch.sv.toNat + 1) * (s.iv.high.toNat + 1 - s.iv.low.toNat))

/-- `ST` is never `ENC_FLUSH` at a command boundary (R30), and a run has a valid model (R31). -/
def State.SeqInv (s : State) : Prop :=
  s.st ≠ .encFlush ∧ (s.st ≠ .idle → s.st ≠ .fault → s.model.mvalid = true)

/-- `FCAUSE`, `FCMD` and the flags tell the first fault since reset (R35, R36, R37), and a fault puts the
core in `FAULT` until a reset (R230, R234). -/
def State.FaultInv (s : State) : Prop :=
  (s.st = .fault ↔ s.faults.fcause ≠ 0#4) ∧
    (s.faults.fcause = 0#4 → s.faults = .zero) ∧ s.faults.fcause.toNat ≤ 5

/-- What holds at a command boundary. -/
def State.Boundary (s : State) : Prop :=
  s.TableInv ∧ s.ModelInv ∧ s.IntervalInv ∧ s.LatchInv ∧ s.SeqInv ∧ s.FaultInv

/-- The machine's invariant: at every command boundary (not while the core waits inside a command for an
answer) the state is sound; the table keeps its form always. -/
def State.Inv (s : State) : Prop := s.TableInv ∧ (s.chan.waiting = none → s.Boundary)

/-! ### What an answer and a fault leave, in the spec's own terms -/

/-- One response is given; no channel request is made (R90). -/
def State.answered (s t : State) (status : BitVec 4) (data : Word) : Prop :=
  t.chan = { s.chan with responses := s.chan.responses ++ [{ status := status, data := data }] }

/-- The fault registers after `raise K` of the word `w` (R230, R35 to R37): the flag of the kind set and
the others kept, the first fault recorded and a later one not. -/
def FaultRegs.afterRaise (f g : FaultRegs) (k : FaultKind) (w : Word) : Prop :=
  g.eIo = (f.eIo || decide (k = .ioError)) ∧
    g.eModel = (f.eModel || decide (k = .modelError)) ∧
    g.ePrec = (f.ePrec || decide (k = .precisionError)) ∧
    g.eCorrupt = (f.eCorrupt || decide (k = .corruptStreamError)) ∧
    g.eIll = (f.eIll || decide (k = .illegalCommand)) ∧
    g.fcause = (if f.fcause = 0#4 then k.code else f.fcause) ∧
    g.fcmd = (if f.fcause = 0#4 then w else f.fcmd)

/-- A fault before any change of the command (R230, R231): all other state is what it was, and no channel
event was made. -/
def State.faultedPre (s t : State) (k : FaultKind) (w : Word) : Prop :=
  t.iv = s.iv ∧ t.latch = s.latch ∧ t.model = s.model ∧ t.draws = s.draws ∧ t.st = .fault ∧
    s.faults.afterRaise t.faults k w ∧ s.answered t k.code 0#32

/-- A fault in mid-command (R230, R232): the interval registers are unspecified, all else but the channels
is what it was, and the response is the fault's. -/
def State.faultedMid (s t : State) (k : FaultKind) (w : Word) : Prop :=
  t.latch = s.latch ∧ t.model = s.model ∧ t.st = .fault ∧ s.faults.afterRaise t.faults k w ∧
    t.chan.responses = s.chan.responses ++ [{ status := k.code, data := 0#32 }] ∧
    t.chan.inputs = s.chan.inputs ∧ t.chan.waiting = s.chan.waiting

/-- The bit-out events of a whole `EFINISH`, in order (R146): the second-highest bit of `LOW`, `PEND + 1`
complements, the flush request. -/
def State.finishEvents (s : State) : List OutEvent :=
  .emit (s.iv.low.getLsbD 14) ::
    (List.replicate (s.iv.pend.toNat + 1) (.emit (!s.iv.low.getLsbD 14)) ++ [.flush])

/-! ### The amount of work of a command (R73, R148, R154) -/

/-- The number of renormalization steps from these bounds, at most `n` (R143, R173, R154). -/
def Interval.steps : Nat → Interval → Nat
  | 0, _ => 0
  | n + 1, v =>
    if v.e1 || v.e2 then Interval.steps n v.shift + 1
    else if v.e3 then Interval.steps n v.widen + 1
    else 0

/-- The bits that the encoder emits in these steps, in order (R143): each E1/E2 step its own bit and the
pending complements, each E3 step none. -/
def Interval.emitted : Nat → Interval → List Bool
  | 0, _ => []
  | n + 1, v =>
    if v.e1 || v.e2 then
      (v.low.getLsbD 15 :: List.replicate v.pend.toNat (!v.low.getLsbD 15)) ++
        Interval.emitted n { v.shift with pend := 0#32 }
    else if v.e3 then Interval.emitted n { v.widen with pend := v.pend + 1#32 }
    else []

/-- The number of E3 steps before the first E1/E2 step (R143): by so many `PEND` grows before it is emitted
and cleared. -/
def Interval.deferred : Nat → Interval → Nat
  | 0, _ => 0
  | n + 1, v =>
    if v.e1 || v.e2 then 0 else if v.e3 then Interval.deferred n v.widen + 1 else 0

/-- `ReadBit` takes the answer `a` as the bit `b` and leaves `e` in `EOSCNT`, which held `n` (R72). -/
def SourceAnswer.takenAs (a : SourceAnswer) (n : BitVec 4) (b : Bool) (e : BitVec 4) : Prop :=
  (a = .bit b ∧ e = n) ∨
    (a = .endOfStream ∧ b = false ∧ n.toNat < Config.eosLimit ∧ e.toNat = n.toNat + 1)

/-- Answers that `ReadBit` takes one after another from `EOSCNT = n` on, without a fault (R72). -/
def allTaken (n : BitVec 4) (as : List SourceAnswer) : Prop :=
  SourceAnswer.fail ∉ as ∧
    (as.count .endOfStream = 0 ∨ n.toNat + as.count .endOfStream ≤ Config.eosLimit)

/-- A fault in mid-command that a `ReadBit` met (R223, R227, R232): the bits answered before are consumed,
`rest` are the answers not asked for, nothing was sent to the sink. -/
def State.readFaulted (s t : State) (k : FaultKind) (w : Word) (rest : List SourceAnswer) : Prop :=
  s.faultedMid t k w ∧ t.chan.sourceAnswers = rest ∧ t.chan.events = s.chan.events ∧
    t.chan.sinkAnswers = s.chan.sinkAnswers

/-- A core that waits for the source inside a command, which has no response yet (R70, R72, log 4). -/
def State.readWaits (s t : State) : Prop :=
  t.chan = { s.chan with sourceAnswers := [], waiting := some .readBit } ∧ t.latch = s.latch ∧
    t.model = s.model ∧ t.faults = s.faults ∧ t.draws = s.draws

/-- Every register has its reset value (R47); the count table is unspecified. -/
def State.isReset (t : State) : Prop :=
  t.iv.low = 0#16 ∧ t.iv.high = 0#16 ∧ t.iv.code = 0#16 ∧ t.iv.pend = 0#32 ∧ t.iv.eoscnt = 0#4 ∧
    t.latch.rl = 0#15 ∧ t.latch.rh = 0#15 ∧ t.latch.rt = 0#15 ∧ t.latch.sv = 0#15 ∧
    t.latch.sym = 0#9 ∧ t.model.tot = 0#15 ∧ t.model.mode = .adaptive ∧ t.model.mvalid = false ∧
    t.st = .idle ∧ t.faults.eIo = false ∧ t.faults.eModel = false ∧ t.faults.ePrec = false ∧
    t.faults.eCorrupt = false ∧ t.faults.eIll = false ∧ t.faults.fcause = 0#4 ∧ t.faults.fcmd = 0#32

end Sys2Proof.Machine
end

