-- ==== Sys2Proof/Certificates/Slice0/Obligations.lean ====
section
/-! DEFINITION. The statements for the provers, each one a rule or a law of `spec/`; the docstring names
the rule. -/

open Sys2Proof Sys2Proof.Machine

/-! ### Encoding (`spec/30_encoding.md`) -/

/-- R82 to R89: the decoder gives back every well-formed command from its word, at every operand; and a
word that decodes is the word of the well-formed command it decodes to, so each word has one meaning. -/
def Obligations.DecodeOfEncode : Prop :=
  (∀ i : Instr, i.wellFormed = true → decode (encode i) = .instr i) ∧
    ∀ (w : Word) (i : Instr), decode w = .instr i → i.wellFormed = true ∧ encode i = w

/-- R88: a word selects a row exactly when `(w & mask) = match` and the operand constraint holds, and a
word that satisfies no row raises `IllegalCommand`. -/
def Obligations.OpcodeMapSelectsRow : Prop :=
  ∀ w : Word,
    (decode w = .instr .nop ↔ w &&& 0xFFFFFFFF#32 = 0x00000000#32) ∧
    (decode w = .instr .reset ↔ w &&& 0xFFFFFFFF#32 = 0x10000000#32) ∧
    (∀ m : Mode, decode w = .instr (.minit m) ↔
      w &&& 0xFFFFFFFE#32 = 0x20000000#32 ∧ w.extractLsb' 0 1 = m.bit) ∧
    (∀ (s : Symbol) (v : Count), decode w = .instr (.ldcnt s v) ↔
      w &&& 0xFF000000#32 = 0x30000000#32 ∧ w.extractLsb' 0 9 = s ∧ w.extractLsb' 9 15 = v ∧
        s.toNat ≤ 256) ∧
    (∀ s : Symbol, decode w = .instr (.rdcnt s) ↔
      w &&& 0xFFFFFE00#32 = 0x40000000#32 ∧ w.extractLsb' 0 9 = s ∧ s.toNat ≤ 256) ∧
    (∀ s : Symbol, decode w = .instr (.getprob s) ↔
      w &&& 0xFFFFFE00#32 = 0x50000000#32 ∧ w.extractLsb' 0 9 = s ∧ s.toNat ≤ 256) ∧
    (decode w = .instr .getsym ↔ w &&& 0xFFFFFFFF#32 = 0x60000000#32) ∧
    (∀ s : Symbol, decode w = .instr (.update s) ↔
      w &&& 0xFFFFFE00#32 = 0x70000000#32 ∧ w.extractLsb' 0 9 = s ∧ s.toNat ≤ 256) ∧
    (decode w = .instr .ebegin ↔ w &&& 0xFFFFFFFF#32 = 0x80000000#32) ∧
    (decode w = .instr .esym ↔ w &&& 0xFFFFFFFF#32 = 0x90000000#32) ∧
    (decode w = .instr .efinish ↔ w &&& 0xFFFFFFFF#32 = 0xA0000000#32) ∧
    (decode w = .instr .dbegin ↔ w &&& 0xFFFFFFFF#32 = 0xB0000000#32) ∧
    (decode w = .instr .getcnt ↔ w &&& 0xFFFFFFFF#32 = 0xC0000000#32) ∧
    (decode w = .instr .dsym ↔ w &&& 0xFFFFFFFF#32 = 0xD0000000#32) ∧
    (∀ r : RegNo, decode w = .instr (.rdreg r) ↔
      w &&& 0xFFFFFFE0#32 = 0xE0000000#32 ∧ w.extractLsb' 0 5 = r ∧ r.toNat ≤ 14) ∧
    ((∀ i : Instr, decode w ≠ .instr i) →
      ∀ s : State, ∃ t, runWord w s = .next t ∧ s.faultedPre t .illegalCommand w)

/-- R93: the illegal words are the reserved opcode, the nonzero `zero` fields, the symbol fields 257..511
and the register fields 15..31, and each raises `IllegalCommand` in any state; every count decodes, and one
that the model cannot take raises `ModelError`. -/
def Obligations.IllegalWordsFault : Prop :=
  (∀ w : Word,
    (∃ why, decode w = .illegal why) ↔
      ((w.extractLsb' 28 4).toNat = 0xF ∨
        ((w.extractLsb' 28 4).toNat ∈ [0x0, 0x1, 0x6, 0x8, 0x9, 0xA, 0xB, 0xC, 0xD] ∧
          w.extractLsb' 0 28 ≠ 0#28) ∨
        ((w.extractLsb' 28 4).toNat = 0x2 ∧ w.extractLsb' 1 27 ≠ 0#27) ∨
        ((w.extractLsb' 28 4).toNat = 0x3 ∧
          (w.extractLsb' 24 4 ≠ 0#4 ∨ 256 < (w.extractLsb' 0 9).toNat)) ∨
        ((w.extractLsb' 28 4).toNat ∈ [0x4, 0x5, 0x7] ∧
          (w.extractLsb' 9 19 ≠ 0#19 ∨ 256 < (w.extractLsb' 0 9).toNat)) ∨
        ((w.extractLsb' 28 4).toNat = 0xE ∧
          (w.extractLsb' 5 23 ≠ 0#23 ∨ 14 < (w.extractLsb' 0 5).toNat)))) ∧
  (∀ (w : Word) (s : State) (rest : List HostInput), (∃ why, decode w = .illegal why) →
    s.chan.inputs = .command w :: rest → s.chan.waiting = none →
      ∃ t, step s = .next t ∧ (s.setInputs rest).faultedPre t .illegalCommand w) ∧
  (∀ (s : Symbol) (v : Count), s.toNat ≤ 256 → decode (encode (.ldcnt s v)) = .instr (.ldcnt s v)) ∧
  (∀ (x : Symbol) (v : Count) (s : State), x.toNat ≤ 256 → s.st = .idle → s.model.mvalid = true →
    s.model.mode = .static → v = 0#15 ∨ 16384 < v.toNat →
      ∃ t, runWord (encode (.ldcnt x v)) s = .next t ∧
        s.faultedPre t .modelError (encode (.ldcnt x v)))

/-- R98: the worked encodings of the spec, legal and illegal. -/
def Obligations.WorkedEncodings : Prop :=
  decode 0x00000000#32 = .instr .nop ∧ decode 0x10000000#32 = .instr .reset ∧
    decode 0x20000000#32 = .instr (.minit .adaptive) ∧
    decode 0x20000001#32 = .instr (.minit .static) ∧
    decode 0x30019041#32 = .instr (.ldcnt 65#9 200#15) ∧
    decode 0x40000100#32 = .instr (.rdcnt 256#9) ∧
    decode 0x50000041#32 = .instr (.getprob 0x41#9) ∧
    decode 0x50000100#32 = .instr (.getprob 256#9) ∧ decode 0x60000000#32 = .instr .getsym ∧
    decode 0x70000042#32 = .instr (.update 0x42#9) ∧ decode 0x80000000#32 = .instr .ebegin ∧
    decode 0x90000000#32 = .instr .esym ∧ decode 0xA0000000#32 = .instr .efinish ∧
    decode 0xB0000000#32 = .instr .dbegin ∧ decode 0xC0000000#32 = .instr .getcnt ∧
    decode 0xD0000000#32 = .instr .dsym ∧ decode 0xE0000001#32 = .instr (.rdreg 1#5) ∧
    decode 0xE000000E#32 = .instr (.rdreg 14#5) ∧
    decode 0xF0000000#32 = .illegal .reservedOpcode ∧
    decode 0x00000001#32 = .illegal .reservedBits ∧ decode 0x50000101#32 = .illegal .symbolRange ∧
    decode 0xE000000F#32 = .illegal .registerRange ∧ decode 0x31000000#32 = .illegal .reservedBits

/-! ### Steps, the host's actions, reset (`spec/70_reset_and_hazards.md`) -/

/-- R8, R90: when the host sends the word of a command and the core is ready for it, the step is that
command's meaning; nothing happens around it but that the word is taken. -/
def Obligations.StepRunsDecodedCommand : Prop :=
  ∀ (s : State) (w : Word) (i : Instr) (rest : List HostInput),
    s.chan.inputs = .command w :: rest → s.chan.waiting = none → decode w = .instr i →
      step s = exec i { s with chan := { s.chan with inputs := rest } }

/-- R252, R70, R90: without an action of the host the core does nothing; while it waits inside a command,
no action but the hardware reset is taken. The wait as a state is the model's choice (log 4). -/
def Obligations.StepWaits : Prop :=
  ∀ s : State,
    (s.chan.inputs = [] → step s = .next s) ∧
    (∀ (x : HostInput) (rest : List HostInput), s.chan.inputs = x :: rest →
      (∀ a b, x ≠ .hardwareReset a b) → s.chan.waiting ≠ none → step s = .next s)

/-- R12: every command word is one of the commands or raises `IllegalCommand`, in every state; every
command and every step has an outcome, which is a next state. That a command which waits for ever is a
next state is the model's choice (log 4). -/
def Obligations.EveryWordHasAnOutcome : Prop :=
  (∀ (w : Word) (s : State),
    (∃ i : Instr, i.wellFormed = true ∧ decode w = .instr i ∧ runWord w s = exec i s) ∨
      ∃ t, runWord w s = .next t ∧ s.faultedPre t .illegalCommand w) ∧
  (∀ (i : Instr) (s : State), ∃ t, exec i s = .next t) ∧ ∀ s : State, ∃ t, step s = .next t

/-- R90, R9: a command that the core completes gives exactly one response, a command that waits for a
collaborator gives none. If the host never takes the response, the core waits with the effect complete and
that response offered. The waits as states are the model's choice (log 4). -/
def Obligations.OneResponsePerCommand : Prop :=
  (∀ (i : Instr) (s t : State), s.chan.waiting = none → exec i s = .next t →
    t.chan.inputs = s.chan.inputs ∧
      ((t.chan.waiting = none ∧ ∃ r, t.chan.responses = s.chan.responses ++ [r]) ∨
        (t.chan.waiting ≠ none ∧ t.chan.responses = s.chan.responses))) ∧
  ∀ (w : Word) (s t : State) (rest : List HostInput), s.chan.inputs = .untaken w :: rest →
    s.chan.waiting = none → runWord w (s.setInputs rest) = .next t →
    (t.chan.waiting ≠ none → step s = .next t) ∧
      (t.chan.waiting = none → ∃ r, t.chan.responses = s.chan.responses ++ [r] ∧
        step s = .next
          { t with
            chan := { t.chan with
              responses := s.chan.responses
              waiting := some (.response r) } })

/-- R47: every register's value after power-on, after any hardware reset and after any `RESET` command (the
count table is unspecified there, and nothing is said of it). -/
def Obligations.ResetValues : Prop :=
  State.reset.isReset ∧
    (∀ (s : State) (a : List SinkAnswer) (b : List SourceAnswer), (s.hardwareReset a b).isReset) ∧
    ∀ s : State, ∃ t, exec .reset s = .next t ∧ t.isReset

/-- R250, R251: the hardware reset gives every register its reset value at any time, also while the core
waits inside a command; it gives no response, keeps the events made, and a request that was waiting is
withdrawn, whether or not the sink acted on it. At the level of micro-steps it does so in every phase of
every command, and the hidden phase is then `RN_IDLE`, as after power-on, where no micro-step follows. The
phase beside the state is the model's form (log 10). Whether the sink acted is free (log 6). That the sink's and the
source's answers become `a` and `b`, those that the reset action carries for the re-opened collaborators,
is the model's choice (log 7), and the wait as a state is too (log 4). -/
def Obligations.HardwareResetAtAnyTime : Prop :=
  (∀ (s : State) (a : List SinkAnswer) (b : List SourceAnswer) (rest : List HostInput),
    s.chan.inputs = .hardwareReset a b :: rest →
      ∃ t, step s = .next t ∧ t.isReset ∧ t.chan.responses = s.chan.responses ∧
        t.chan.inputs = rest ∧ t.chan.waiting = none ∧ t.chan.sinkAnswers = a ∧
        t.chan.sourceAnswers = b ∧
        (t.chan.events = s.chan.events ∨
          ∃ e, s.chan.waiting = some (.out e) ∧ t.chan.events = s.chan.events ++ [e])) ∧
  (∀ (m : Micro) (a : List SinkAnswer) (b : List SourceAnswer),
    ∃ u : Micro, m.hardwareReset a b = u ∧ u.phase = .idle ∧ u.st.isReset ∧
      u.st.chan.responses = m.st.chan.responses ∧ u.st.chan.inputs = m.st.chan.inputs ∧
      u.st.chan.waiting = none ∧ u.st.chan.sinkAnswers = a ∧ u.st.chan.sourceAnswers = b ∧
      (u.st.chan.events = m.st.chan.events ∨
        ∃ e, m.st.chan.waiting = some (.out e) ∧ u.st.chan.events = m.st.chan.events ++ [e]) ∧
      ∀ n, microRun n u = u) ∧
  Micro.reset.phase = .idle ∧ Micro.reset.st = State.reset

/-- R251: a command that the hardware reset abandons gets no response and leaves the reset state; the
channel events it had made stay made. The host's action is the model's form (log 7), the wait as a state
too (log 4), and whether the sink acted on a request that waited is free (log 6). -/
def Obligations.AbandonedCommand : Prop :=
  ∀ (s r : State) (w : Word) (a : List SinkAnswer) (b : List SourceAnswer) (rest : List HostInput),
    s.chan.inputs = .abandoned w a b :: rest → s.chan.waiting = none →
      runWord w (s.setInputs rest) = .next r →
      ∃ t, step s = .next t ∧ t.isReset ∧ t.chan.responses = s.chan.responses ∧
        t.chan.inputs = rest ∧ t.chan.waiting = none ∧
        (t.chan.events = r.chan.events ∨
          ∃ e, r.chan.waiting = some (.out e) ∧ t.chan.events = r.chan.events ++ [e])

/-! ### Legality and faults (`spec/10_state.md` rule R31, `spec/60_exceptions.md`) -/

/-- R31: in which state each command is legal, and the state each leaves after success. -/
def Obligations.LegalityTable : Prop :=
  ∀ s : State,
    s.legal .nop = true ∧ s.legal .reset = true ∧
    (∀ r, exec (.rdreg r) s = .next (s.raise .illegalCommand (encode (.rdreg r))) ∨ r.toNat ≤ 14) ∧
    (∀ r, s.legal (.rdreg r) = true) ∧
    (∀ x, s.legal (.rdcnt x) = true ↔ s.model.mvalid = true) ∧
    (∀ m, s.legal (.minit m) = true ↔ s.st = .idle ∨ s.st = .done) ∧
    (∀ x v, s.legal (.ldcnt x v) = true ↔
      s.st = .idle ∧ s.model.mvalid = true ∧ s.model.mode = .static) ∧
    (s.legal .ebegin = true ↔ s.st = .idle ∧ s.model.mvalid = true) ∧
    (∀ x, s.legal (.getprob x) = true ↔ s.st = .encReady) ∧
    (s.legal .esym = true ↔ s.st = .encRange) ∧
    (s.legal .efinish = true ↔ s.st = .encEos) ∧
    (s.legal .dbegin = true ↔ s.st = .idle ∧ s.model.mvalid = true) ∧
    (s.legal .getcnt = true ↔ s.st = .decReady) ∧
    (s.legal .getsym = true ↔ s.st = .decCount) ∧
    (s.legal .dsym = true ↔ s.st = .decRange) ∧
    (∀ x, s.legal (.update x) = true ↔
      (s.st = .encReady ∨ s.st = .decReady) ∧ s.model.mode = .adaptive) ∧
    (∀ (i : Instr) (t : State), i.wellFormed = true → s.legal i = true → s.chan.waiting = none →
      exec i s = .next t → t.chan.waiting = none →
      (∃ d, t.chan.responses = s.chan.responses ++ [{ status := 0#4, data := d }]) →
        t.st =
          match i with
          | .nop => s.st
          | .reset => .idle
          | .rdreg _ => s.st
          | .rdcnt _ => s.st
          | .minit _ => .idle
          | .ldcnt _ _ => .idle
          | .ebegin => .encReady
          | .getprob _ => .encRange
          | .esym => if s.latch.sym = 256#9 then .encEos else .encReady
          | .efinish => .done
          | .dbegin => .decReady
          | .getcnt => .decCount
          | .getsym => .decRange
          | .dsym => if s.latch.sym = 256#9 then .done else .decReady
          | .update _ => s.st) ∧
    (∀ (i : Instr) (w : Word), s.legal i = false → decode w = .instr i →
      ∃ t, runWord w s = .next t ∧ s.faultedPre t .illegalCommand w) ∧
    ∀ (k : FaultKind) (w : Word), (s.raise k w).st = .fault ∧ (s.raiseMid k w).st = .fault

/-- R225, R231: a command whose operand is out of range or that is not legal in the current state raises
`IllegalCommand`, with all other state unchanged. `FCMD` for a command that no word encodes is the
model's choice (log 11). -/
def Obligations.IllegalCommandRaised : Prop :=
  ∀ (i : Instr) (s : State), (i.wellFormed = false ∨ s.legal i = false) →
    ∃ t, exec i s = .next t ∧ s.faultedPre t .illegalCommand (encode i)

/-- R230: what raising a fault does, before an effect and in mid-command; the fault pin follows `ST`. -/
def Obligations.RaiseRecordsFault : Prop :=
  ∀ (s : State) (k : FaultKind) (w : Word),
    s.faultedPre (s.raise k w) k w ∧ s.faultedMid (s.raiseMid k w) k w ∧
      (s.raiseMid k w).chan = (s.raise k w).chan ∧ (s.raise k w).faultPin = true ∧
      (s.raiseMid k w).faultPin = true ∧ (s.faultPin = true ↔ s.st = .fault)

/-- R231, R232: a command that ends in `FAULT` leaves the model and the latches as they were; one that
makes no channel request also leaves the interval registers and the channel events. -/
def Obligations.FaultKeepsModelAndLatches : Prop :=
  ∀ (i : Instr) (s t : State), exec i s = .next t → t.st = .fault →
    t.latch = s.latch ∧ t.model = s.model ∧
      (i ≠ .esym → i ≠ .efinish → i ≠ .dbegin → i ≠ .dsym →
        t.iv = s.iv ∧ t.chan.events = s.chan.events ∧ t.chan.sinkAnswers = s.chan.sinkAnswers ∧
          t.chan.sourceAnswers = s.chan.sourceAnswers)

/-- R233: what each command does while `ST = FAULT` after a first fault. -/
def Obligations.FaultStateAnswers : Prop :=
  ∀ (s : State) (rest : List HostInput), s.st = .fault → s.faults.fcause ≠ 0#4 →
    s.chan.waiting = none →
    (∃ t, exec .nop s = .next t ∧ t.st = .fault ∧ s.answered t 0#4 0#32) ∧
    (∀ r : RegNo, r.toNat ≤ 14 → ∃ t d, s.readReg r = some d ∧ exec (.rdreg r) s = .next t ∧
      t.st = .fault ∧ s.answered t 0#4 d) ∧
    (∀ x : Symbol, x.toNat ≤ 256 → s.model.mvalid = true → ∃ t, exec (.rdcnt x) s = .next t ∧
      t.st = .fault ∧ s.answered t 0#4 ((CountTable.read s.model.cnt x.toNat).setWidth 32)) ∧
    (∃ t, exec .reset s = .next t ∧ t.st = .idle ∧ s.answered t 0#4 0#32) ∧
    (∀ w : Word, s.chan.inputs = .command w :: rest →
      decode w ≠ .instr .nop → decode w ≠ .instr .reset → (∀ r, decode w ≠ .instr (.rdreg r)) →
      (∀ x, decode w = .instr (.rdcnt x) → s.model.mvalid = false) →
      ∃ t, step s = .next t ∧ t.st = .fault ∧ t.faults.eIll = true ∧
        t.faults.fcause = s.faults.fcause ∧ t.faults.fcmd = s.faults.fcmd ∧
        (s.setInputs rest).answered t 5#4 0#32)

/-- R35, R36, R37: a sticky flag is cleared by a reset only, and later faults change neither `FCAUSE` nor
`FCMD`. -/
def Obligations.FaultRecordIsSticky : Prop :=
  ∀ (i : Instr) (s t : State), i ≠ .reset → exec i s = .next t →
    (s.faults.eIo = true → t.faults.eIo = true) ∧
    (s.faults.eModel = true → t.faults.eModel = true) ∧
    (s.faults.ePrec = true → t.faults.ePrec = true) ∧
    (s.faults.eCorrupt = true → t.faults.eCorrupt = true) ∧
    (s.faults.eIll = true → t.faults.eIll = true) ∧
    (s.faults.fcause ≠ 0#4 →
      t.faults.fcause = s.faults.fcause ∧ t.faults.fcmd = s.faults.fcmd)

/-- R234: no command but `RESET` leaves the fault state. -/
def Obligations.OnlyResetLeavesFault : Prop :=
  ∀ (i : Instr) (s t : State), i ≠ .reset → s.st = .fault → exec i s = .next t → t.st = .fault

/-- R123, R226, R227, R223: which commands can raise which kind; a flag rises only in these. In states
no run reaches this covers the model's choice of log 8 too. -/
def Obligations.FaultKindSources : Prop :=
  ∀ (i : Instr) (s t : State), exec i s = .next t →
    (t.faults.eModel = true → s.faults.eModel = false →
      (∃ x v, i = .ldcnt x v) ∨ ∃ x, i = .getprob x) ∧
    (t.faults.ePrec = true → s.faults.ePrec = false → i = .esym ∨ i = .dsym) ∧
    (t.faults.eCorrupt = true → s.faults.eCorrupt = false →
      i = .getcnt ∨ i = .getsym ∨ i = .dbegin ∨ i = .dsym) ∧
    (t.faults.eIo = true → s.faults.eIo = false →
      i = .esym ∨ i = .efinish ∨ i = .dbegin ∨ i = .dsym)

/-! ### System commands (`spec/43_system.md`) -/

/-- R200: `NOP` changes nothing in any state and is answered `(OK, 0)`. -/
def Obligations.NopChangesNothing : Prop :=
  ∀ s : State, ∃ t, exec .nop s = .next t ∧ t.iv = s.iv ∧ t.latch = s.latch ∧ t.model = s.model ∧
    t.st = s.st ∧ t.faults = s.faults ∧ t.draws = s.draws ∧ s.answered t 0#4 0#32

/-- R201: `RESET` gives every register its reset value in any state, is answered `(OK, 0)` and makes no
channel event. -/
def Obligations.ResetCommand : Prop :=
  ∀ s : State, ∃ t, exec .reset s = .next t ∧ t.isReset ∧ s.answered t 0#4 0#32

/-- R202, R42: `RDREG r` answers register `r` of the map, zero-extended, and changes nothing; a number of
15 or more raises `IllegalCommand`. -/
def Obligations.RdregReadsTheMap : Prop :=
  ∀ (s : State) (r : RegNo),
    (∀ x : Word,
      [0x41431001#32, s.statusWord, s.iv.low.setWidth 32, s.iv.high.setWidth 32,
        s.iv.code.setWidth 32, s.iv.pend, s.latch.rl.setWidth 32, s.latch.rh.setWidth 32,
        s.latch.rt.setWidth 32, s.latch.sv.setWidth 32, s.latch.sym.setWidth 32,
        s.model.tot.setWidth 32, 0x00004000#32, s.faults.fcause.setWidth 32, s.faults.fcmd][r.toNat]? =
          some x →
      ∃ t, exec (.rdreg r) s = .next t ∧ t.iv = s.iv ∧ t.latch = s.latch ∧ t.model = s.model ∧
        t.st = s.st ∧ t.faults = s.faults ∧ t.draws = s.draws ∧ s.answered t 0#4 x) ∧
    (15 ≤ r.toNat → ∃ t, exec (.rdreg r) s = .next t ∧
      s.faultedPre t .illegalCommand (encode (.rdreg r)))

/-- R41, R30: the fields of the `STATUS` word, and its reserved bits. -/
def Obligations.StatusWordFields : Prop :=
  ∀ s : State,
    (s.statusWord.extractLsb' 0 4).toNat =
        (match s.st with
          | .idle => 0
          | .encReady => 1
          | .encRange => 2
          | .encEos => 3
          | .encFlush => 4
          | .done => 5
          | .decReady => 6
          | .decCount => 7
          | .decRange => 8
          | .fault => 15) ∧
      s.statusWord.getLsbD 4 = decide (s.model.mode = .static) ∧
      s.statusWord.getLsbD 5 = s.model.mvalid ∧
      s.statusWord.extractLsb' 6 2 = 0#2 ∧
      s.statusWord.extractLsb' 8 4 = s.iv.eoscnt ∧
      s.statusWord.extractLsb' 12 4 = 0#4 ∧
      s.statusWord.getLsbD 16 = s.faults.eIo ∧
      s.statusWord.getLsbD 17 = s.faults.eModel ∧
      s.statusWord.getLsbD 18 = s.faults.ePrec ∧
      s.statusWord.getLsbD 19 = s.faults.eCorrupt ∧
      s.statusWord.getLsbD 20 = s.faults.eIll ∧
      s.statusWord.extractLsb' 21 11 = 0#11

/-! ### The probability model (`spec/40_model.md`) -/

/-- R110: `MINIT m` in `IDLE` or `DONE` writes 1 to every count and touches no other unit; elsewhere it is
illegal. -/
def Obligations.MinitBuildsUniformModel : Prop :=
  ∀ (m : Mode) (s : State),
    (s.st = .idle ∨ s.st = .done →
    ∃ t, exec (.minit m) s = .next t ∧
      (∀ k, k ≤ 256 → CountTable.read t.model.cnt k = 1#15) ∧ t.model.tot = 257#15 ∧
      t.model.mode = m ∧ t.model.mvalid = true ∧ t.st = .idle ∧ t.iv = s.iv ∧ t.latch = s.latch ∧
      t.faults = s.faults ∧ t.draws = s.draws ∧ s.answered t 0#4 0#32) ∧
    (¬(s.st = .idle ∨ s.st = .done) →
      ∃ t, exec (.minit m) s = .next t ∧ s.faultedPre t .illegalCommand (encode (.minit m)))

/-- R112: `LDCNT s, v`, its effect on a sound model, the three values it refuses, and where it is illegal. -/
def Obligations.LdcntLoadsOrRefuses : Prop :=
  ∀ (x : Symbol) (v : Count) (s : State),
    (x.toNat ≤ 256 → s.st = .idle → s.model.mvalid = true → s.model.mode = .static →
      s.model.sound → 1 ≤ v.toNat → v.toNat ≤ 16384 →
      s.model.tot.toNat + v.toNat - (CountTable.read s.model.cnt x.toNat).toNat ≤ 16384 →
      ∃ t, exec (.ldcnt x v) s = .next t ∧ CountTable.read t.model.cnt x.toNat = v ∧
        (∀ k, k ≠ x.toNat → CountTable.read t.model.cnt k = CountTable.read s.model.cnt k) ∧
        t.model.tot.toNat =
          s.model.tot.toNat + v.toNat - (CountTable.read s.model.cnt x.toNat).toNat ∧
        t.model.mode = s.model.mode ∧ t.model.mvalid = true ∧ t.st = .idle ∧ t.iv = s.iv ∧
        t.latch = s.latch ∧ t.faults = s.faults ∧ t.draws = s.draws ∧
        s.answered t 0#4 (t.model.tot.setWidth 32)) ∧
    (x.toNat ≤ 256 → s.st = .idle → s.model.mvalid = true → s.model.mode = .static →
      v.toNat = 0 ∨ 16384 < v.toNat ∨
        16384 < s.model.tot.toNat + v.toNat - (CountTable.read s.model.cnt x.toNat).toNat →
      ∃ t, exec (.ldcnt x v) s = .next t ∧ s.faultedPre t .modelError (encode (.ldcnt x v))) ∧
    (¬(x.toNat ≤ 256 ∧ s.st = .idle ∧ s.model.mvalid = true ∧ s.model.mode = .static) →
      ∃ t, exec (.ldcnt x v) s = .next t ∧ s.faultedPre t .illegalCommand (encode (.ldcnt x v)))

/-- R113: `RDCNT s` answers the count in every state with a valid model and changes nothing; without one
it is illegal. -/
def Obligations.RdcntReadsCount : Prop :=
  ∀ (x : Symbol) (s : State),
    (x.toNat ≤ 256 → s.model.mvalid = true →
    ∃ t, exec (.rdcnt x) s = .next t ∧ t.iv = s.iv ∧ t.latch = s.latch ∧ t.model = s.model ∧
      t.st = s.st ∧ t.faults = s.faults ∧ t.draws = s.draws ∧
      s.answered t 0#4 ((CountTable.read s.model.cnt x.toNat).setWidth 32)) ∧
    (¬(x.toNat ≤ 256 ∧ s.model.mvalid = true) →
      ∃ t, exec (.rdcnt x) s = .next t ∧ s.faultedPre t .illegalCommand (encode (.rdcnt x)))

/-- R114: `GETPROB s` latches the symbol's range in a sound model, with the properties of the result; a
total above the ceiling is a `ModelError`, and elsewhere than in `ENC_READY` it is illegal. -/
def Obligations.GetprobLatchesRange : Prop :=
  ∀ (x : Symbol) (s : State),
    (x.toNat ≤ 256 → s.st = .encReady → s.model.sound →
      ∃ t, exec (.getprob x) s = .next t ∧
        t.latch.rl.toNat = CountTable.cum s.model.cnt x.toNat ∧
        t.latch.rh.toNat =
          CountTable.cum s.model.cnt x.toNat + (CountTable.read s.model.cnt x.toNat).toNat ∧
        t.latch.rt = s.model.tot ∧ t.latch.sym = x ∧ t.latch.sv = s.latch.sv ∧
        t.latch.rl.toNat < t.latch.rh.toNat ∧ t.latch.rh.toNat ≤ t.latch.rt.toNat ∧
        257 ≤ t.latch.rt.toNat ∧ t.latch.rt.toNat ≤ 16384 ∧ t.st = .encRange ∧
        t.model = s.model ∧ t.iv = s.iv ∧ t.faults = s.faults ∧ t.draws = s.draws ∧
        s.answered t 0#4 0#32) ∧
    (x.toNat ≤ 256 → s.st = .encReady → 16384 < s.model.tot.toNat →
      ∃ t, exec (.getprob x) s = .next t ∧ s.faultedPre t .modelError (encode (.getprob x))) ∧
    (¬(x.toNat ≤ 256 ∧ s.st = .encReady) →
      ∃ t, exec (.getprob x) s = .next t ∧ s.faultedPre t .illegalCommand (encode (.getprob x)))

/-- R115: `GETSYM` finds the symbol whose range holds `SV` in a sound model and latches its range; an `SV`
not below the total is a `CorruptStreamError`, and elsewhere than in `DEC_COUNT` it is illegal. -/
def Obligations.GetsymFindsSymbol : Prop :=
  ∀ s : State,
    (s.st = .decCount → s.model.sound → s.latch.sv.toNat < s.model.tot.toNat →
      ∃ t k, exec .getsym s = .next t ∧ k ≤ 256 ∧
        CountTable.cum s.model.cnt k ≤ s.latch.sv.toNat ∧
        s.latch.sv.toNat < CountTable.cum s.model.cnt (k + 1) ∧
        t.latch.sym.toNat = k ∧ t.latch.rl.toNat = CountTable.cum s.model.cnt k ∧
        t.latch.rh.toNat = CountTable.cum s.model.cnt (k + 1) ∧ t.latch.rt = s.model.tot ∧
        t.latch.sv = s.latch.sv ∧ t.st = .decRange ∧ t.model = s.model ∧ t.iv = s.iv ∧
        t.faults = s.faults ∧ t.draws = s.draws ∧
        s.answered t 0#4 (t.latch.sym.setWidth 32)) ∧
    (s.st = .decCount → s.model.tot.toNat ≤ s.latch.sv.toNat →
      ∃ t, exec .getsym s = .next t ∧ s.faultedPre t .corruptStreamError (encode .getsym)) ∧
    (s.st ≠ .decCount →
      ∃ t, exec .getsym s = .next t ∧ s.faultedPre t .illegalCommand (encode .getsym))

/-- R117, R118: `UPDATE s` in an adaptive sound model adds one to the count, and halves every count with a
floor of 1 when the total reaches the ceiling; where it is not legal it raises `IllegalCommand`. -/
def Obligations.UpdateCountsAndRescales : Prop :=
  ∀ (x : Symbol) (s : State),
    (x.toNat ≤ 256 → s.st = .encReady ∨ s.st = .decReady → s.model.mode = .adaptive →
      s.model.sound →
    ∃ t, exec (.update x) s = .next t ∧ t.model.mode = s.model.mode ∧
      t.model.mvalid = s.model.mvalid ∧ t.st = s.st ∧ t.iv = s.iv ∧ t.latch = s.latch ∧
      t.faults = s.faults ∧ t.draws = s.draws ∧ s.answered t 0#4 (t.model.tot.setWidth 32) ∧
      (s.model.tot.toNat + 1 < 16384 →
        t.model.tot.toNat = s.model.tot.toNat + 1 ∧
        ∀ k, k ≤ 256 → (CountTable.read t.model.cnt k).toNat =
          (CountTable.read s.model.cnt k).toNat + (if k = x.toNat then 1 else 0)) ∧
      (s.model.tot.toNat + 1 = 16384 →
        t.model.tot.toNat = CountTable.cum t.model.cnt 257 ∧
        ∀ k, k ≤ 256 → (CountTable.read t.model.cnt k).toNat =
          max 1 (((CountTable.read s.model.cnt k).toNat + (if k = x.toNat then 1 else 0)) / 2))) ∧
    (¬(x.toNat ≤ 256 ∧ (s.st = .encReady ∨ s.st = .decReady) ∧ s.model.mode = .adaptive) →
      ∃ t, exec (.update x) s = .next t ∧ s.faultedPre t .illegalCommand (encode (.update x)))

/-- R119, R120: after an `UPDATE` that halves, the total is between 257 and 8320, and the order of the
counts is kept weakly. -/
def Obligations.RescaleBoundsAndOrder : Prop :=
  ∀ (m : Model) (x : Symbol), x.toNat ≤ 256 → m.sound → m.mode = .adaptive →
    m.tot.toNat + 1 = 16384 →
    257 ≤ (m.update x).tot.toNat ∧ (m.update x).tot.toNat ≤ 8320 ∧
      ∀ j k, j ≤ 256 → k ≤ 256 →
        (CountTable.read (m.increment x).cnt j).toNat ≤
          (CountTable.read (m.increment x).cnt k).toNat →
        (CountTable.read (m.update x).cnt j).toNat ≤ (CountTable.read (m.update x).cnt k).toNat

/-- R121, R45: in a sound model every symbol has a nonempty range below the total, and every value below
the total lies in the range of exactly one symbol. -/
def Obligations.RangesPartitionTotal : Prop :=
  ∀ m : Model, m.sound →
    (∀ k, k ≤ 256 → CountTable.cum m.cnt k < CountTable.cum m.cnt (k + 1) ∧
      CountTable.cum m.cnt (k + 1) ≤ m.tot.toNat) ∧
    ∀ v, v < m.tot.toNat →
      ∃ k, (k ≤ 256 ∧ CountTable.cum m.cnt k ≤ v ∧ v < CountTable.cum m.cnt (k + 1)) ∧
        ∀ j, j ≤ 256 → CountTable.cum m.cnt j ≤ v → v < CountTable.cum m.cnt (j + 1) → j = k

/-- R122: on one sound model, `GETSYM` returns the symbol and range of `GETPROB` exactly when that range
holds the scaled value. -/
def Obligations.GetprobAndGetsymAgree : Prop :=
  ∀ (d e t u : State) (x : Symbol), x.toNat ≤ 256 → d.st = .decCount → e.st = .encReady →
    e.model = d.model → d.model.sound → d.latch.sv.toNat < d.model.tot.toNat →
    exec .getsym d = .next t → exec (.getprob x) e = .next u →
    ((t.latch.sym = x ∧ t.latch.rl = u.latch.rl ∧ t.latch.rh = u.latch.rh ∧
        t.latch.rt = u.latch.rt) ↔
      u.latch.rl.toNat ≤ d.latch.sv.toNat ∧ d.latch.sv.toNat < u.latch.rh.toNat)

/-! ### The interval unit (`spec/41_encoder.md`) -/

/-- R141: the narrowing from the old bounds, its error, and that the new interval is inside the old. -/
def Obligations.NarrowStaysInside : Prop :=
  ∀ (lo hi : Bound) (rl rh rt : Count), lo.toNat ≤ hi.toNat → rl.toNat < rh.toNat →
    rh.toNat ≤ rt.toNat →
    let range := hi.toNat - lo.toNat + 1
    let a := range * rl.toNat / rt.toNat
    let b := range * rh.toNat / rt.toNat
    (b ≤ a → narrow lo hi rl rh rt = none) ∧
      (a < b → ∃ nl nh, narrow lo hi rl rh rt = some (nl, nh) ∧ nl.toNat = lo.toNat + a ∧
        nh.toNat = lo.toNat + b - 1 ∧ lo.toNat ≤ nl.toNat ∧ nl.toNat ≤ nh.toNat ∧
        nh.toNat ≤ hi.toNat)

/-- R142: the conditions E1, E2, E3 by bits and by ranges; they exclude one another. -/
def Obligations.RenormConditions : Prop :=
  ∀ v : Interval, v.low.toNat ≤ v.high.toNat →
    (v.e1 = true ↔ v.low.getLsbD 15 = false ∧ v.high.getLsbD 15 = false) ∧
    (v.e1 = true ↔ v.high.toNat < 0x8000) ∧
    (v.e2 = true ↔ v.low.getLsbD 15 = true ∧ v.high.getLsbD 15 = true) ∧
    (v.e2 = true ↔ 0x8000 ≤ v.low.toNat) ∧
    (v.e3 = true ↔ v.low.getLsbD 15 = false ∧ v.high.getLsbD 15 = true ∧
      v.low.getLsbD 14 = true ∧ v.high.getLsbD 14 = false) ∧
    (v.e3 = true ↔ 0x4000 ≤ v.low.toNat ∧ v.low.toNat < 0x8000 ∧ 0x8000 ≤ v.high.toNat ∧
      v.high.toNat < 0xC000) ∧
    (v.e1 = true → v.e2 = false ∧ v.e3 = false) ∧ (v.e2 = true → v.e3 = false)

/-- R144, R143: the arithmetic form of the three steps of `LOW` and `HIGH`; each doubles the size of the
interval. -/
def Obligations.StepsDoubleTheInterval : Prop :=
  ∀ v : Interval, v.low.toNat ≤ v.high.toNat →
    (v.e1 = true → v.shift.low.toNat = 2 * v.low.toNat ∧
      v.shift.high.toNat = 2 * v.high.toNat + 1) ∧
    (v.e2 = true → v.shift.low.toNat = 2 * (v.low.toNat - 0x8000) ∧
      v.shift.high.toNat = 2 * (v.high.toNat - 0x8000) + 1) ∧
    (v.e3 = true → v.widen.low.toNat = 2 * (v.low.toNat - 0x4000) ∧
      v.widen.high.toNat = 2 * (v.high.toNat - 0x4000) + 1) ∧
    ((v.e1 = true ∨ v.e2 = true) →
      v.shift.high.toNat - v.shift.low.toNat + 1 = 2 * (v.high.toNat - v.low.toNat + 1)) ∧
    (v.e3 = true →
      v.widen.high.toNat - v.widen.low.toNat + 1 = 2 * (v.high.toNat - v.low.toNat + 1))

/-- R143: the encoder's loop step by step. E1/E2: the top bit, the pending complements, `PEND` cleared,
both bounds shifted; E3: one more pending bit, `PrecisionError` at the maximum; else the loop exits. -/
def Obligations.EncoderRenormSteps : Prop :=
  ∀ (s : State) (n : Nat) (rest : List SinkAnswer), s.iv.low.toNat ≤ s.iv.high.toNat →
    (s.iv.low.getLsbD 15 = s.iv.high.getLsbD 15 →
      s.chan.sinkAnswers = List.replicate (1 + s.iv.pend.toNat) .ok ++ rest →
      renormE (n + 1) s = renormE n
        { s with
          iv := { s.iv with
            low := s.iv.low <<< 1
            high := (s.iv.high <<< 1) ||| 1#16
            pend := 0#32 }
          chan := { s.chan with
            sinkAnswers := rest
            events := s.chan.events ++
              (.emit (s.iv.low.getLsbD 15) ::
                List.replicate s.iv.pend.toNat (.emit (!s.iv.low.getLsbD 15))) } }) ∧
    (s.iv.low.getLsbD 15 ≠ s.iv.high.getLsbD 15 → s.iv.low.getLsbD 14 = true →
      s.iv.high.getLsbD 14 = false → s.iv.pend ≠ 0xFFFFFFFF#32 →
      ∃ v : Interval, v.low.toNat = 2 * (s.iv.low.toNat - 0x4000) ∧
        v.high.toNat = 2 * (s.iv.high.toNat - 0x4000) + 1 ∧
        v.pend.toNat = s.iv.pend.toNat + 1 ∧ v.code = s.iv.code ∧ v.eoscnt = s.iv.eoscnt ∧
        renormE (n + 1) s = renormE n { s with iv := v }) ∧
    (s.iv.low.getLsbD 15 ≠ s.iv.high.getLsbD 15 → s.iv.low.getLsbD 14 = true →
      s.iv.high.getLsbD 14 = false → s.iv.pend = 0xFFFFFFFF#32 →
      renormE (n + 1) s = .raises .precisionError s) ∧
    (s.iv.low.getLsbD 15 ≠ s.iv.high.getLsbD 15 →
      ¬(s.iv.low.getLsbD 14 = true ∧ s.iv.high.getLsbD 14 = false) →
      renormE (n + 1) s = .goesOn () s)

/-- R148, R149: both loops end after at most 16 steps, and leave neither E1, E2 nor E3 and `LOW <= HIGH`. -/
def Obligations.RenormEndsInSixteenSteps : Prop :=
  ∀ s : State, s.iv.low.toNat ≤ s.iv.high.toNat →
    (∀ n, renormE (16 + n) s = renormE 16 s ∧ renormD (16 + n) s = renormD 16 s) ∧
    (∀ t, renormE 16 s = .goesOn () t ∨ renormD 16 s = .goesOn () t →
      t.iv.settled ∧ t.iv.low.toNat ≤ t.iv.high.toNat)

/-- R140: `EBEGIN` in `IDLE` with a valid model starts an encode run; no bit is emitted. Elsewhere it is
illegal. -/
def Obligations.EbeginStartsRun : Prop :=
  ∀ s : State,
    (s.st = .idle → s.model.mvalid = true →
    ∃ t, exec .ebegin s = .next t ∧ t.iv.low = 0#16 ∧ t.iv.high = 0xFFFF#16 ∧ t.iv.pend = 0#32 ∧
      t.iv.code = 0#16 ∧ t.iv.eoscnt = 0#4 ∧ t.st = .encReady ∧ t.model = s.model ∧
      t.latch = s.latch ∧ t.faults = s.faults ∧ t.draws = s.draws ∧ s.answered t 0#4 0#32) ∧
    (¬(s.st = .idle ∧ s.model.mvalid = true) →
      ∃ t, exec .ebegin s = .next t ∧ s.faultedPre t .illegalCommand (encode .ebegin))

/-- R145, R154, R143: `ESYM` with a nonempty narrowed interval. With room in `PEND` and a sink that answers
`ok` it makes the doubling steps of these bounds, emits or defers one bit for each, and changes only the
interval. If the E3 steps before the first E1/E2 step would take `PEND` above its maximum, it raises
`PrecisionError` in mid-command with nothing emitted (R226 (b), R229, R232); the interval registers are then
free (log 2). -/
def Obligations.EsymCompletes : Prop :=
  ∀ (s : State) (nl nh : Bound) (rest : List SinkAnswer), s.st = .encRange →
    narrow s.iv.low s.iv.high s.latch.rl s.latch.rh s.latch.rt = some (nl, nh) →
    let v : Interval := { s.iv with low := nl, high := nh }
    (s.iv.pend.toNat + Interval.deferred 16 v < 2 ^ 32 →
      s.chan.sinkAnswers = List.replicate (Interval.emitted 16 v).length .ok ++ rest →
      ∃ t : State, exec .esym s = .next t ∧
        t.iv.high.toNat - t.iv.low.toNat + 1 =
          2 ^ Interval.steps 16 v * (nh.toNat - nl.toNat + 1) ∧
        Interval.steps 16 v ≤ 16 ∧ t.iv.settled ∧ t.iv.low.toNat ≤ t.iv.high.toNat ∧
        (Interval.emitted 16 v).length + t.iv.pend.toNat =
          s.iv.pend.toNat + Interval.steps 16 v ∧
        t.chan = { s.chan with
          sinkAnswers := rest
          events := s.chan.events ++ (Interval.emitted 16 v).map .emit
          responses := s.chan.responses ++ [{ status := 0#4, data := 0#32 }] } ∧
        t.st = (if s.latch.sym = 256#9 then .encEos else .encReady) ∧ t.iv.code = s.iv.code ∧
        t.iv.eoscnt = s.iv.eoscnt ∧ t.latch = s.latch ∧ t.model = s.model ∧ t.faults = s.faults ∧
        t.draws = s.draws) ∧
    (2 ^ 32 ≤ s.iv.pend.toNat + Interval.deferred 16 v →
      ∃ t : State, exec .esym s = .next t ∧ s.faultedMid t .precisionError (encode .esym) ∧
        t.chan.events = s.chan.events ∧ t.chan.sinkAnswers = s.chan.sinkAnswers ∧
        t.chan.sourceAnswers = s.chan.sourceAnswers)

/-- R145, R175, R231: an empty narrowed interval is a `PrecisionError` before any register changes.
Failure outside rule R141's inputs is the model's choice (log 8). -/
def Obligations.EmptyIntervalIsPrecisionError : Prop :=
  ∀ s : State, narrow s.iv.low s.iv.high s.latch.rl s.latch.rh s.latch.rt = none →
    (s.st = .encRange →
      ∃ t, exec .esym s = .next t ∧ s.faultedPre t .precisionError (encode .esym)) ∧
    (s.st = .decRange → s.latch.sym ≠ 256#9 →
      ∃ t, exec .dsym s = .next t ∧ s.faultedPre t .precisionError (encode .dsym))

/-- R146: `EFINISH` with a sink that answers `ok` emits the second-highest bit of `LOW` and `PEND + 1`
complements, then the flush request, and ends the run. -/
def Obligations.EfinishEndsRun : Prop :=
  ∀ (s : State) (rest : List SinkAnswer), s.st = .encEos →
    s.chan.sinkAnswers = List.replicate (s.iv.pend.toNat + 3) .ok ++ rest →
    ∃ t, exec .efinish s = .next t ∧ t.st = .done ∧ t.iv.pend = 0#32 ∧ t.iv.low = s.iv.low ∧
      t.iv.high = s.iv.high ∧ t.iv.code = s.iv.code ∧ t.iv.eoscnt = s.iv.eoscnt ∧
      t.chan = { s.chan with
        sinkAnswers := rest
        events := s.chan.events ++ s.finishEvents
        responses := s.chan.responses ++ [{ status := 0#4, data := 0#32 }] } ∧
      t.latch = s.latch ∧ t.model = s.model ∧ t.faults = s.faults ∧ t.draws = s.draws

/-- R70, R71, R223, R232: a sink that answers `fail` to the `k`-th request of `EFINISH`, or to the `k`-th
`Emit` of `ESYM`, raises `IOError`; the events before it stay made, it is not counted, and nothing is sent
after it. The interval registers are left free (log 2). -/
def Obligations.SinkFailureIsIoError : Prop :=
  (∀ (s : State) (k : Nat) (rest : List SinkAnswer), s.st = .encEos → k < s.iv.pend.toNat + 3 →
    s.chan.sinkAnswers = List.replicate k .ok ++ (.fail :: rest) →
    ∃ t, exec .efinish s = .next t ∧ s.faultedMid t .ioError (encode .efinish) ∧
      t.chan.sinkAnswers = rest ∧ t.chan.sourceAnswers = s.chan.sourceAnswers ∧
      t.chan.events = s.chan.events ++ s.finishEvents.take k) ∧
  ∀ (s : State) (nl nh : Bound) (k : Nat) (rest : List SinkAnswer), s.st = .encRange →
    narrow s.iv.low s.iv.high s.latch.rl s.latch.rh s.latch.rt = some (nl, nh) →
    let v : Interval := { s.iv with low := nl, high := nh }
    s.iv.pend.toNat + Interval.deferred 16 v < 2 ^ 32 → k < (Interval.emitted 16 v).length →
    s.chan.sinkAnswers = List.replicate k .ok ++ (.fail :: rest) →
    ∃ t, exec .esym s = .next t ∧ s.faultedMid t .ioError (encode .esym) ∧
      t.chan.sinkAnswers = rest ∧ t.chan.sourceAnswers = s.chan.sourceAnswers ∧
      t.chan.events = s.chan.events ++ ((Interval.emitted 16 v).take k).map .emit

/-- R70, R71: a sink that does not answer the `k`-th request of `EFINISH`, or the `k`-th `Emit` of `ESYM`,
leaves the core waiting inside the command, without a response, and the core takes no further word. The wait
as a state is the model's choice (log 4). -/
def Obligations.SilentSinkHoldsTheCore : Prop :=
  (∀ (s : State) (k : Nat), s.st = .encEos → k < s.iv.pend.toNat + 3 →
    s.chan.sinkAnswers = List.replicate k .ok →
    ∃ t e, exec .efinish s = .next t ∧ t.chan.waiting = some (.out e) ∧
      t.chan.responses = s.chan.responses ∧
      t.chan.events ++ [e] = s.chan.events ++ s.finishEvents.take (k + 1) ∧
      ∀ (w : Word) (ins : List HostInput), t.chan.inputs = .command w :: ins → step t = .next t) ∧
  ∀ (s : State) (nl nh : Bound) (k : Nat), s.st = .encRange →
    narrow s.iv.low s.iv.high s.latch.rl s.latch.rh s.latch.rt = some (nl, nh) →
    let v : Interval := { s.iv with low := nl, high := nh }
    s.iv.pend.toNat + Interval.deferred 16 v < 2 ^ 32 → k < (Interval.emitted 16 v).length →
    s.chan.sinkAnswers = List.replicate k .ok →
    ∃ t e, exec .esym s = .next t ∧ t.chan.waiting = some (.out e) ∧
      t.chan.responses = s.chan.responses ∧
      t.chan.events ++ [e] = s.chan.events ++ ((Interval.emitted 16 v).take (k + 1)).map .emit ∧
      ∀ (w : Word) (ins : List HostInput), t.chan.inputs = .command w :: ins → step t = .next t

/-- R147: in every state that meets the invariant, the narrowing of `ESYM` and `DSYM` succeeds. -/
def Obligations.NarrowingSucceedsInARun : Prop :=
  ∀ s : State, s.Boundary → s.st = .encRange ∨ s.st = .decRange →
    narrow s.iv.low s.iv.high s.latch.rl s.latch.rh s.latch.rt ≠ none

/-! ### The decoder (`spec/42_decoder.md`) -/

/-- R72: what a `ReadBit` does on each answer of the bit source, and without one. That the core then waits
with the field `waiting` set is the model's choice (log 4). -/
def Obligations.ReadBitAnswers : Prop :=
  ∀ (s : State) (rest : List SourceAnswer),
    (∀ b, s.chan.sourceAnswers = .bit b :: rest →
      s.readBit = .goesOn b { s with chan := { s.chan with sourceAnswers := rest } }) ∧
    (s.chan.sourceAnswers = .fail :: rest →
      s.readBit = .raises .ioError { s with chan := { s.chan with sourceAnswers := rest } }) ∧
    (s.chan.sourceAnswers = .endOfStream :: rest → s.iv.eoscnt.toNat = 14 →
      s.readBit =
        .raises .corruptStreamError { s with chan := { s.chan with sourceAnswers := rest } }) ∧
    (s.chan.sourceAnswers = .endOfStream :: rest → s.iv.eoscnt.toNat < 14 →
      s.readBit = .goesOn false
        { s with
          chan := { s.chan with sourceAnswers := rest }
          iv := { s.iv with eoscnt := s.iv.eoscnt + 1#4 } }) ∧
    (s.chan.sourceAnswers = [] → ∃ t, s.readBit = .waits t ∧ t.chan.waiting = some .readBit)

/-- R173, R72: the decoder's loop step by step. Both bounds move as in the encoder, `CODE` moves with them and
takes the bit read, also the 0 and the count of an `EndOfStream`; in an E3 step from a sound state it is
`2 * (CODE - QTR)` plus the bit; `PEND` is kept. A step whose answer is `fail`, or the fifteenth
`EndOfStream`, raises; one without an answer waits (the wait as a state is the model's choice, log 4). -/
def Obligations.DecoderRenormSteps : Prop :=
  ∀ (s : State) (n : Nat) (a : SourceAnswer) (b : Bool) (e : BitVec 4) (rest : List SourceAnswer),
    s.iv.low.toNat ≤ s.iv.high.toNat →
    (s.iv.low.getLsbD 15 = s.iv.high.getLsbD 15 → s.chan.sourceAnswers = a :: rest →
      a.takenAs s.iv.eoscnt b e →
      renormD (n + 1) s = renormD n
        { s with
          iv := { s.iv with
            low := s.iv.low <<< 1
            high := (s.iv.high <<< 1) ||| 1#16
            code := (s.iv.code <<< 1) ||| (if b then 1#16 else 0#16)
            eoscnt := e }
          chan := { s.chan with sourceAnswers := rest } }) ∧
    (s.iv.low.getLsbD 15 ≠ s.iv.high.getLsbD 15 → s.iv.low.getLsbD 14 = true →
      s.iv.high.getLsbD 14 = false → s.chan.sourceAnswers = a :: rest →
      a.takenAs s.iv.eoscnt b e →
      ∃ v : Interval, v.low.toNat = 2 * (s.iv.low.toNat - 0x4000) ∧
        v.high.toNat = 2 * (s.iv.high.toNat - 0x4000) + 1 ∧
        v.code = ((s.iv.code ^^^ 0x4000#16) <<< 1) ||| (if b then 1#16 else 0#16) ∧
        (s.iv.low.toNat ≤ s.iv.code.toNat → s.iv.code.toNat ≤ s.iv.high.toNat →
          v.code.toNat = 2 * (s.iv.code.toNat - 0x4000) + (if b then 1 else 0)) ∧
        v.pend = s.iv.pend ∧ v.eoscnt = e ∧
        renormD (n + 1) s =
          renormD n { s with iv := v, chan := { s.chan with sourceAnswers := rest } }) ∧
    ((s.iv.low.getLsbD 15 = s.iv.high.getLsbD 15 ∨
        (s.iv.low.getLsbD 14 = true ∧ s.iv.high.getLsbD 14 = false)) →
      (s.chan.sourceAnswers = .fail :: rest →
        ∃ t, renormD (n + 1) s = .raises .ioError t ∧ t.st = s.st ∧ t.latch = s.latch ∧
          t.model = s.model ∧ t.faults = s.faults ∧ t.draws = s.draws ∧
          t.chan = { s.chan with sourceAnswers := rest }) ∧
      (s.chan.sourceAnswers = .endOfStream :: rest → s.iv.eoscnt.toNat = 14 →
        ∃ t, renormD (n + 1) s = .raises .corruptStreamError t ∧ t.st = s.st ∧
          t.latch = s.latch ∧ t.model = s.model ∧ t.faults = s.faults ∧ t.draws = s.draws ∧
          t.chan = { s.chan with sourceAnswers := rest }) ∧
      (s.chan.sourceAnswers = [] → ∃ t, renormD (n + 1) s = .waits t ∧ s.readWaits t)) ∧
    (s.iv.low.getLsbD 15 ≠ s.iv.high.getLsbD 15 →
      ¬(s.iv.low.getLsbD 14 = true ∧ s.iv.high.getLsbD 14 = false) →
      renormD (n + 1) s = .goesOn () s)

/-- R170, R72: `DBEGIN` asks for 16 answers, the first into bit 15; `EndOfStream` is read as 0 and counted.
An answer `fail` raises `IOError` (R223) and the fifteenth `EndOfStream`, which is a stream of fewer than 2
bits, `CorruptStreamError` (R227 (c)), both in mid-command (R229, R232; the interval registers are then free,
log 2). Without an answer the core waits (the wait as a state is the model's choice, log 4). Elsewhere than in
`IDLE` with a valid model it is illegal. -/
def Obligations.DbeginFillsCode : Prop :=
  ∀ (s : State) (as : List SourceAnswer) (rest : List SourceAnswer),
    (s.st = .idle → s.model.mvalid = true → allTaken 0#4 as →
      (as.length = 16 → s.chan.sourceAnswers = as ++ rest →
        ∃ t, exec .dbegin s = .next t ∧ t.iv.low = 0#16 ∧ t.iv.high = 0xFFFF#16 ∧
          t.iv.pend = 0#32 ∧
          (∀ j, j < 16 → (t.iv.code.getLsbD (15 - j) = true ↔ as[j]? = some (.bit true))) ∧
          t.iv.eoscnt.toNat = as.count .endOfStream ∧ t.st = .decReady ∧ t.latch = s.latch ∧
          t.model = s.model ∧ t.faults = s.faults ∧ t.draws = s.draws ∧
          t.chan = { s.chan with
            sourceAnswers := rest
            responses := s.chan.responses ++ [{ status := 0#4, data := 0#32 }] }) ∧
      (as.length < 16 → s.chan.sourceAnswers = as ++ .fail :: rest →
        ∃ t, exec .dbegin s = .next t ∧ s.readFaulted t .ioError (encode .dbegin) rest) ∧
      (as.length < 16 → as.count .endOfStream = 14 →
        s.chan.sourceAnswers = as ++ .endOfStream :: rest →
        ∃ t, exec .dbegin s = .next t ∧
          s.readFaulted t .corruptStreamError (encode .dbegin) rest) ∧
      (as.length < 16 → s.chan.sourceAnswers = as →
        ∃ t, exec .dbegin s = .next t ∧ s.readWaits t)) ∧
    (¬(s.st = .idle ∧ s.model.mvalid = true) →
      ∃ t, exec .dbegin s = .next t ∧ s.faultedPre t .illegalCommand (encode .dbegin))

/-- R171, R172: `GETCNT` with `LOW <= CODE <= HIGH` latches the scaled value; `CODE` below `LOW`, or a scaled
value not below the total, which is `CODE` above `HIGH`, is a `CorruptStreamError`; elsewhere than in
`DEC_READY` it is illegal. The interval is not empty and the total not 0, as in every run (R25, R40). -/
def Obligations.GetcntScales : Prop :=
  ∀ s : State,
    (s.st = .decReady → s.iv.low.toNat ≤ s.iv.code.toNat → s.iv.code.toNat ≤ s.iv.high.toNat →
      1 ≤ s.model.tot.toNat →
      ∃ t, exec .getcnt s = .next t ∧
        t.latch.sv.toNat =
          ((s.iv.code.toNat - s.iv.low.toNat + 1) * s.model.tot.toNat - 1) /
            (s.iv.high.toNat - s.iv.low.toNat + 1) ∧
        t.latch.sv.toNat < s.model.tot.toNat ∧ t.latch.rl = s.latch.rl ∧ t.latch.rh = s.latch.rh ∧
        t.latch.rt = s.latch.rt ∧ t.latch.sym = s.latch.sym ∧ t.st = .decCount ∧ t.iv = s.iv ∧
        t.model = s.model ∧ t.faults = s.faults ∧ t.draws = s.draws ∧
        s.answered t 0#4 (t.latch.sv.setWidth 32)) ∧
    (s.st = .decReady → s.iv.low.toNat ≤ s.iv.high.toNat → 1 ≤ s.model.tot.toNat →
      (s.iv.code.toNat < s.iv.low.toNat ∨
        s.model.tot.toNat ≤
          ((s.iv.code.toNat - s.iv.low.toNat + 1) * s.model.tot.toNat - 1) /
            (s.iv.high.toNat - s.iv.low.toNat + 1)) →
      ∃ t, exec .getcnt s = .next t ∧ s.faultedPre t .corruptStreamError (encode .getcnt)) ∧
    (s.st = .decReady → s.iv.low.toNat ≤ s.iv.high.toNat → 1 ≤ s.model.tot.toNat →
      s.iv.high.toNat < s.iv.code.toNat →
      ∃ t, exec .getcnt s = .next t ∧ s.faultedPre t .corruptStreamError (encode .getcnt)) ∧
    (s.st ≠ .decReady →
      ∃ t, exec .getcnt s = .next t ∧ s.faultedPre t .illegalCommand (encode .getcnt))

/-- R175: `DSYM` of the end-of-stream symbol ends the run and changes nothing else. -/
def Obligations.DsymOfEosEndsRun : Prop :=
  ∀ s : State, s.st = .decRange → s.latch.sym = 256#9 →
    ∃ t, exec .dsym s = .next t ∧ t.st = .done ∧ t.iv = s.iv ∧ t.latch = s.latch ∧
      t.model = s.model ∧ t.faults = s.faults ∧ t.draws = s.draws ∧ s.answered t 0#4 0#32

/-- R175, R173, R72: `DSYM` of another symbol with a nonempty narrowed interval. If the source answers each of
its steps with a bit, or with an `EndOfStream` that is still taken as 0, it makes the doubling steps of these
bounds, asks for one answer for each, and changes only the interval and `EOSCNT`. An answer `fail` raises
`IOError` (R223) and the fifteenth `EndOfStream` `CorruptStreamError` (R227 (c)), both in mid-command (R229,
R232; the interval registers are then free, log 2). Without an answer the core waits (the wait as a state is
the model's choice, log 4). -/
def Obligations.DsymCompletes : Prop :=
  ∀ (s : State) (nl nh : Bound) (as : List SourceAnswer) (rest : List SourceAnswer),
    s.st = .decRange → s.latch.sym ≠ 256#9 →
    narrow s.iv.low s.iv.high s.latch.rl s.latch.rh s.latch.rt = some (nl, nh) →
    allTaken s.iv.eoscnt as →
    let n := Interval.steps 16 { s.iv with low := nl, high := nh }
    (as.length = n → s.chan.sourceAnswers = as ++ rest →
      ∃ t : State, exec .dsym s = .next t ∧ n ≤ 16 ∧
        t.iv.high.toNat - t.iv.low.toNat + 1 = 2 ^ n * (nh.toNat - nl.toNat + 1) ∧
        t.iv.settled ∧ t.iv.low.toNat ≤ t.iv.high.toNat ∧
        (nl.toNat ≤ s.iv.code.toNat → s.iv.code.toNat ≤ nh.toNat →
          t.iv.low.toNat ≤ t.iv.code.toNat ∧ t.iv.code.toNat ≤ t.iv.high.toNat) ∧
        t.iv.pend = s.iv.pend ∧
        t.iv.eoscnt.toNat = s.iv.eoscnt.toNat + as.count .endOfStream ∧ t.st = .decReady ∧
        t.latch = s.latch ∧ t.model = s.model ∧ t.faults = s.faults ∧ t.draws = s.draws ∧
        t.chan = { s.chan with
          sourceAnswers := rest
          responses := s.chan.responses ++ [{ status := 0#4, data := 0#32 }] }) ∧
    (as.length < n → s.chan.sourceAnswers = as ++ .fail :: rest →
      ∃ t, exec .dsym s = .next t ∧ s.readFaulted t .ioError (encode .dsym) rest) ∧
    (as.length < n → s.iv.eoscnt.toNat + as.count .endOfStream = 14 →
      s.chan.sourceAnswers = as ++ .endOfStream :: rest →
      ∃ t, exec .dsym s = .next t ∧ s.readFaulted t .corruptStreamError (encode .dsym) rest) ∧
    (as.length < n → s.chan.sourceAnswers = as →
      ∃ t, exec .dsym s = .next t ∧ s.readWaits t)

/-- R177: with equal bounds and equal ranges, `ESYM` and `DSYM` of a symbol that both complete leave equal
bounds. -/
def Obligations.EncoderAndDecoderInLockStep : Prop :=
  ∀ e d e' d' : State, e.st = .encRange → d.st = .decRange → d.latch.sym ≠ 256#9 →
    e.iv.low = d.iv.low → e.iv.high = d.iv.high → e.latch.rl = d.latch.rl →
    e.latch.rh = d.latch.rh → e.latch.rt = d.latch.rt → exec .esym e = .next e' →
    exec .dsym d = .next d' → e'.st ≠ .fault → d'.st ≠ .fault → e'.chan.waiting = none →
    d'.chan.waiting = none → e'.iv.low = d'.iv.low ∧ e'.iv.high = d'.iv.high

/-- R180: the symbol whose range holds the scaled value is the one whose narrowed interval holds `CODE`, and
no other symbol's narrowed interval does. -/
def Obligations.SymbolRecovery : Prop :=
  ∀ (m : Model) (lo hi code : Bound) (k : Nat), m.sound → lo.toNat ≤ code.toNat →
    code.toNat ≤ hi.toNat → k ≤ 256 →
    CountTable.cum m.cnt k ≤
      ((code.toNat - lo.toNat + 1) * m.tot.toNat - 1) / (hi.toNat - lo.toNat + 1) →
    ((code.toNat - lo.toNat + 1) * m.tot.toNat - 1) / (hi.toNat - lo.toNat + 1) <
      CountTable.cum m.cnt (k + 1) →
    ∀ (j : Nat) (nl nh : Bound), j ≤ 256 →
      (j = k → ∃ l h, narrow lo hi (BitVec.ofNat 15 (CountTable.cum m.cnt k))
        (BitVec.ofNat 15 (CountTable.cum m.cnt (k + 1))) m.tot = some (l, h) ∧
        l.toNat ≤ code.toNat ∧ code.toNat ≤ h.toNat) ∧
      (narrow lo hi (BitVec.ofNat 15 (CountTable.cum m.cnt j))
          (BitVec.ofNat 15 (CountTable.cum m.cnt (j + 1))) m.tot = some (nl, nh) →
        nl.toNat ≤ code.toNat → code.toNat ≤ nh.toNat → j = k)

/-- R179: in every state that meets the invariant, `GETCNT` and `GETSYM` succeed. -/
def Obligations.NoCorruptionInScaling : Prop :=
  ∀ s : State, s.Boundary →
    (s.st = .decReady → ∃ t, exec .getcnt s = .next t ∧ t.st = .decCount) ∧
    (s.st = .decCount → ∃ t, exec .getsym s = .next t ∧ t.st = .decRange)

/-! ### Whole-machine rules and invariants -/

/-- R73: which commands use which channel. -/
def Obligations.ChannelUse : Prop :=
  ∀ (i : Instr) (s t : State), exec i s = .next t →
    (i ≠ .esym → i ≠ .efinish →
      t.chan.events = s.chan.events ∧ t.chan.sinkAnswers = s.chan.sinkAnswers) ∧
    (i ≠ .dbegin → i ≠ .dsym → t.chan.sourceAnswers = s.chan.sourceAnswers)

/-- R20, R32: which commands write the model, the interval unit and the latches; `MODE` is written by
`MINIT` and reset only. -/
def Obligations.WritersOfState : Prop :=
  ∀ (i : Instr) (s t : State), exec i s = .next t → i ≠ .reset →
    ((∀ m, i ≠ .minit m) → (∀ x v, i ≠ .ldcnt x v) → (∀ x, i ≠ .update x) → t.model = s.model) ∧
    ((∀ m, i ≠ .minit m) → t.model.mode = s.model.mode ∧ t.model.mvalid = s.model.mvalid) ∧
    (i ≠ .ebegin → i ≠ .esym → i ≠ .efinish → i ≠ .dbegin → i ≠ .dsym → t.iv = s.iv) ∧
    ((∀ x, i ≠ .getprob x) → i ≠ .getsym → i ≠ .getcnt → t.latch = s.latch)

/-- The invariant holds right after reset. That the unwritten count table lists nothing is the model's
choice (log 1). -/
def Obligations.ResetMeetsInvariant : Prop := State.reset.Inv

/-- R25 to R28, R30, R34 to R37, R40, R44: every step keeps the invariants of the command boundary. The
canonical table is the model's own form (log 1). -/
def Obligations.StepKeepsInvariant : Prop :=
  ∀ s t : State, s.Inv → step s = .next t → t.Inv

/-- R44, R119: every step keeps the model sound, and a run has a valid model. -/
def Obligations.StepKeepsModelSound : Prop :=
  ∀ s t : State, s.ModelInv → (s.st ≠ .idle → s.st ≠ .fault → s.model.mvalid = true) →
    step s = .next t →
    t.ModelInv ∧ (t.st ≠ .idle → t.st ≠ .fault → t.model.mvalid = true)

/-- The model's own form of the count table (log 1): every step keeps it canonical. -/
def Obligations.StepKeepsTableCanonical : Prop :=
  ∀ s t : State, s.TableInv → step s = .next t → t.TableInv

/-- R152: from the acceptance of a legal command, the micro-steps of R151 come back to `RN_IDLE` in
exactly the state that the command rule gives, whenever the collaborators answer. The phase beside the
state, and equal free values after a fault, are the model's form (logs 10, 2). -/
def Obligations.MicroStepsRefineCommands : Prop :=
  ∀ (i : Instr) (s t : State) (m : Micro), s.legal i = true → s.chan.waiting = none →
    accept i s = some m → exec i s = .next t → t.chan.waiting = none →
    ∃ n, (microRun n m).phase = .idle ∧ (microRun n m).st = t
end

