-- ==== Sys2Proof/Laws/State.lean ====
section
/-! SUPPORT. One lemma per field per named update of the state, so that no later proof unfolds a record
update. -/

namespace Sys2Proof.Machine

@[simp] theorem State.setIv_iv (s : State) (v : Interval) : (s.setIv v).iv = v := rfl

@[simp] theorem State.setIv_latch (s : State) (v : Interval) : (s.setIv v).latch = s.latch := rfl

@[simp] theorem State.setIv_model (s : State) (v : Interval) : (s.setIv v).model = s.model := rfl

@[simp] theorem State.setIv_st (s : State) (v : Interval) : (s.setIv v).st = s.st := rfl

@[simp] theorem State.setIv_faults (s : State) (v : Interval) : (s.setIv v).faults = s.faults := rfl

@[simp] theorem State.setIv_chan (s : State) (v : Interval) : (s.setIv v).chan = s.chan := rfl

@[simp] theorem State.setIv_draws (s : State) (v : Interval) : (s.setIv v).draws = s.draws := rfl

@[simp] theorem State.setLatch_iv (s : State) (v : Latch) : (s.setLatch v).iv = s.iv := rfl

@[simp] theorem State.setLatch_latch (s : State) (v : Latch) : (s.setLatch v).latch = v := rfl

@[simp] theorem State.setLatch_model (s : State) (v : Latch) : (s.setLatch v).model = s.model := rfl

@[simp] theorem State.setLatch_st (s : State) (v : Latch) : (s.setLatch v).st = s.st := rfl

@[simp] theorem State.setLatch_faults (s : State) (v : Latch) : (s.setLatch v).faults = s.faults := rfl

@[simp] theorem State.setLatch_chan (s : State) (v : Latch) : (s.setLatch v).chan = s.chan := rfl

@[simp] theorem State.setLatch_draws (s : State) (v : Latch) : (s.setLatch v).draws = s.draws := rfl

@[simp] theorem State.setModel_iv (s : State) (v : Model) : (s.setModel v).iv = s.iv := rfl

@[simp] theorem State.setModel_latch (s : State) (v : Model) : (s.setModel v).latch = s.latch := rfl

@[simp] theorem State.setModel_model (s : State) (v : Model) : (s.setModel v).model = v := rfl

@[simp] theorem State.setModel_st (s : State) (v : Model) : (s.setModel v).st = s.st := rfl

@[simp] theorem State.setModel_faults (s : State) (v : Model) : (s.setModel v).faults = s.faults := rfl

@[simp] theorem State.setModel_chan (s : State) (v : Model) : (s.setModel v).chan = s.chan := rfl

@[simp] theorem State.setModel_draws (s : State) (v : Model) : (s.setModel v).draws = s.draws := rfl

@[simp] theorem State.setSt_iv (s : State) (v : Seq) : (s.setSt v).iv = s.iv := rfl

@[simp] theorem State.setSt_latch (s : State) (v : Seq) : (s.setSt v).latch = s.latch := rfl

@[simp] theorem State.setSt_model (s : State) (v : Seq) : (s.setSt v).model = s.model := rfl

@[simp] theorem State.setSt_st (s : State) (v : Seq) : (s.setSt v).st = v := rfl

@[simp] theorem State.setSt_faults (s : State) (v : Seq) : (s.setSt v).faults = s.faults := rfl

@[simp] theorem State.setSt_chan (s : State) (v : Seq) : (s.setSt v).chan = s.chan := rfl

@[simp] theorem State.setSt_draws (s : State) (v : Seq) : (s.setSt v).draws = s.draws := rfl

@[simp] theorem State.setFaults_iv (s : State) (v : FaultRegs) : (s.setFaults v).iv = s.iv := rfl

@[simp] theorem State.setFaults_latch (s : State) (v : FaultRegs) : (s.setFaults v).latch = s.latch := rfl

@[simp] theorem State.setFaults_model (s : State) (v : FaultRegs) : (s.setFaults v).model = s.model := rfl

@[simp] theorem State.setFaults_st (s : State) (v : FaultRegs) : (s.setFaults v).st = s.st := rfl

@[simp] theorem State.setFaults_faults (s : State) (v : FaultRegs) : (s.setFaults v).faults = v := rfl

@[simp] theorem State.setFaults_chan (s : State) (v : FaultRegs) : (s.setFaults v).chan = s.chan := rfl

@[simp] theorem State.setFaults_draws (s : State) (v : FaultRegs) : (s.setFaults v).draws = s.draws := rfl

@[simp] theorem State.setChan_iv (s : State) (v : Channels) : (s.setChan v).iv = s.iv := rfl

@[simp] theorem State.setChan_latch (s : State) (v : Channels) : (s.setChan v).latch = s.latch := rfl

@[simp] theorem State.setChan_model (s : State) (v : Channels) : (s.setChan v).model = s.model := rfl

@[simp] theorem State.setChan_st (s : State) (v : Channels) : (s.setChan v).st = s.st := rfl

@[simp] theorem State.setChan_faults (s : State) (v : Channels) : (s.setChan v).faults = s.faults := rfl

@[simp] theorem State.setChan_chan (s : State) (v : Channels) : (s.setChan v).chan = v := rfl

@[simp] theorem State.setChan_draws (s : State) (v : Channels) : (s.setChan v).draws = s.draws := rfl

@[simp] theorem State.draw_iv (s : State) : s.draw.iv = s.iv := rfl

@[simp] theorem State.draw_latch (s : State) : s.draw.latch = s.latch := rfl

@[simp] theorem State.draw_model (s : State) : s.draw.model = s.model := rfl

@[simp] theorem State.draw_st (s : State) : s.draw.st = s.st := rfl

@[simp] theorem State.draw_faults (s : State) : s.draw.faults = s.faults := rfl

@[simp] theorem State.draw_chan (s : State) : s.draw.chan = s.chan := rfl

@[simp] theorem State.draw_draws (s : State) : s.draw.draws = s.draws + 1 := rfl

/-- Two states with equal fields are equal. -/
theorem State.ext_fields {s t : State} (hi : s.iv = t.iv) (hl : s.latch = t.latch)
    (hm : s.model = t.model) (hs : s.st = t.st) (hf : s.faults = t.faults) (hc : s.chan = t.chan)
    (hd : s.draws = t.draws) : s = t := by
  cases s
  cases t
  simp_all

end Sys2Proof.Machine
end

