-- ==== Sys2Proof/Laws/Table.lean ====
section
/-! SUPPORT. The laws of the count table: a read after a write, the canonical form that every operation
keeps, the cumulative sums, the search. -/

namespace Sys2Proof.Machine

/-! ### Reads and writes -/

theorem CountTable.read_erase_same (t : CountTable) (i : Nat) :
    CountTable.read (CountTable.erase t i) i = CountTable.unlisted := by
  induction t with
  | nil => rfl
  | cons e t ih =>
    obtain ⟨k, c⟩ := e
    by_cases h : k = i <;> simp [CountTable.erase, CountTable.read, h, ih]

theorem CountTable.read_erase_other (t : CountTable) {i j : Nat} (hij : i ≠ j) :
    CountTable.read (CountTable.erase t i) j = CountTable.read t j := by
  induction t with
  | nil => rfl
  | cons e t ih =>
    obtain ⟨k, c⟩ := e
    by_cases h : k = i
    · subst h; simp [CountTable.erase, CountTable.read, hij, ih]
    · simp [CountTable.erase, CountTable.read, h, ih]

theorem CountTable.read_insert_other (t : CountTable) {i j : Nat} (c : Count) (hij : i ≠ j) :
    CountTable.read (CountTable.insert t i c) j = CountTable.read t j := by
  induction t with
  | nil => simp [CountTable.insert, CountTable.read, hij]
  | cons e t ih =>
    obtain ⟨k, d⟩ := e
    by_cases h : i < k <;> simp [CountTable.insert, CountTable.read, h, hij, ih]

theorem CountTable.read_insert_same (t : CountTable) (i : Nat) (c : Count) :
    CountTable.read (CountTable.insert (CountTable.erase t i) i c) i = c := by
  induction t with
  | nil => simp [CountTable.erase, CountTable.insert, CountTable.read]
  | cons e t ih =>
    obtain ⟨k, d⟩ := e
    by_cases h : k = i
    · simpa [CountTable.erase, h] using ih
    · by_cases h' : i < k <;> simp [CountTable.erase, CountTable.insert, CountTable.read, h, h', ih]

/-- A read after a write to the same index gives the count written. -/
@[simp] theorem CountTable.read_write_same (t : CountTable) (i : Nat) (c : Count) :
    CountTable.read (CountTable.write t i c) i = c := by
  unfold CountTable.write
  split
  · next h => rw [CountTable.read_erase_same, h]
  · exact CountTable.read_insert_same t i c

/-- A write leaves every other index alone. -/
theorem CountTable.read_write_other (t : CountTable) {i j : Nat} (c : Count) (hij : i ≠ j) :
    CountTable.read (CountTable.write t i c) j = CountTable.read t j := by
  unfold CountTable.write
  split
  · exact CountTable.read_erase_other t hij
  · rw [CountTable.read_insert_other _ c hij, CountTable.read_erase_other t hij]

theorem CountTable.read_ofFnFrom_below (f : Nat → Count) (n k i : Nat) (h : i < k) :
    CountTable.read (CountTable.ofFnFrom f n k) i = CountTable.unlisted := by
  induction n generalizing k with
  | zero => rfl
  | succ n ih =>
    unfold CountTable.ofFnFrom
    split
    · exact ih (k + 1) (by omega)
    · have hk : k ≠ i := by omega
      simp [CountTable.read, hk, ih (k + 1) (by omega)]

theorem CountTable.read_ofFnFrom (f : Nat → Count) (n k i : Nat) (h1 : k ≤ i) (h2 : i < k + n) :
    CountTable.read (CountTable.ofFnFrom f n k) i = f i := by
  induction n generalizing k with
  | zero => omega
  | succ n ih =>
    unfold CountTable.ofFnFrom
    by_cases hk : k = i
    · subst hk
      split
      · next h => rw [CountTable.read_ofFnFrom_below f n (k + 1) k (by omega), h]
      · simp [CountTable.read]
    · split
      · exact ih (k + 1) (by omega) (by omega)
      · simpa [CountTable.read, hk] using ih (k + 1) (by omega) (by omega)

/-- A write of all entries: index `i` of 0..256 reads as `f i`. -/
theorem CountTable.read_ofFn (f : Nat → Count) {i : Nat} (h : i < Config.numSymbols) :
    CountTable.read (CountTable.ofFn f) i = f i :=
  CountTable.read_ofFnFrom f _ 0 i (by omega) (by omega)

/-- The table that `MINIT` writes lists nothing. -/
theorem CountTable.ofFn_one : (CountTable.ofFn fun _ => 1#15) = [] := by
  have h : ∀ n k, CountTable.ofFnFrom (fun _ => 1#15) n k = [] := by
    intro n
    induction n with
    | zero => intro k; rfl
    | succ n ih => intro k; simp [CountTable.ofFnFrom, CountTable.unlisted, ih]
  exact h _ _

/-! ### The canonical form -/

theorem CountTable.wfFrom_mono {lo lo' : Nat} (h : lo' ≤ lo) (t : CountTable)
    (ht : CountTable.wfFrom lo t = true) : CountTable.wfFrom lo' t = true := by
  cases t with
  | nil => rfl
  | cons e t =>
    obtain ⟨k, c⟩ := e
    simp only [CountTable.wfFrom, Bool.and_eq_true, decide_eq_true_eq] at ht ⊢
    exact ⟨⟨⟨by omega, ht.1.1.2⟩, ht.1.2⟩, ht.2⟩

theorem CountTable.wfFrom_erase (lo i : Nat) (t : CountTable) (ht : CountTable.wfFrom lo t = true) :
    CountTable.wfFrom lo (CountTable.erase t i) = true := by
  induction t generalizing lo with
  | nil => rfl
  | cons e t ih =>
    obtain ⟨k, c⟩ := e
    simp only [CountTable.wfFrom, Bool.and_eq_true, decide_eq_true_eq] at ht
    by_cases h : k = i
    · simpa [CountTable.erase, h] using
        CountTable.wfFrom_mono (by omega) _ (ih (k + 1) ht.2)
    · simp [CountTable.erase, h, CountTable.wfFrom, ht.1.1.1, ht.1.1.2, ht.1.2, ih (k + 1) ht.2]

theorem CountTable.wfFrom_insert_erase (lo i : Nat) (c : Count) (t : CountTable)
    (hlo : lo ≤ i) (hi : i < Config.numSymbols) (hc : c ≠ CountTable.unlisted)
    (ht : CountTable.wfFrom lo t = true) :
    CountTable.wfFrom lo (CountTable.insert (CountTable.erase t i) i c) = true := by
  induction t generalizing lo with
  | nil => simp [CountTable.erase, CountTable.insert, CountTable.wfFrom, hlo, hi, hc]
  | cons e t ih =>
    obtain ⟨k, d⟩ := e
    have hall := ht
    simp only [CountTable.wfFrom, Bool.and_eq_true, decide_eq_true_eq] at ht
    by_cases h : k = i
    · simpa [CountTable.erase, h] using ih lo hlo (CountTable.wfFrom_mono (by omega) _ ht.2)
    · by_cases h' : i < k
      · have he := CountTable.wfFrom_erase (k + 1) i t ht.2
        simp [CountTable.erase, CountTable.insert, h, h', CountTable.wfFrom, hlo, hi, hc, ht.1.1.2,
          ht.1.2, he]
      · have hk := ih (k + 1) (by omega) ht.2
        simp [CountTable.erase, CountTable.insert, h, h', CountTable.wfFrom, ht.1.1.1, ht.1.1.2,
          ht.1.2, hk]

/-- A write to an index of the table keeps the canonical form. -/
theorem CountTable.wf_write (t : CountTable) {i : Nat} (c : Count) (hi : i < Config.numSymbols)
    (ht : CountTable.wf t = true) : CountTable.wf (CountTable.write t i c) = true := by
  unfold CountTable.write
  split
  · exact CountTable.wfFrom_erase 0 i t ht
  · next hc => exact CountTable.wfFrom_insert_erase 0 i c t (by omega) hi hc ht

theorem CountTable.wfFrom_ofFnFrom (f : Nat → Count) (n k : Nat) (h : k + n ≤ Config.numSymbols) :
    CountTable.wfFrom k (CountTable.ofFnFrom f n k) = true := by
  induction n generalizing k with
  | zero => rfl
  | succ n ih =>
    unfold CountTable.ofFnFrom
    split
    · exact CountTable.wfFrom_mono (by omega) _ (ih (k + 1) (by omega))
    · next hc =>
      have hk : k < Config.numSymbols := by omega
      simp [CountTable.wfFrom, hk, hc, ih (k + 1) (by omega)]

/-- A write of all entries gives a table in canonical form. -/
@[simp] theorem CountTable.wf_ofFn (f : Nat → Count) : CountTable.wf (CountTable.ofFn f) = true :=
  CountTable.wfFrom_ofFnFrom f _ 0 (by omega)

/-- The table right after reset is in canonical form. -/
theorem reset_table_wf : CountTable.wf State.reset.model.cnt = true := rfl

/-! ### Cumulative sums -/

theorem CountTable.cum_succ (t : CountTable) (k : Nat) :
    CountTable.cum t (k + 1) = CountTable.cum t k + (CountTable.read t k).toNat := rfl

theorem CountTable.cum_mono (t : CountTable) {j k : Nat} (h : j ≤ k) :
    CountTable.cum t j ≤ CountTable.cum t k := by
  induction k with
  | zero => simp [Nat.le_zero.mp h]
  | succ k ih =>
    rcases Nat.lt_or_ge k j with h' | h'
    · rw [show j = k + 1 by omega]
    · exact Nat.le_trans (ih h') (by simp [CountTable.cum_succ])

theorem CountTable.cum_congr {t u : CountTable} {k : Nat}
    (h : ∀ i, i < k → CountTable.read t i = CountTable.read u i) :
    CountTable.cum t k = CountTable.cum u k := by
  induction k with
  | zero => rfl
  | succ k ih => simp [CountTable.cum_succ, ih fun i hi => h i (by omega), h k (by omega)]

/-- A write moves the sums above its index by the difference of the counts. -/
theorem CountTable.cum_write (t : CountTable) (i : Nat) (c : Count) (k : Nat) (h : i < k) :
    CountTable.cum (CountTable.write t i c) k + (CountTable.read t i).toNat =
      CountTable.cum t k + c.toNat := by
  induction k with
  | zero => omega
  | succ k ih =>
    by_cases hk : i = k
    · subst hk
      have := CountTable.cum_congr (t := CountTable.write t i c) (u := t) (k := i) fun j hj =>
        CountTable.read_write_other t c (by omega)
      simp [CountTable.cum_succ, this]
      omega
    · have := ih (by omega)
      simp only [CountTable.cum_succ, CountTable.read_write_other t c hk]
      omega

/-! ### The search -/

theorem CountTable.findFrom_some (t : CountTable) (v n k lo s : Nat) (hlo : lo = CountTable.cum t k)
    (hv : lo ≤ v) (h : CountTable.findFrom t v n k lo = some s) :
    k ≤ s ∧ s < k + n ∧ CountTable.cum t s ≤ v ∧ v < CountTable.cum t (s + 1) := by
  induction n generalizing k lo with
  | zero => simp [CountTable.findFrom] at h
  | succ n ih =>
    unfold CountTable.findFrom at h
    split at h
    · next hlt =>
      cases h
      refine ⟨Nat.le_refl _, by omega, by omega, ?_⟩
      rw [CountTable.cum_succ]
      omega
    · have := ih (k + 1) _ (by rw [CountTable.cum_succ, hlo]) (by omega) h
      exact ⟨by omega, by omega, this.2.2⟩

theorem CountTable.findFrom_none (t : CountTable) (v n k lo : Nat) (hlo : lo = CountTable.cum t k)
    (hv : lo ≤ v) (h : CountTable.findFrom t v n k lo = none) : CountTable.cum t (k + n) ≤ v := by
  induction n generalizing k lo with
  | zero => simpa [← hlo] using hv
  | succ n ih =>
    unfold CountTable.findFrom at h
    split at h
    · cases h
    · have := ih (k + 1) _ (by rw [CountTable.cum_succ, hlo]) (by omega) h
      rwa [show k + (n + 1) = k + 1 + n by omega]

/-- What `symbolAt` finds is a symbol whose range holds the value (R115). -/
theorem CountTable.symbolAt_some (t : CountTable) (v s : Nat) (h : CountTable.symbolAt t v = some s) :
    s < Config.numSymbols ∧ CountTable.cum t s ≤ v ∧ v < CountTable.cum t (s + 1) := by
  have := CountTable.findFrom_some t v _ 0 0 s rfl (by omega) h
  exact ⟨by omega, this.2.2⟩

/-- `symbolAt` finds nothing only at or above the sum of all counts (R45). -/
theorem CountTable.symbolAt_none (t : CountTable) (v : Nat) (h : CountTable.symbolAt t v = none) :
    CountTable.cum t Config.numSymbols ≤ v := by
  simpa using CountTable.findFrom_none t v _ 0 0 rfl (by omega) h

/-- The range that holds a value is unique (R45, R116). -/
theorem CountTable.range_unique (t : CountTable) {v j k : Nat}
    (hj : CountTable.cum t j ≤ v ∧ v < CountTable.cum t (j + 1))
    (hk : CountTable.cum t k ≤ v ∧ v < CountTable.cum t (k + 1)) : j = k := by
  rcases Nat.lt_trichotomy j k with h | h | h
  · have := CountTable.cum_mono t (show j + 1 ≤ k by omega)
    omega
  · exact h
  · have := CountTable.cum_mono t (show k + 1 ≤ j by omega)
    omega

end Sys2Proof.Machine
end

