-- ==== Sys2Proof/Laws/Ops.lean ====
section
/-! SUPPORT. What each shared operation can do, said once: field by field for the operations that always
answer a state, by cases for those that may raise or wait. -/

namespace Sys2Proof.Machine

/-! ### Responses and faults -/

@[simp] theorem State.respond_iv (s : State) (c : BitVec 4) (d : Word) : (s.respond c d).iv = s.iv := rfl

@[simp] theorem State.respond_latch (s : State) (c : BitVec 4) (d : Word) :
    (s.respond c d).latch = s.latch := rfl

@[simp] theorem State.respond_model (s : State) (c : BitVec 4) (d : Word) :
    (s.respond c d).model = s.model := rfl

@[simp] theorem State.respond_st (s : State) (c : BitVec 4) (d : Word) : (s.respond c d).st = s.st := rfl

@[simp] theorem State.respond_faults (s : State) (c : BitVec 4) (d : Word) :
    (s.respond c d).faults = s.faults := rfl

@[simp] theorem State.respond_draws (s : State) (c : BitVec 4) (d : Word) :
    (s.respond c d).draws = s.draws := rfl

/-- A response changes the channels by itself alone (R90). -/
@[simp] theorem State.respond_chan (s : State) (c : BitVec 4) (d : Word) :
    (s.respond c d).chan =
      { s.chan with responses := s.chan.responses ++ [{ status := c, data := d }] } := rfl

/-- The answer `OK` is a response with status 0 (R91). -/
theorem State.respondOk_eq (s : State) (d : Word) : s.respondOk d = s.respond 0#4 d := rfl

@[simp] theorem State.respondOk_iv (s : State) (d : Word) : (s.respondOk d).iv = s.iv := rfl

@[simp] theorem State.respondOk_latch (s : State) (d : Word) : (s.respondOk d).latch = s.latch := rfl

@[simp] theorem State.respondOk_model (s : State) (d : Word) : (s.respondOk d).model = s.model := rfl

@[simp] theorem State.respondOk_st (s : State) (d : Word) : (s.respondOk d).st = s.st := rfl

@[simp] theorem State.respondOk_faults (s : State) (d : Word) : (s.respondOk d).faults = s.faults := rfl

@[simp] theorem State.respondOk_draws (s : State) (d : Word) : (s.respondOk d).draws = s.draws := rfl

@[simp] theorem State.respondOk_chan (s : State) (d : Word) :
    (s.respondOk d).chan =
      { s.chan with responses := s.chan.responses ++ [{ status := 0#4, data := d }] } := rfl

@[simp] theorem State.raise_iv (s : State) (k : FaultKind) (w : Word) : (s.raise k w).iv = s.iv := rfl

@[simp] theorem State.raise_latch (s : State) (k : FaultKind) (w : Word) :
    (s.raise k w).latch = s.latch := rfl

@[simp] theorem State.raise_model (s : State) (k : FaultKind) (w : Word) :
    (s.raise k w).model = s.model := rfl

@[simp] theorem State.raise_st (s : State) (k : FaultKind) (w : Word) : (s.raise k w).st = .fault := rfl

@[simp] theorem State.raise_faults (s : State) (k : FaultKind) (w : Word) :
    (s.raise k w).faults = s.faults.record k w := rfl

@[simp] theorem State.raise_draws (s : State) (k : FaultKind) (w : Word) :
    (s.raise k w).draws = s.draws := rfl

/-- A fault's entry changes the channels by its response alone (R230). -/
@[simp] theorem State.raise_chan (s : State) (k : FaultKind) (w : Word) :
    (s.raise k w).chan =
      { s.chan with responses := s.chan.responses ++ [{ status := k.code, data := 0 }] } := rfl

@[simp] theorem State.raiseMid_iv (s : State) (k : FaultKind) (w : Word) :
    (s.raiseMid k w).iv = freeInterval s.draws := rfl

@[simp] theorem State.raiseMid_latch (s : State) (k : FaultKind) (w : Word) :
    (s.raiseMid k w).latch = s.latch := rfl

@[simp] theorem State.raiseMid_model (s : State) (k : FaultKind) (w : Word) :
    (s.raiseMid k w).model = s.model := rfl

@[simp] theorem State.raiseMid_st (s : State) (k : FaultKind) (w : Word) :
    (s.raiseMid k w).st = .fault := rfl

@[simp] theorem State.raiseMid_faults (s : State) (k : FaultKind) (w : Word) :
    (s.raiseMid k w).faults = s.faults.record k w := rfl

@[simp] theorem State.raiseMid_draws (s : State) (k : FaultKind) (w : Word) :
    (s.raiseMid k w).draws = s.draws + 1 := rfl

@[simp] theorem State.raiseMid_chan (s : State) (k : FaultKind) (w : Word) :
    (s.raiseMid k w).chan =
      { s.chan with responses := s.chan.responses ++ [{ status := k.code, data := 0 }] } := rfl

/-- Only the first fault since reset is recorded in `FCAUSE` and `FCMD` (R36, R37, R230). -/
theorem FaultRegs.record_later (f : FaultRegs) (k : FaultKind) (w : Word) (h : f.fcause ≠ 0#4) :
    (f.record k w).fcause = f.fcause ∧ (f.record k w).fcmd = f.fcmd := by
  cases k <;> simp [FaultRegs.record, FaultRegs.setFlag, FaultRegs.setFirst, h]

theorem FaultRegs.record_first (f : FaultRegs) (k : FaultKind) (w : Word) (h : f.fcause = 0#4) :
    (f.record k w).fcause = k.code ∧ (f.record k w).fcmd = w := by
  cases k <;> simp [FaultRegs.record, FaultRegs.setFlag, FaultRegs.setFirst, h]

/-- A raise leaves `FCAUSE` nonzero (R36). -/
theorem FaultRegs.record_fcause_ne (f : FaultRegs) (k : FaultKind) (w : Word) :
    (f.record k w).fcause ≠ 0#4 := by
  by_cases h : f.fcause = 0#4
  · rw [(FaultRegs.record_first f k w h).1]
    cases k <;> decide
  · rw [(FaultRegs.record_later f k w h).1]
    exact h

/-! ### Reset -/

@[simp] theorem State.resetRegs_iv (s : State) : s.resetRegs.iv = .zero := rfl

@[simp] theorem State.resetRegs_latch (s : State) : s.resetRegs.latch = .zero := rfl

@[simp] theorem State.resetRegs_model (s : State) :
    s.resetRegs.model = { cnt := freeTable s.draws, tot := 0, mode := .adaptive, mvalid := false } := rfl

@[simp] theorem State.resetRegs_st (s : State) : s.resetRegs.st = .idle := rfl

@[simp] theorem State.resetRegs_faults (s : State) : s.resetRegs.faults = .zero := rfl

@[simp] theorem State.resetRegs_chan (s : State) : s.resetRegs.chan = s.chan := rfl

@[simp] theorem State.resetRegs_draws (s : State) : s.resetRegs.draws = s.draws + 1 := rfl

/-- Whatever a reset leaves in the count table, its form is canonical. -/
@[simp] theorem freeTable_wf (n : Nat) : CountTable.wf (freeTable n) = true := CountTable.wf_ofFn _

/-- The hardware reset leaves the registers that the command `RESET` leaves (R255). -/
theorem State.hardwareReset_regs (s : State) (a : List SinkAnswer) (b : List SourceAnswer) :
    (s.hardwareReset a b).iv = .zero ∧ (s.hardwareReset a b).latch = .zero ∧
      (s.hardwareReset a b).model = s.resetRegs.model ∧ (s.hardwareReset a b).st = .idle ∧
      (s.hardwareReset a b).faults = .zero := ⟨rfl, rfl, rfl, rfl, rfl⟩

/-! ### Parts of a command -/

@[simp] theorem Flow.andThen_goesOn {α β : Type} (a : α) (s : State) (f : α → State → Flow β) :
    (Flow.goesOn a s).andThen f = f a s := rfl

@[simp] theorem Flow.andThen_raises {α β : Type} (k : FaultKind) (s : State)
    (f : α → State → Flow β) : (Flow.raises k s : Flow α).andThen f = .raises k s := rfl

@[simp] theorem Flow.andThen_waits {α β : Type} (s : State) (f : α → State → Flow β) :
    (Flow.waits s : Flow α).andThen f = .waits s := rfl

/-- The state in which a part of a command ends, however it ends. -/
def Flow.state {α : Type} : Flow α → State
  | .goesOn _ s => s
  | .raises _ s => s
  | .waits s => s

/-- A property that the first part ensures and the second keeps holds at the end of both. -/
theorem Flow.andThen_state {α β : Type} {P : State → Prop} (x : Flow α) (f : α → State → Flow β)
    (hx : P x.state) (hf : ∀ a s, P s → P (f a s).state) : P (x.andThen f).state := by
  cases x with
  | goesOn a s => exact hf a s hx
  | raises k s => exact hx
  | waits s => exact hx

/-- The registers outside the interval unit, which no part of an interval command touches. -/
def State.sameRest (s t : State) : Prop :=
  t.latch = s.latch ∧ t.model = s.model ∧ t.st = s.st ∧ t.faults = s.faults ∧ t.draws = s.draws ∧
    t.chan.inputs = s.chan.inputs ∧ t.chan.responses = s.chan.responses

theorem State.sameRest_refl (s : State) : s.sameRest s := ⟨rfl, rfl, rfl, rfl, rfl, rfl, rfl⟩

theorem State.sameRest_trans {s t u : State} (h : s.sameRest t) (h' : t.sameRest u) : s.sameRest u := by
  obtain ⟨a, b, c, d, e, f, g⟩ := h
  obtain ⟨a', b', c', d', e', f', g'⟩ := h'
  exact ⟨a'.trans a, b'.trans b, c'.trans c, d'.trans d, e'.trans e, f'.trans f, g'.trans g⟩

theorem State.sameRest_setIv {s t : State} (v : Interval) (h : s.sameRest t) : s.sameRest (t.setIv v) := h

/-- What a bit-out request does, by the sink's answer (R70, R71). -/
theorem State.sendOut_ok (s : State) (e : OutEvent) (rest : List SinkAnswer)
    (h : s.chan.sinkAnswers = .ok :: rest) :
    s.sendOut e =
      .goesOn () (s.setChan { s.chan with sinkAnswers := rest, events := s.chan.events ++ [e] }) := by
  simp [State.sendOut, h]

theorem State.sendOut_fail (s : State) (e : OutEvent) (rest : List SinkAnswer)
    (h : s.chan.sinkAnswers = .fail :: rest) :
    s.sendOut e = .raises .ioError (s.setChan { s.chan with sinkAnswers := rest }) := by
  simp [State.sendOut, h]

theorem State.sendOut_silent (s : State) (e : OutEvent) (h : s.chan.sinkAnswers = []) :
    s.sendOut e = .waits (s.setChan { s.chan with waiting := some (.out e) }) := by
  simp [State.sendOut, h]

/-- A bit-out request changes the channels only. -/
theorem State.sendOut_sameRest (s : State) (e : OutEvent) :
    s.sameRest (s.sendOut e).state ∧ (s.sendOut e).state.iv = s.iv := by
  unfold State.sendOut
  split <;> exact ⟨⟨rfl, rfl, rfl, rfl, rfl, rfl, rfl⟩, rfl⟩

theorem State.emitTimes_sameRest (n : Nat) (b : Bool) (s : State) :
    s.sameRest (State.emitTimes n b s).state ∧ (State.emitTimes n b s).state.iv = s.iv := by
  induction n generalizing s with
  | zero => exact ⟨s.sameRest_refl, rfl⟩
  | succ n ih =>
    refine Flow.andThen_state (P := fun t => s.sameRest t ∧ t.iv = s.iv) _ _
      (s.sendOut_sameRest _) fun _ t ht => ?_
    exact ⟨State.sameRest_trans ht.1 (ih t).1, (ih t).2.trans ht.2⟩

/-- With enough `ok` answers, `n` bits go out (R70). -/
theorem State.emitTimes_ok (n : Nat) (b : Bool) (s : State) (rest : List SinkAnswer)
    (h : s.chan.sinkAnswers = List.replicate n .ok ++ rest) :
    State.emitTimes n b s =
      .goesOn () (s.setChan
        { s.chan with
          sinkAnswers := rest
          events := s.chan.events ++ List.replicate n (.emit b) }) := by
  induction n generalizing s with
  | zero =>
    simp only [List.replicate, List.nil_append] at h
    subst h
    simp [State.emitTimes, State.setChan]
  | succ n ih =>
    rw [List.replicate_succ, List.cons_append] at h
    simp only [State.emitTimes, State.emit, State.sendOut_ok s _ _ h, Flow.andThen_goesOn]
    rw [ih _ rfl]
    simp [State.setChan, List.replicate_succ]

/-- A bit-in request changes the channels and `EOSCNT` only (R72). -/
theorem State.readBit_sameRest (s : State) : s.sameRest s.readBit.state := by
  unfold State.readBit
  split
  · exact ⟨rfl, rfl, rfl, rfl, rfl, rfl, rfl⟩
  · exact ⟨rfl, rfl, rfl, rfl, rfl, rfl, rfl⟩
  · exact ⟨rfl, rfl, rfl, rfl, rfl, rfl, rfl⟩
  · split <;> exact ⟨rfl, rfl, rfl, rfl, rfl, rfl, rfl⟩

/-! ### The shape of a command -/

/-- A guarded command that is well formed and legal is its effect (R8). -/
theorem guarded_legal (i : Instr) (s : State) (body : Result) (hi : i.wellFormed = true)
    (hl : s.legal i = true) : guarded i s body = body := by
  simp [guarded, operandsOk, hi, hl]

/-- One that is not raises `IllegalCommand` (R225). -/
theorem guarded_illegal (i : Instr) (s : State) (body : Result)
    (h : i.wellFormed = false ∨ s.legal i = false) :
    guarded i s body = .next (s.raise .illegalCommand (encode i)) := by
  rcases h with h | h <;> simp [guarded, operandsOk, faultPre, h]

/-- If a guarded command answers `t`, it was legal and `t` is its effect's answer, or `t` is the
entry of `IllegalCommand`. -/
theorem guarded_next {i : Instr} {s t : State} {body : Result} (h : guarded i s body = .next t) :
    (i.wellFormed = true ∧ s.legal i = true ∧ body = .next t) ∨
      (¬(i.wellFormed = true ∧ s.legal i = true) ∧ t = s.raise .illegalCommand (encode i)) := by
  unfold guarded at h
  split at h
  · next hc => exact .inl ⟨by simp_all [operandsOk], by simp_all, h⟩
  · next hc =>
    simp only [faultPre, Host.Outcome.next.injEq] at h
    exact .inr ⟨by simpa [operandsOk] using hc, h.symm⟩

/-- How a command with channel requests ends (R8, R70, R229). -/
theorem finish_next {i : Instr} {d : Word} {x : Flow Unit} {t : State} (h : finish i d x = .next t) :
    (∃ s, x = .goesOn () s ∧ t = s.respondOk d) ∨
      (∃ k s, x = .raises k s ∧ t = s.raiseMid k (encode i)) ∨ x = .waits t := by
  cases x with
  | goesOn a s =>
    simp only [finish, Host.Outcome.next.injEq] at h
    exact .inl ⟨s, rfl, h.symm⟩
  | raises k s =>
    simp only [finish, Host.Outcome.next.injEq] at h
    exact .inr (.inl ⟨k, s, rfl, h.symm⟩)
  | waits s =>
    simp only [finish, Host.Outcome.next.injEq] at h
    exact .inr (.inr (by rw [h]))

end Sys2Proof.Machine
end

