-- ==== Sys2Proof/Laws/Interval.lean ====
section
/-! SUPPORT. What the interval unit can do: the narrowing stays in range, and the loops change the
interval and the channels only. -/

namespace Sys2Proof.Machine

/-- What `narrow` answers, when it does (R141). -/
theorem narrow_some {lo hi nl nh : Bound} {rl rh rt : Count} (h : narrow lo hi rl rh rt = some (nl, nh)) :
    nl.toNat = lo.toNat + (hi.toNat + 1 - lo.toNat) * rl.toNat / rt.toNat ∧
      nh.toNat + 1 = lo.toNat + (hi.toNat + 1 - lo.toNat) * rh.toNat / rt.toNat ∧
      nl.toNat ≤ nh.toNat := by
  simp only [narrow] at h
  generalize (hi.toNat + 1 - lo.toNat) * rl.toNat / rt.toNat = a at h ⊢
  generalize (hi.toNat + 1 - lo.toNat) * rh.toNat / rt.toNat = b at h ⊢
  split at h
  · cases h
  · next hab =>
    split at h
    · cases h
    · next hmax =>
      simp only [Option.some.injEq, Prod.mk.injEq] at h
      obtain ⟨rfl, rfl⟩ := h
      have hm : Config.maxBound.toNat = 65535 := rfl
      simp only [BitVec.toNat_ofNat]
      omega

theorem State.emitTop_sameRest (s : State) : s.sameRest s.emitTop.state := by
  refine Flow.andThen_state (P := s.sameRest) _ _ (s.sendOut_sameRest _).1 fun _ t ht => ?_
  refine Flow.andThen_state (P := s.sameRest) _ _
    (State.sameRest_trans ht (State.emitTimes_sameRest _ _ t).1) fun _ u hu => hu

theorem State.deferBit_sameRest (s : State) : s.sameRest s.deferBit.state := by
  unfold State.deferBit
  split <;> exact ⟨rfl, rfl, rfl, rfl, rfl, rfl, rfl⟩

/-- `RenormE` changes the interval and the channels only (R145 "State written"). -/
theorem renormE_sameRest (n : Nat) (s : State) : s.sameRest (renormE n s).state := by
  induction n generalizing s with
  | zero => exact s.sameRest_refl
  | succ n ih =>
    unfold renormE
    split
    · exact Flow.andThen_state (P := s.sameRest) _ _ s.emitTop_sameRest fun _ t ht =>
        State.sameRest_trans ht (ih t)
    · split
      · exact Flow.andThen_state (P := s.sameRest) _ _ s.deferBit_sameRest fun _ t ht =>
          State.sameRest_trans ht (ih t)
      · exact s.sameRest_refl

/-- `RenormD` changes the interval and the channels only (R175 "State written"). -/
theorem renormD_sameRest (n : Nat) (s : State) : s.sameRest (renormD n s).state := by
  induction n generalizing s with
  | zero => exact s.sameRest_refl
  | succ n ih =>
    unfold renormD
    split
    · refine Flow.andThen_state (P := s.sameRest) _ _ ?_ fun _ t ht => State.sameRest_trans ht (ih _)
      exact (s.setIv s.iv.shift).readBit_sameRest
    · split
      · refine Flow.andThen_state (P := s.sameRest) _ _ ?_ fun _ t ht => State.sameRest_trans ht (ih _)
        exact (s.setIv s.iv.widen).readBit_sameRest
      · exact s.sameRest_refl

theorem fillCode_sameRest (n : Nat) (s : State) : s.sameRest (fillCode n s).state := by
  induction n generalizing s with
  | zero => exact s.sameRest_refl
  | succ n ih =>
    exact Flow.andThen_state (P := s.sameRest) _ _ s.readBit_sameRest fun _ t ht =>
      State.sameRest_trans ht (ih _)

end Sys2Proof.Machine
end

