-- ==== Sys2Proof/Laws/Exec.lean ====
section
/-! SUPPORT. What one command can do, said once: the inversion of `exec`. -/

namespace Sys2Proof.Machine

/-- The kinds a command can raise before any change of its own, legality apart (R229 "pre"). -/
def preKind (i : Instr) (k : FaultKind) : Prop :=
  (k = .modelError ∧ ((∃ x v, i = .ldcnt x v) ∨ ∃ x, i = .getprob x)) ∨
    (k = .precisionError ∧ (i = .esym ∨ i = .dsym)) ∨
    (k = .corruptStreamError ∧ (i = .getcnt ∨ i = .getsym))

/-- The kinds a command can raise in mid-command (R229 "mid"). -/
def midKind (i : Instr) (k : FaultKind) : Prop :=
  (k = .ioError ∧ (i = .esym ∨ i = .efinish ∨ i = .dbegin ∨ i = .dsym)) ∨
    (k = .precisionError ∧ i = .esym) ∨ (k = .corruptStreamError ∧ (i = .dbegin ∨ i = .dsym))

/-- A success without a channel request writes only what its rule names (R20 "written by"). -/
structure Quiet (i : Instr) (s t : State) : Prop where
  answered : ∃ d, t.chan =
    { s.chan with responses := s.chan.responses ++ [{ status := 0#4, data := d }] }
  faults : i ≠ .reset → t.faults = s.faults
  draws : i ≠ .reset → t.draws = s.draws
  model : (∀ m, i ≠ .minit m) → (∀ x v, i ≠ .ldcnt x v) → (∀ x, i ≠ .update x) → i ≠ .reset →
    t.model = s.model
  mode : (∀ m, i ≠ .minit m) → i ≠ .reset →
    t.model.mode = s.model.mode ∧ t.model.mvalid = s.model.mvalid
  iv : i ≠ .ebegin → i ≠ .reset → t.iv = s.iv
  latch : (∀ x, i ≠ .getprob x) → i ≠ .getsym → i ≠ .getcnt → i ≠ .reset → t.latch = s.latch

/-- The effect of the four commands with channel requests, after their own tests. -/
def State.effect (s : State) : Instr → Option (Flow Unit)
  | .esym => s.narrowed.map fun b => (s.setBounds b.1 b.2).encodeFrom
  | .efinish => some s.finishRun
  | .dbegin => some s.beginDecode
  | .dsym =>
    if s.latch.sym = Config.eos then none
    else s.narrowed.map fun b => (s.setBounds b.1 b.2).decodeFrom
  | _ => none

/-- How `exec` can answer: the entry of `IllegalCommand`, a fault before any change, a success without a
channel request, or the end of an effect with channel requests. -/
inductive Answers (i : Instr) (s t : State) : Prop where
  | illegal (h : t = s.raise .illegalCommand (encode i))
  | pre (k : FaultKind) (hl : s.legal i = true) (hk : preKind i k) (h : t = s.raise k (encode i))
  | quiet (hw : i.wellFormed = true) (hl : s.legal i = true) (h : Quiet i s t)
  | effect (hl : s.legal i = true) (x : Flow Unit) (hx : s.effect i = some x)
      (h : finish i 0 x = .next t)

theorem faultPre_next {k : FaultKind} {i : Instr} {s t : State} (h : faultPre k i s = .next t) :
    t = s.raise k (encode i) := by
  simpa [faultPre, eq_comm] using h

theorem next_eq {a b : State} (h : (.next a : Result) = .next b) : b = a := by
  cases h
  rfl

theorem Model.update_flags (m : Model) (x : Symbol) :
    (m.update x).mode = m.mode ∧ (m.update x).mvalid = m.mvalid := by
  unfold Model.update
  split <;> exact ⟨rfl, rfl⟩

theorem execNop_cases {s t : State} (h : execNop s = .next t) : Answers .nop s t := by
  rcases guarded_next h with ⟨hw, hl, h⟩ | ⟨_, h⟩
  · obtain rfl := next_eq h
    exact .quiet hw hl ⟨⟨_, rfl⟩, by simp, by simp, by simp, by simp, by simp, by simp⟩
  · exact .illegal h

theorem execReset_cases {s t : State} (h : execReset s = .next t) : Answers .reset s t := by
  rcases guarded_next h with ⟨hw, hl, h⟩ | ⟨_, h⟩
  · obtain rfl := next_eq h
    exact .quiet hw hl ⟨⟨_, rfl⟩, by simp, by simp, by simp, by simp, by simp, by simp⟩
  · exact .illegal h

theorem execRdreg_cases {r : RegNo} {s t : State} (h : execRdreg r s = .next t) :
    Answers (.rdreg r) s t := by
  rcases guarded_next h with ⟨hw, hl, h⟩ | ⟨_, h⟩
  · split at h
    · obtain rfl := next_eq h
      exact .quiet hw hl ⟨⟨_, rfl⟩, by simp, by simp, by simp, by simp, by simp, by simp⟩
    · exact .illegal (faultPre_next h)
  · exact .illegal h

theorem execMinit_cases {m : Mode} {s t : State} (h : execMinit m s = .next t) :
    Answers (.minit m) s t := by
  rcases guarded_next h with ⟨hw, hl, h⟩ | ⟨_, h⟩
  · obtain rfl := next_eq h
    exact .quiet hw hl ⟨⟨_, rfl⟩, by simp, by simp, by simp, by simp, by simp, by simp⟩
  · exact .illegal h

theorem execLdcnt_cases {x : Symbol} {v : Count} {s t : State} (h : execLdcnt x v s = .next t) :
    Answers (.ldcnt x v) s t := by
  have hk : preKind (.ldcnt x v) .modelError := .inl ⟨rfl, .inl ⟨x, v, rfl⟩⟩
  rcases guarded_next h with ⟨hw, hl, h⟩ | ⟨_, h⟩
  · split at h
    · exact .pre _ hl hk (faultPre_next h)
    · split at h
      · exact .pre _ hl hk (faultPre_next h)
      · split at h
        · exact .pre _ hl hk (faultPre_next h)
        · split at h
          · exact .pre _ hl hk (faultPre_next h)
          · obtain rfl := next_eq h
            exact .quiet hw hl ⟨⟨_, rfl⟩, by simp, by simp, by simp, by simp, by simp, by simp⟩
  · exact .illegal h

theorem execRdcnt_cases {x : Symbol} {s t : State} (h : execRdcnt x s = .next t) :
    Answers (.rdcnt x) s t := by
  rcases guarded_next h with ⟨hw, hl, h⟩ | ⟨_, h⟩
  · obtain rfl := next_eq h
    exact .quiet hw hl ⟨⟨_, rfl⟩, by simp, by simp, by simp, by simp, by simp, by simp⟩
  · exact .illegal h

theorem execGetprob_cases {x : Symbol} {s t : State} (h : execGetprob x s = .next t) :
    Answers (.getprob x) s t := by
  rcases guarded_next h with ⟨hw, hl, h⟩ | ⟨_, h⟩
  · split at h
    · exact .pre _ hl (.inl ⟨rfl, .inr ⟨x, rfl⟩⟩) (faultPre_next h)
    · obtain rfl := next_eq h
      exact .quiet hw hl ⟨⟨_, rfl⟩, by simp, by simp, by simp, by simp, by simp, by simp⟩
  · exact .illegal h

theorem execGetsym_cases {s t : State} (h : execGetsym s = .next t) : Answers .getsym s t := by
  have hk : preKind .getsym .corruptStreamError := .inr (.inr ⟨rfl, .inr rfl⟩)
  rcases guarded_next h with ⟨hw, hl, h⟩ | ⟨_, h⟩
  · split at h
    · exact .pre _ hl hk (faultPre_next h)
    · split at h
      · exact .pre _ hl hk (faultPre_next h)
      · split at h
        · obtain rfl := next_eq h
          exact .quiet hw hl ⟨⟨_, rfl⟩, by simp, by simp, by simp, by simp, by simp, by simp⟩
        · exact .pre _ hl hk (faultPre_next h)
  · exact .illegal h

theorem execUpdate_cases {x : Symbol} {s t : State} (h : execUpdate x s = .next t) :
    Answers (.update x) s t := by
  rcases guarded_next h with ⟨hw, hl, h⟩ | ⟨_, h⟩
  · obtain rfl := next_eq h
    exact .quiet hw hl
      ⟨⟨_, rfl⟩, by simp, by simp, by simp, by simp [Model.update_flags], by simp, by simp⟩
  · exact .illegal h

theorem execEbegin_cases {s t : State} (h : execEbegin s = .next t) : Answers .ebegin s t := by
  rcases guarded_next h with ⟨hw, hl, h⟩ | ⟨_, h⟩
  · obtain rfl := next_eq h
    exact .quiet hw hl ⟨⟨_, rfl⟩, by simp, by simp, by simp, by simp, by simp, by simp⟩
  · exact .illegal h

theorem execEsym_cases {s t : State} (h : execEsym s = .next t) : Answers .esym s t := by
  rcases guarded_next h with ⟨hw, hl, h⟩ | ⟨_, h⟩
  · split at h
    · exact .pre _ hl (.inr (.inl ⟨rfl, .inl rfl⟩)) (faultPre_next h)
    · next nl nh hn => exact .effect hl _ (by simp [State.effect, hn]) h
  · exact .illegal h

theorem execEfinish_cases {s t : State} (h : execEfinish s = .next t) : Answers .efinish s t := by
  rcases guarded_next h with ⟨hw, hl, h⟩ | ⟨_, h⟩
  · exact .effect hl _ rfl h
  · exact .illegal h

theorem execDbegin_cases {s t : State} (h : execDbegin s = .next t) : Answers .dbegin s t := by
  rcases guarded_next h with ⟨hw, hl, h⟩ | ⟨_, h⟩
  · exact .effect hl _ rfl h
  · exact .illegal h

theorem execGetcnt_cases {s t : State} (h : execGetcnt s = .next t) : Answers .getcnt s t := by
  rcases guarded_next h with ⟨hw, hl, h⟩ | ⟨_, h⟩
  · split at h
    · exact .pre _ hl (.inr (.inr ⟨rfl, .inl rfl⟩)) (faultPre_next h)
    · obtain rfl := next_eq h
      exact .quiet hw hl ⟨⟨_, rfl⟩, by simp, by simp, by simp, by simp, by simp, by simp⟩
  · exact .illegal h

theorem execDsym_cases {s t : State} (h : execDsym s = .next t) : Answers .dsym s t := by
  rcases guarded_next h with ⟨hw, hl, h⟩ | ⟨_, h⟩
  · split at h
    · obtain rfl := next_eq h
      exact .quiet hw hl ⟨⟨_, rfl⟩, by simp, by simp, by simp, by simp, by simp, by simp⟩
    · next he =>
      split at h
      · exact .pre _ hl (.inr (.inl ⟨rfl, .inr rfl⟩)) (faultPre_next h)
      · next nl nh hn => exact .effect hl _ (by simp [State.effect, he, hn]) h
  · exact .illegal h

/-- The inversion of `exec`: how a command can answer `t`. -/
theorem exec_cases {i : Instr} {s t : State} (h : exec i s = .next t) : Answers i s t := by
  cases i with
  | nop => exact execNop_cases h
  | reset => exact execReset_cases h
  | minit m => exact execMinit_cases h
  | ldcnt x v => exact execLdcnt_cases h
  | rdcnt x => exact execRdcnt_cases h
  | getprob x => exact execGetprob_cases h
  | getsym => exact execGetsym_cases h
  | update x => exact execUpdate_cases h
  | ebegin => exact execEbegin_cases h
  | esym => exact execEsym_cases h
  | efinish => exact execEfinish_cases h
  | dbegin => exact execDbegin_cases h
  | getcnt => exact execGetcnt_cases h
  | dsym => exact execDsym_cases h
  | rdreg r => exact execRdreg_cases h

/-! ### The effects with channel requests -/

/-- The registers that no effect touches before it ends: the model, the latches, the fault registers, the
commands to come and the responses given. -/
def State.sameRun (s t : State) : Prop :=
  t.latch = s.latch ∧ t.model = s.model ∧ t.faults = s.faults ∧ t.draws = s.draws ∧
    t.chan.inputs = s.chan.inputs ∧ t.chan.responses = s.chan.responses

theorem State.sameRun_of_sameRest {s t : State} (h : s.sameRest t) : s.sameRun t :=
  ⟨h.1, h.2.1, h.2.2.2.1, h.2.2.2.2.1, h.2.2.2.2.2.1, h.2.2.2.2.2.2⟩

theorem State.sameRun_trans {s t u : State} (h : s.sameRun t) (h' : t.sameRun u) : s.sameRun u := by
  obtain ⟨a, b, c, d, e, f⟩ := h
  obtain ⟨a', b', c', d', e', f'⟩ := h'
  exact ⟨a'.trans a, b'.trans b, c'.trans c, d'.trans d, e'.trans e, f'.trans f⟩

theorem State.encodeFrom_sameRun (s : State) : s.sameRun s.encodeFrom.state :=
  Flow.andThen_state (P := s.sameRun) _ _ (State.sameRun_of_sameRest (renormE_sameRest _ s))
    fun _ _ ht => ht

theorem State.decodeFrom_sameRun (s : State) : s.sameRun s.decodeFrom.state :=
  Flow.andThen_state (P := s.sameRun) _ _ (State.sameRun_of_sameRest (renormD_sameRest _ s))
    fun _ _ ht => ht

theorem State.beginDecode_sameRun (s : State) : s.sameRun s.beginDecode.state :=
  Flow.andThen_state (P := s.sameRun) _ _
    (State.sameRun_of_sameRest (fillCode_sameRest _ (s.setIv .begin))) fun _ _ ht => ht

theorem State.finishRun_sameRun (s : State) : s.sameRun s.finishRun.state := by
  have h0 : s.sameRun (s.setSt .encFlush) := ⟨rfl, rfl, rfl, rfl, rfl, rfl⟩
  refine Flow.andThen_state (P := s.sameRun) _ _
    (State.sameRun_trans h0
      (State.sameRun_of_sameRest ((s.setSt .encFlush).sendOut_sameRest _).1)) fun _ t ht => ?_
  refine Flow.andThen_state (P := s.sameRun) _ _
    (State.sameRun_trans ht (State.sameRun_of_sameRest (State.emitTimes_sameRest _ _ t).1))
    fun _ u hu => ?_
  exact Flow.andThen_state (P := s.sameRun) _ _
    (State.sameRun_trans hu
      (State.sameRun_of_sameRest ((u.setIv { u.iv with pend := 0#32 }).sendOut_sameRest _).1))
    fun _ _ hv => hv

/-- Whatever an effect does, it ends with the model, the latches and the fault registers unchanged. -/
theorem State.effect_sameRun {s : State} {i : Instr} {x : Flow Unit} (h : s.effect i = some x) :
    s.sameRun x.state := by
  cases i <;> simp only [State.effect, Option.some.injEq, reduceCtorEq] at h
  case esym =>
    obtain ⟨b, _, rfl⟩ := Option.map_eq_some_iff.mp h
    exact (s.setBounds b.1 b.2).encodeFrom_sameRun
  case efinish => exact h ▸ s.finishRun_sameRun
  case dbegin => exact h ▸ s.beginDecode_sameRun
  case dsym =>
    split at h
    · cases h
    · obtain ⟨b, _, rfl⟩ := Option.map_eq_some_iff.mp h
      exact (s.setBounds b.1 b.2).decodeFrom_sameRun

/-! ### The kinds an effect can raise -/

/-- If the part raises, it raises one of the kinds `K`. -/
def Flow.onlyRaises {α : Type} (K : FaultKind → Prop) : Flow α → Prop
  | .goesOn _ _ => True
  | .raises k _ => K k
  | .waits _ => True

theorem Flow.andThen_onlyRaises {α β : Type} {K : FaultKind → Prop} (x : Flow α)
    (f : α → State → Flow β) (hx : x.onlyRaises K) (hf : ∀ a s, (f a s).onlyRaises K) :
    (x.andThen f).onlyRaises K := by
  cases x with
  | goesOn a s => exact hf a s
  | raises k s => exact hx
  | waits s => trivial

/-- The sink raises `IOError` only (R223). -/
theorem State.sendOut_onlyRaises {K : FaultKind → Prop} (hK : K .ioError) (s : State) (e : OutEvent) :
    (s.sendOut e).onlyRaises K := by
  unfold State.sendOut
  split
  · trivial
  · trivial
  · exact hK

theorem State.emitTimes_onlyRaises {K : FaultKind → Prop} (hK : K .ioError) (n : Nat) (b : Bool)
    (s : State) : (State.emitTimes n b s).onlyRaises K := by
  induction n generalizing s with
  | zero => trivial
  | succ n ih => exact Flow.andThen_onlyRaises _ _ (s.sendOut_onlyRaises hK _) fun _ t => ih t

/-- The source raises `IOError` or `CorruptStreamError` only (R72). -/
theorem State.readBit_onlyRaises {K : FaultKind → Prop} (hK : K .ioError)
    (hC : K .corruptStreamError) (s : State) : s.readBit.onlyRaises K := by
  unfold State.readBit
  split
  · trivial
  · exact hK
  · trivial
  · split
    · exact hC
    · trivial

theorem renormE_onlyRaises {K : FaultKind → Prop} (hK : K .ioError) (hP : K .precisionError) (n : Nat)
    (s : State) : (renormE n s).onlyRaises K := by
  induction n generalizing s with
  | zero => trivial
  | succ n ih =>
    unfold renormE
    split
    · refine Flow.andThen_onlyRaises _ _ ?_ fun _ t => ih t
      exact Flow.andThen_onlyRaises _ _ (s.sendOut_onlyRaises hK _) fun _ t =>
        Flow.andThen_onlyRaises _ _ (State.emitTimes_onlyRaises hK _ _ t) fun _ _ => trivial
    · split
      · refine Flow.andThen_onlyRaises _ _ ?_ fun _ t => ih t
        unfold State.deferBit
        split
        · exact hP
        · trivial
      · trivial

theorem renormD_onlyRaises {K : FaultKind → Prop} (hK : K .ioError) (hC : K .corruptStreamError)
    (n : Nat) (s : State) : (renormD n s).onlyRaises K := by
  induction n generalizing s with
  | zero => trivial
  | succ n ih =>
    unfold renormD
    split
    · exact Flow.andThen_onlyRaises _ _ (State.readBit_onlyRaises hK hC _) fun _ t => ih _
    · split
      · exact Flow.andThen_onlyRaises _ _ (State.readBit_onlyRaises hK hC _) fun _ t => ih _
      · trivial

theorem fillCode_onlyRaises {K : FaultKind → Prop} (hK : K .ioError) (hC : K .corruptStreamError)
    (n : Nat) (s : State) : (fillCode n s).onlyRaises K := by
  induction n generalizing s with
  | zero => trivial
  | succ n ih => exact Flow.andThen_onlyRaises _ _ (State.readBit_onlyRaises hK hC _) fun _ t => ih _

/-- The kinds that an effect can raise, by command (R229 "mid"). -/
theorem State.effect_onlyRaises {s : State} {i : Instr} {x : Flow Unit} (h : s.effect i = some x) :
    x.onlyRaises (midKind i) := by
  cases i <;> simp only [State.effect, Option.some.injEq, reduceCtorEq] at h
  case esym =>
    obtain ⟨b, _, rfl⟩ := Option.map_eq_some_iff.mp h
    exact Flow.andThen_onlyRaises _ _
      (renormE_onlyRaises (.inl ⟨rfl, .inl rfl⟩) (.inr (.inl ⟨rfl, rfl⟩)) _ _) fun _ _ => trivial
  case efinish =>
    have hK : midKind .efinish .ioError := .inl ⟨rfl, .inr (.inl rfl)⟩
    subst h
    exact Flow.andThen_onlyRaises _ _ (State.sendOut_onlyRaises hK _ _) fun _ t =>
      Flow.andThen_onlyRaises _ _ (State.emitTimes_onlyRaises hK _ _ t) fun _ u =>
        Flow.andThen_onlyRaises _ _ (State.sendOut_onlyRaises hK _ _) fun _ _ => trivial
  case dbegin =>
    subst h
    exact Flow.andThen_onlyRaises _ _
      (fillCode_onlyRaises (.inl ⟨rfl, .inr (.inr (.inl rfl))⟩) (.inr (.inr ⟨rfl, .inl rfl⟩)) _ _)
      fun _ _ => trivial
  case dsym =>
    split at h
    · cases h
    · obtain ⟨b, _, rfl⟩ := Option.map_eq_some_iff.mp h
      exact Flow.andThen_onlyRaises _ _
        (renormD_onlyRaises (.inl ⟨rfl, .inr (.inr (.inr rfl))⟩) (.inr (.inr ⟨rfl, .inr rfl⟩)) _ _)
        fun _ _ => trivial

/-! ### One step -/

/-- The inversion of `step`: what the core can do with the host's next action (R252, R251, R8, R90). -/
theorem step_cases {s t : State} (h : step s = .next t) :
    t = s ∨
      (∃ a b rest, s.chan.inputs = .hardwareReset a b :: rest ∧
        t = (s.setInputs rest).hardwareReset a b) ∨
      (∃ w rest, s.chan.inputs = .command w :: rest ∧ s.chan.waiting = none ∧
        runWord w (s.setInputs rest) = .next t) ∨
      (∃ w rest u, s.chan.inputs = .untaken w :: rest ∧ s.chan.waiting = none ∧
        runWord w (s.setInputs rest) = .next u ∧
        (u.chan.waiting ≠ none ∧ t = u ∨
          u.chan.waiting = none ∧ t = u.offerResponse s.chan.responses)) ∨
      ∃ w a b rest u, s.chan.inputs = .abandoned w a b :: rest ∧ s.chan.waiting = none ∧
        runWord w (s.setInputs rest) = .next u ∧
        t = (u.withResponses s.chan.responses).hardwareReset a b := by
  unfold step takeInput at h
  split at h
  · exact .inl (next_eq h)
  · next a b rest hi => exact .inr (.inl ⟨a, b, rest, hi, next_eq h⟩)
  · next w rest hi =>
    split at h
    · exact .inl (next_eq h)
    · next hw => exact .inr (.inr (.inl ⟨w, rest, hi, by simpa using hw, h⟩))
  · next w rest hi =>
    split at h
    · exact .inl (next_eq h)
    · next hw =>
      unfold runUntaken at h
      split at h
      · next u hu =>
        refine .inr (.inr (.inr (.inl ⟨w, rest, u, hi, by simpa using hw, hu, ?_⟩)))
        split at h
        · next hs => exact .inl ⟨by simpa [Option.isSome_iff_ne_none] using hs, next_eq h⟩
        · next hs => exact .inr ⟨by simpa using hs, next_eq h⟩
      · cases h
      · cases h
  · next w a b rest hi =>
    split at h
    · exact .inl (next_eq h)
    · next hw =>
      unfold runAbandoned at h
      split at h
      · next u hu =>
        exact .inr (.inr (.inr (.inr ⟨w, a, b, rest, u, hi, by simpa using hw, hu, next_eq h⟩)))
      · cases h
      · cases h

/-- A response that the host does not take (R9, U5): the command's state, with the responses taken as they
were before it and the wait for its own response. -/
theorem State.offerResponse_append (t : State) (given : List Response) (r : Response)
    (h : t.chan.responses = given ++ [r]) :
    t.offerResponse given =
      t.setChan { t.chan with responses := given, waiting := some (.response r) } := by
  simp [State.offerResponse, h]

/-- It moves the channels alone. -/
theorem State.offerResponse_regs (t : State) (given : List Response) :
    ∃ c, t.offerResponse given = t.setChan c := by
  unfold State.offerResponse
  split
  · exact ⟨_, rfl⟩
  · exact ⟨t.chan, rfl⟩

/-- What one command word can do (R12): the entry of `IllegalCommand`, or the meaning of the command it
decodes to. -/
theorem runWord_cases {w : Word} {s t : State} (h : runWord w s = .next t) :
    (∃ why, decode w = .illegal why ∧ t = s.raise .illegalCommand w) ∨
      ∃ i, decode w = .instr i ∧ exec i s = .next t := by
  unfold runWord at h
  split at h
  · next i hi => exact .inr ⟨i, hi, h⟩
  · next why hi => exact .inl ⟨why, hi, next_eq h⟩

end Sys2Proof.Machine
end

