-- ==== Sys2Proof/Laws/PerInstr.lean ====
section
/-! SUPPORT. Facts about every instruction as syntax, one lemma per constructor. -/

/-- The top four bits of an instruction's word are its opcode (`spec/30_encoding.md` rule R81). -/
def Sys2Proof.Laws.OpcodeField.Statement (i : Sys2Proof.Instr) : Prop :=
  (Sys2Proof.encode i).extractLsb' 28 4 = i.opcode

namespace Sys2Proof.Laws.OpcodeField

/-- The opcode field of a word made of an opcode and operand bits. -/
theorem of_append (op : BitVec 4) (x : BitVec 28) : (op ++ x).extractLsb' 28 4 = op := by
  apply BitVec.eq_of_getLsbD_eq
  intro i hi
  rw [BitVec.getLsbD_extractLsb', BitVec.getLsbD_append]
  simp [hi]

theorem nop : Statement .nop := of_append _ _

theorem reset : Statement .reset := of_append _ _

theorem minit (m : Mode) : Statement (.minit m) := of_append _ _

theorem ldcnt (s : Symbol) (v : Count) : Statement (.ldcnt s v) := of_append _ _

theorem rdcnt (s : Symbol) : Statement (.rdcnt s) := of_append _ _

theorem getprob (s : Symbol) : Statement (.getprob s) := of_append _ _

theorem getsym : Statement .getsym := of_append _ _

theorem update (s : Symbol) : Statement (.update s) := of_append _ _

theorem ebegin : Statement .ebegin := of_append _ _

theorem esym : Statement .esym := of_append _ _

theorem efinish : Statement .efinish := of_append _ _

theorem dbegin : Statement .dbegin := of_append _ _

theorem getcnt : Statement .getcnt := of_append _ _

theorem dsym : Statement .dsym := of_append _ _

theorem rdreg (r : RegNo) : Statement (.rdreg r) := of_append _ _

end Sys2Proof.Laws.OpcodeField
end

