-- ==== Sys2Proof/Laws/Sequencer.lean ====
section
/-! SUPPORT. The sequencer at rest: what a reset leaves of it, and that nothing happens in `RN_IDLE`. -/

namespace Sys2Proof.Machine

@[simp] theorem Micro.resting_st (s : State) : (Micro.resting s).st = s := rfl

@[simp] theorem Micro.resting_phase (s : State) : (Micro.resting s).phase = .idle := rfl

@[simp] theorem Micro.hardwareReset_st (m : Micro) (a : List SinkAnswer) (b : List SourceAnswer) :
    (m.hardwareReset a b).st = m.st.hardwareReset a b := rfl

@[simp] theorem Micro.hardwareReset_phase (m : Micro) (a : List SinkAnswer) (b : List SourceAnswer) :
    (m.hardwareReset a b).phase = .idle := rfl

/-- No micro-step happens in `RN_IDLE` (R151, R252). -/
theorem microStep_of_idle {m : Micro} (h : m.phase = .idle) : microStep m = m := by
  simp only [microStep, h]

theorem microRun_of_idle {m : Micro} (h : m.phase = .idle) (n : Nat) : microRun n m = m := by
  induction n with
  | zero => rfl
  | succ n ih => simp only [microRun, microStep_of_idle h, ih]

end Sys2Proof.Machine
end

