-- ==== Sys2Proof/Laws/Work.lean ====
section
/-! SUPPORT. The amount of work of a renormalization, and the answers of the bit source: how the measures
of `Sys2Proof/Safety.lean` relate, one step at a time. -/

namespace Sys2Proof.Machine

theorem Interval.steps_le (n : Nat) (v : Interval) : Interval.steps n v ≤ n := by
  induction n generalizing v with
  | zero => exact Nat.le_refl 0
  | succ n ih =>
    have h1 := ih v.shift
    have h2 := ih v.widen
    simp only [Interval.steps]
    split
    · omega
    · split <;> omega

/-- The deferred bits are among the steps. -/
theorem Interval.deferred_le_steps (n : Nat) (v : Interval) :
    Interval.deferred n v ≤ Interval.steps n v := by
  induction n generalizing v with
  | zero => exact Nat.le_refl 0
  | succ n ih =>
    have h := ih v.widen
    simp only [Interval.deferred, Interval.steps]
    split
    · omega
    · split <;> omega

@[simp] theorem SourceAnswer.takenAs_bit (c : Bool) (n : BitVec 4) (b : Bool) (e : BitVec 4) :
    (SourceAnswer.bit c).takenAs n b e ↔ c = b ∧ e = n := by
  simp [SourceAnswer.takenAs]

@[simp] theorem SourceAnswer.takenAs_endOfStream (n : BitVec 4) (b : Bool) (e : BitVec 4) :
    SourceAnswer.endOfStream.takenAs n b e ↔
      b = false ∧ n.toNat < Config.eosLimit ∧ e.toNat = n.toNat + 1 := by
  simp [SourceAnswer.takenAs]

@[simp] theorem SourceAnswer.takenAs_fail (n : BitVec 4) (b : Bool) (e : BitVec 4) :
    ¬SourceAnswer.fail.takenAs n b e := by
  simp [SourceAnswer.takenAs]

@[simp] theorem allTaken_nil (n : BitVec 4) : allTaken n [] := by simp [allTaken]

/-- The answers are taken one by one: the first from `n`, the others from the count it leaves (R72). -/
theorem allTaken_cons (n : BitVec 4) (a : SourceAnswer) (as : List SourceAnswer) :
    allTaken n (a :: as) ↔ ∃ b e, a.takenAs n b e ∧ allTaken e as := by
  have hlim : Config.eosLimit = 14 := rfl
  cases a with
  | bit c => simp [allTaken]
  | fail => simp [allTaken]
  | endOfStream =>
    simp only [SourceAnswer.takenAs_endOfStream, allTaken, List.mem_cons, List.count_cons_self, hlim]
    constructor
    · rintro ⟨hf, hc⟩
      refine ⟨false, BitVec.ofNat 4 (n.toNat + 1), ⟨rfl, by omega, ?_⟩, fun h => hf (.inr h), .inr ?_⟩ <;>
        simp only [BitVec.toNat_ofNat] <;> omega
    · rintro ⟨b, e, ⟨-, hn, he⟩, hf, hc⟩
      refine ⟨?_, ?_⟩
      · rintro (h | h)
        · cases h
        · exact hf h
      · omega

end Sys2Proof.Machine
end

