-- ==== Sys2Proof/Machine/Assembly.lean ====
section
/-! DEFINITION. What the host writes: the assembler's operand forms (`spec/30_encoding.md` rule R96) and
the pseudo-instructions with the procedures of a whole run (rule R97; `spec/70_reset_and_hazards.md`
rules R256, R257). They act on the machine only through the commands they expand to. -/

namespace Sys2Proof.Machine

/-- A symbol operand: a number, `EOS`, or a character in quotes (R96). -/
inductive SymbolText where
  | number (n : Nat)
  | eos
  | char (c : Char)
  deriving DecidableEq, Repr

/-- A mode operand: a number, `adaptive` or `static` (R96). -/
inductive ModeText where
  | number (n : Nat)
  | adaptive
  | static
  deriving DecidableEq, Repr

/-- The names of the register map (R42). -/
inductive RegName where
  | id | status | low | high | code | pend | rl | rh | rt | sv | sym | tot | ceilr | fcause | fcmd
  deriving DecidableEq, Repr

/-- A register operand: a number or a name (R96). -/
inductive RegText where
  | number (n : Nat)
  | name (r : RegName)
  deriving DecidableEq, Repr

/-- One line of assembler text: mnemonic and operands (R96). -/
inductive Line where
  | nop
  | reset
  | minit (m : ModeText)
  | ldcnt (s : SymbolText) (v : Nat)
  | rdcnt (s : SymbolText)
  | getprob (s : SymbolText)
  | getsym
  | update (s : SymbolText)
  | ebegin
  | esym
  | efinish
  | dbegin
  | getcnt
  | dsym
  | rdreg (r : RegText)
  deriving DecidableEq, Repr

/-- The number a register name stands for (R42). -/
def RegName.number : RegName → Nat
  | .id => 0
  | .status => 1
  | .low => 2
  | .high => 3
  | .code => 4
  | .pend => 5
  | .rl => 6
  | .rh => 7
  | .rt => 8
  | .sv => 9
  | .sym => 10
  | .tot => 11
  | .ceilr => 12
  | .fcause => 13
  | .fcmd => 14

/-- An operand's value where it fits its field of `n` bits; a line with one that does not gives no word
(DESIGN CHOICE, log 18). -/
def fieldOf (n x : Nat) : Option (BitVec n) := if x < 2 ^ n then some (BitVec.ofNat n x) else none

/-- A symbol operand's value (R96). DESIGN CHOICE (log 18): the byte value of a quoted character is its code
point, and a character with a code point above 255 has none, so its line gives no word. -/
def SymbolText.value : SymbolText → Option Symbol
  | .number n => fieldOf 9 n
  | .eos => some Config.eos
  | .char c => (fieldOf 8 c.toNat).map fun b => b.setWidth 9

def ModeText.value : ModeText → Option Mode
  | .number 0 => some .adaptive
  | .number 1 => some .static
  | .number (_ + 2) => none
  | .adaptive => some .adaptive
  | .static => some .static

def RegText.value : RegText → Option RegNo
  | .number n => fieldOf 5 n
  | .name r => fieldOf 5 r.number

/-- The command of an assembler line (R96); none where an operand does not fit its field. -/
def Line.instr : Line → Option Instr
  | .nop => some .nop
  | .reset => some .reset
  | .minit m => m.value.map .minit
  | .ldcnt s v => s.value.bind fun x => (fieldOf 15 v).map fun c => .ldcnt x c
  | .rdcnt s => s.value.map .rdcnt
  | .getprob s => s.value.map .getprob
  | .getsym => some .getsym
  | .update s => s.value.map .update
  | .ebegin => some .ebegin
  | .esym => some .esym
  | .efinish => some .efinish
  | .dbegin => some .dbegin
  | .getcnt => some .getcnt
  | .dsym => some .dsym
  | .rdreg r => r.value.map .rdreg

/-- The command word of an assembler line (R96). -/
def assemble (l : Line) : Option Word := l.instr.map encode

/-! ### The characters of a line (R96) -/

/-- What a line is made of: a word, a character in quotes, a comma. -/
inductive Token where
  | word (t : List Char)
  | char (c : Char)
  | comma
  deriving DecidableEq, Repr

/-- Where the reading of a line stands: in a word (its characters so far, last first), after an opening
quote, after the quoted character. -/
inductive Scan where
  | word (t : List Char)
  | quote
  | quoted (c : Char)
  deriving DecidableEq, Repr

/-- The word read so far, if there is one. -/
def wordToken : List Char → List Token
  | [] => []
  | c :: t => [.word (c :: t).reverse]

/-- The tokens of a line: the mnemonic, operands separated by commas, and `;` starts a comment (R96). DESIGN
CHOICE (log 18), since R96 says nothing of blanks: a blank is a space or a tab, any number of them may stand
before and after the mnemonic, around a comma and at the end; a word ends at a blank, a comma, a `;` or a quote, so
that a quoted character may follow the mnemonic with no blank between (`GETPROB'A'`). Between quotes stands
exactly one character, which may be a blank, a comma, a `;` or the quote itself. -/
def scan : Scan → List Char → Option (List Token)
  | .word t, [] => some (wordToken t)
  | .quote, [] => none
  | .quoted _, [] => none
  | .quote, c :: rest => scan (.quoted c) rest
  | .quoted x, c :: rest =>
    if c.toNat = 39 then (scan (.word []) rest).map fun ts => .char x :: ts else none
  | .word t, c :: rest =>
    if c.toNat = 59 then some (wordToken t)
    else if c.toNat = 44 then (scan (.word []) rest).map fun ts => wordToken t ++ .comma :: ts
    else if c.toNat = 32 ∨ c.toNat = 9 then (scan (.word []) rest).map fun ts => wordToken t ++ ts
    else if c.toNat = 39 then (scan .quote rest).map fun ts => wordToken t ++ ts
    else scan (.word (c :: t)) rest

/-- The value of a digit; a hexadecimal one in either case (DESIGN CHOICE, log 18). -/
def digit (c : Char) : Option Nat :=
  if 48 ≤ c.toNat ∧ c.toNat ≤ 57 then some (c.toNat - 48)
  else if 65 ≤ c.toNat ∧ c.toNat ≤ 70 then some (c.toNat - 55)
  else if 97 ≤ c.toNat ∧ c.toNat ≤ 102 then some (c.toNat - 87)
  else none

/-- The digits of a number to the given base, after the value `n`. -/
def digits (base : Nat) : Nat → List Char → Option Nat
  | n, [] => some n
  | n, c :: t => (digit c).bind fun d => if d < base then digits base (base * n + d) t else none

/-- A number: decimal, or hexadecimal with `0x` (R96); leading zeros are allowed, and `0x` is in lower case
(DESIGN CHOICE, log 18). -/
def numberText : List Char → Option Nat
  | [] => none
  | '0' :: 'x' :: c :: t => digits 16 0 (c :: t)
  | c :: t => digits 10 0 (c :: t)

def numberToken : Token → Option Nat
  | .word t => numberText t
  | .char _ => none
  | .comma => none

def symbolToken : Token → Option SymbolText
  | .word t => if t = ['E', 'O', 'S'] then some .eos else (numberText t).map .number
  | .char c => some (.char c)
  | .comma => none

def modeToken : Token → Option ModeText
  | .word t =>
    if t = ['a', 'd', 'a', 'p', 't', 'i', 'v', 'e'] then some .adaptive
    else if t = ['s', 't', 'a', 't', 'i', 'c'] then some .static
    else (numberText t).map .number
  | .char _ => none
  | .comma => none

/-- The names of the register map as they are written (R42). -/
def regNames : List (List Char × RegName) :=
  [(['I', 'D'], .id), (['S', 'T', 'A', 'T', 'U', 'S'], .status), (['L', 'O', 'W'], .low),
    (['H', 'I', 'G', 'H'], .high), (['C', 'O', 'D', 'E'], .code), (['P', 'E', 'N', 'D'], .pend),
    (['R', 'L'], .rl), (['R', 'H'], .rh), (['R', 'T'], .rt), (['S', 'V'], .sv),
    (['S', 'Y', 'M'], .sym), (['T', 'O', 'T'], .tot), (['C', 'E', 'I', 'L', 'R'], .ceilr),
    (['F', 'C', 'A', 'U', 'S', 'E'], .fcause), (['F', 'C', 'M', 'D'], .fcmd)]

def regToken : Token → Option RegText
  | .word t =>
    match regNames.lookup t with
    | some r => some (.name r)
    | none => (numberText t).map .number
  | .char _ => none
  | .comma => none

/-- The mnemonics without operands (R88). -/
def plainNames : List (List Char × Line) :=
  [(['N', 'O', 'P'], .nop), (['R', 'E', 'S', 'E', 'T'], .reset),
    (['G', 'E', 'T', 'S', 'Y', 'M'], .getsym), (['E', 'B', 'E', 'G', 'I', 'N'], .ebegin),
    (['E', 'S', 'Y', 'M'], .esym), (['E', 'F', 'I', 'N', 'I', 'S', 'H'], .efinish),
    (['D', 'B', 'E', 'G', 'I', 'N'], .dbegin), (['G', 'E', 'T', 'C', 'N', 'T'], .getcnt),
    (['D', 'S', 'Y', 'M'], .dsym)]

/-- A line of one operand (R88). -/
def oneOperand (m : List Char) (a : Token) : Option Line :=
  if m = ['M', 'I', 'N', 'I', 'T'] then (modeToken a).map .minit
  else if m = ['R', 'D', 'C', 'N', 'T'] then (symbolToken a).map .rdcnt
  else if m = ['G', 'E', 'T', 'P', 'R', 'O', 'B'] then (symbolToken a).map .getprob
  else if m = ['U', 'P', 'D', 'A', 'T', 'E'] then (symbolToken a).map .update
  else if m = ['R', 'D', 'R', 'E', 'G'] then (regToken a).map .rdreg
  else none

/-- The line that the tokens spell: the mnemonic, then its operands separated by commas (R96). A line that
is none of these gives no word (DESIGN CHOICE, log 18). -/
def lineOf : List Token → Option Line
  | [.word m] => plainNames.lookup m
  | [.word m, a] => oneOperand m a
  | [.word m, a, .comma, b] =>
    if m = ['L', 'D', 'C', 'N', 'T'] then
      (symbolToken a).bind fun s => (numberToken b).map fun v => .ldcnt s v
    else none
  | _ => none

/-- The command word of a line of text (R96). -/
def assembleText (t : List Char) : Option Word := ((scan (.word []) t).bind lineOf).bind assemble

/-! ### Pseudo-instructions (R97) -/

/-- `MINIT.A` (R97). -/
def minitA : List Instr := [.minit .adaptive]

/-- `MINIT.S` (R97). -/
def minitS : List Instr := [.minit .static]

/-- `LDTABLE t` (R97): one `LDCNT` for every entry that is not 1, from symbol `k` on. -/
def loadTable : Nat → List Count → List Instr
  | _, [] => []
  | k, c :: t =>
    if c = 1#15 then loadTable (k + 1) t else .ldcnt (BitVec.ofNat 9 k) c :: loadTable (k + 1) t

/-- `ENCODE s` (R97): with an `UPDATE` in the adaptive model. -/
def encodeByte (m : Mode) (b : BitVec 8) : List Instr :=
  [.getprob (b.setWidth 9), .esym] ++
    match m with
    | .adaptive => [.update (b.setWidth 9)]
    | .static => []

/-- `ENCODE.EOS` (R97). -/
def encodeEos : List Instr := [.getprob Config.eos, .esym]

/-- `ENCODERUN b` (R97, R256): the bytes in order, then `EOS`, then `EFINISH`. -/
def encodeRun (m : Mode) (bytes : List (BitVec 8)) : List Instr :=
  [.ebegin] ++ (bytes.map (encodeByte m)).flatten ++ encodeEos ++ [.efinish]

/-- One command as the host sends it: the state after it if it was answered `OK` (R97, R258). -/
def sendOne (i : Instr) (s : State) : Option State :=
  match exec i s with
  | .next t =>
    if t.chan.waiting.isNone && decide ((t.chan.responses.getLast?.map Response.status) = some 0#4) then
      some t
    else none
  | .fault _ => none
  | .refused _ => none

/-- Commands in order, while each is answered `OK` (R97). -/
def sendAll : List Instr → State → Option State
  | [], s => some s
  | i :: is, s => (sendOne i s).bind (sendAll is)

/-- What follows `GETSYM` in `DECODE` when its datum was `d` (R97, R257). -/
def afterSymbol (m : Mode) (d : Symbol) : List Instr :=
  match m with
  | .adaptive => if d = Config.eos then [.dsym] else [.dsym, .update d]
  | .static => [.dsym]

/-- `DECODE` (R97): the symbol decoded and the state after it. -/
def decodeOne (s : State) : Option (Symbol × State) :=
  (sendAll [.getcnt, .getsym] s).bind fun t =>
    (sendAll (afterSymbol s.model.mode t.latch.sym) t).map fun u => (t.latch.sym, u)

/-- The loop of `DECODERUN` (R97, R257), at most `n` symbols: the symbols before `EOS`. -/
def decodeLoop : Nat → State → Option (List Symbol × State)
  | 0, _ => none
  | n + 1, s =>
    (decodeOne s).bind fun (d, t) =>
      if d = Config.eos then some ([], t)
      else (decodeLoop n t).map fun (ds, u) => (d :: ds, u)

/-- `DECODERUN` (R97). -/
def decodeRun (n : Nat) (s : State) : Option (List Symbol × State) :=
  (sendOne .dbegin s).bind (decodeLoop n)

end Sys2Proof.Machine
end

