-- ==== Sys2Proof/Tests/Slice0.lean ====
section
/-! SUPPORT. The model's own tests. Every expected value is the spec's: the word tables and the vectors
of `spec/95_test_vectors.md` (named in each comment) and the rule examples. After them, for each
obligation with hypotheses, a witness that something meets them. -/

namespace Sys2Proof.Tests

-- One theorem at a time: the kernel evaluations in parallel would need much memory.
set_option Elab.async false

open Sys2Proof Sys2Proof.Machine

/-! ### Small states -/

/-- The model right after `MINIT m` (M1). -/
def uniform (m : Mode) : Model := { cnt := [], tot := 257#15, mode := m, mvalid := true }

/-- The table of M2: `CNT[65] = 2`. -/
def modelM2 : Model := { uniform .adaptive with cnt := [(65, 2#15)], tot := 258#15 }

/-- The table before the update of M6. -/
def modelM6 : Model :=
  { uniform .adaptive with
    cnt := [(1, 2#15), (2, 3#15), (3, 4#15), (4, 5#15), (200, 16117#15)], tot := 16383#15 }

/-- A full static table: `LDCNT 0, 16128` done (M7). -/
def modelFull : Model := { uniform .static with cnt := [(0, 16128#15)], tot := 16384#15 }

/-- An adaptive table one short of the ceiling, as before the last `UPDATE` of M5. -/
def modelM5 : Model := { uniform .adaptive with cnt := [(65, 16127#15)], tot := 16383#15 }

def bounds (lo hi code : Bound) (pend : Word) : Interval :=
  { low := lo, high := hi, code := code, pend := pend, eoscnt := 0 }

def range (rl rh rt : Count) (sym : Symbol) : Latch :=
  { rl := rl, rh := rh, rt := rt, sv := 0, sym := sym }

/-- A small state: the sequencing state and the model given, all else as after reset. -/
def small (q : Seq) (m : Model) : State := { State.reset with st := q, model := m }

/-- The bits of a text of `0` and `1`, and the answers they stand for. -/
def bits (t : List Nat) : List Bool := t.map fun n => decide (n = 1)

def withSource (s : State) (t : List Nat) (eos : Nat) : State :=
  s.setChan
    { s.chan with
      sourceAnswers := (bits t).map .bit ++ List.replicate eos .endOfStream }

def withSink (s : State) (a : List SinkAnswer) : State := s.setChan { s.chan with sinkAnswers := a }

def withInputs (s : State) (a : List HostInput) : State := s.setChan { s.chan with inputs := a }

/-- A core that waits inside a command for the sink's answer to a bit. -/
def waitingCore : State :=
  { State.reset with chan := { State.reset.chan with waiting := some (.out (.emit true)) } }

/-- A core in `FAULT` after a sink failure (F4). -/
def faulted : State :=
  { small .fault (uniform .adaptive) with
    faults := { FaultRegs.zero with eIo := true, fcause := 1#4, fcmd := 0x90000000#32 } }

/-- What a step answers, seen through `p`; none where it answers no next state. -/
def seen {α : Type} (r : Result) (p : State → α) : Option α :=
  match r with
  | .next t => some (p t)
  | .fault _ => none
  | .refused _ => none

/-- The last response: status and datum. -/
def answer (r : Result) : Option (Option Response) := seen r fun t => t.chan.responses.getLast?

def ok (d : Word) : Option (Option Response) := some (some { status := 0#4, data := d })

def err (k : BitVec 4) : Option (Option Response) := some (some { status := k, data := 0#32 })

/-! ### WellFormed refuses -/

theorem test_wf_refuses_symbol_ldcnt : (Instr.ldcnt 257#9 1#15).wellFormed = false := by decide

theorem test_wf_refuses_symbol_rdcnt : (Instr.rdcnt 257#9).wellFormed = false := by decide

theorem test_wf_refuses_symbol_getprob : (Instr.getprob 511#9).wellFormed = false := by decide

theorem test_wf_refuses_symbol_update : (Instr.update 257#9).wellFormed = false := by decide

theorem test_wf_refuses_register : (Instr.rdreg 15#5).wellFormed = false := by decide

theorem test_wf_accepts_bounds :
    (Instr.ldcnt 256#9 32767#15).wellFormed = true ∧ (Instr.rdreg 14#5).wellFormed = true := by decide

/-! ### Decoding: words written out from the formats, `95_test_vectors.md` section 2 -/

theorem test_decode_nop : decode 0b0000_0000000000000000000000000000#32 = .instr .nop := by decide

theorem test_decode_reset : decode 0b0001_0000000000000000000000000000#32 = .instr .reset := by decide

theorem test_decode_minit :
    decode 0b0010_000000000000000000000000000_0#32 = .instr (.minit .adaptive) ∧
      decode 0b0010_000000000000000000000000000_1#32 = .instr (.minit .static) := by decide

theorem test_decode_ldcnt :
    decode 0b0011_0000_000000011001000_001000001#32 = .instr (.ldcnt 65#9 200#15) ∧
      decode 0b0011_0000_111111111111111_000000101#32 = .instr (.ldcnt 5#9 32767#15) := by decide

theorem test_decode_rdcnt :
    decode 0b0100_0000000000000000000_100000000#32 = .instr (.rdcnt 256#9) := by decide

theorem test_decode_getprob :
    decode 0b0101_0000000000000000000_001000001#32 = .instr (.getprob 65#9) := by decide

theorem test_decode_getsym : decode 0b0110_0000000000000000000000000000#32 = .instr .getsym := by decide

theorem test_decode_update :
    decode 0b0111_0000000000000000000_001000010#32 = .instr (.update 66#9) := by decide

theorem test_decode_ebegin : decode 0b1000_0000000000000000000000000000#32 = .instr .ebegin := by decide

theorem test_decode_esym : decode 0b1001_0000000000000000000000000000#32 = .instr .esym := by decide

theorem test_decode_efinish : decode 0b1010_0000000000000000000000000000#32 = .instr .efinish := by decide

theorem test_decode_dbegin : decode 0b1011_0000000000000000000000000000#32 = .instr .dbegin := by decide

theorem test_decode_getcnt : decode 0b1100_0000000000000000000000000000#32 = .instr .getcnt := by decide

theorem test_decode_dsym : decode 0b1101_0000000000000000000000000000#32 = .instr .dsym := by decide

theorem test_decode_rdreg :
    decode 0b1110_00000000000000000000000_01110#32 = .instr (.rdreg 14#5) := by decide

/-- The illegal words of section 2. -/
theorem test_decode_illegal :
    decode 0xFFFFFFFF#32 = .illegal .reservedOpcode ∧ decode 0x18000000#32 = .illegal .reservedBits ∧
      decode 0x20000002#32 = .illegal .reservedBits ∧ decode 0x3000012C#32 = .illegal .symbolRange ∧
      decode 0x40000101#32 = .illegal .symbolRange ∧ decode 0x50000200#32 = .illegal .reservedBits ∧
      decode 0x70000101#32 = .illegal .symbolRange ∧ decode 0x90000001#32 = .illegal .reservedBits ∧
      decode 0xE000001F#32 = .illegal .registerRange ∧
      decode 0xE0000020#32 = .illegal .reservedBits := by decide

/-- The encoder's words of section 2. -/
theorem test_encode :
    encode (.ldcnt 65#9 8000#15) = 0x303E8041#32 ∧ encode (.ldcnt 256#9 1#15) = 0x30000300#32 ∧
      encode (.minit .static) = 0x20000001#32 ∧ encode (.rdreg 14#5) = 0xE000000E#32 := by decide

/-- The assembler's forms (R96): `LDCNT 'A', 200`, `GETPROB EOS`, `RDREG STATUS`. -/
theorem test_assemble :
    assemble (.ldcnt (.char 'A') 200) = some 0x30019041#32 ∧
      assemble (.getprob .eos) = some 0x50000100#32 ∧
      assemble (.rdreg (.name .status)) = some 0xE0000001#32 := by decide

/-- The same lines as text, and `GETPROB 0x41` (R96, R98). -/
theorem test_assemble_text :
    assembleText "LDCNT 65, 200 ; a comment".toList = some 0x30019041#32 ∧
      assembleText "GETPROB 'A'".toList = some 0x50000041#32 ∧
      assembleText "GETPROB 0x41".toList = some 0x50000041#32 ∧
      assembleText "RDREG STATUS".toList = some 0xE0000001#32 ∧
      assembleText "MINIT static".toList = some 0x20000001#32 := by decide +kernel

/-- A quoted character stands for its byte value (R96); one without a byte value gives no word (log 18). -/
theorem test_assemble_char :
    assemble (.getprob (.char (Char.ofNat 255))) = some 0x500000FF#32 ∧
      assemble (.getprob (.char (Char.ofNat 256))) = none := by decide

/-- The commands of P1 that `ENCODERUN` gives for `41 41 42` (R97, T1). -/
theorem test_encode_run :
    (encodeRun .adaptive [0x41#8, 0x41#8, 0x42#8]).map encode =
      [0x80000000#32, 0x50000041#32, 0x90000000#32, 0x70000041#32, 0x50000041#32, 0x90000000#32,
        0x70000041#32, 0x50000042#32, 0x90000000#32, 0x70000042#32, 0x50000100#32, 0x90000000#32,
        0xA0000000#32] := by decide

/-! ### System commands -/

/-- F4: `NOP` in `FAULT` responds `(0, 0)`; the core stays there. -/
theorem test_nop :
    answer (exec .nop faulted) = ok 0#32 ∧ seen (exec .nop faulted) State.st = some .fault := by decide

/-- F4: `RESET` in `FAULT` responds `(0, 0)` and `STATUS` is 0. -/
theorem test_reset :
    answer (exec .reset faulted) = ok 0#32 ∧
      seen (exec .reset faulted) State.statusWord = some 0#32 := by decide

/-- P5: `RDREG 0` responds the identification. -/
theorem test_rdreg_id : answer (exec (.rdreg 0#5) State.reset) = ok 0x41431001#32 := by decide

/-- F4: `RDREG 13` responds the first cause. -/
theorem test_rdreg_fcause : answer (exec (.rdreg 13#5) faulted) = ok 1#32 := by decide

/-! ### The model -/

/-- M1: `MINIT adaptive` gives the uniform table. -/
theorem test_minit :
    answer (exec (.minit .adaptive) State.reset) = ok 0#32 ∧
      seen (exec (.minit .adaptive) State.reset) State.model = some (uniform .adaptive) := by
  decide +kernel

/-- T5: `MINIT` in `FAULT` responds `(5, 0)`. -/
theorem test_minit_illegal : answer (exec (.minit .adaptive) faulted) = err 5#4 := by decide

/-- M7: `LDCNT 65, 200` responds `(OK, 456)`. -/
theorem test_ldcnt :
    answer (exec (.ldcnt 65#9 200#15) (small .idle (uniform .static))) = ok 456#32 := by decide

/-- M7: `LDCNT 1, 2` on the full table: `ModelError`, `STATUS`, `FCMD`, the table unchanged. -/
theorem test_ldcnt_ceiling :
    answer (exec (.ldcnt 1#9 2#15) (small .idle modelFull)) = err 2#4 ∧
      seen (exec (.ldcnt 1#9 2#15) (small .idle modelFull))
          (fun t => (t.statusWord, t.faults.fcmd, t.model)) =
        some (0x0002003F#32, 0x30000401#32, modelFull) := by decide

/-- P6: `RDCNT 65` responds 2. -/
theorem test_rdcnt : answer (exec (.rdcnt 65#9) (small .encReady modelM2)) = ok 2#32 := by decide

/-- F4: `RDCNT 65` without a valid model responds `(5, 0)`, `STATUS = 0x0010000F`. -/
theorem test_rdcnt_no_model :
    answer (exec (.rdcnt 65#9) State.reset) = err 5#4 ∧
      seen (exec (.rdcnt 65#9) State.reset) State.statusWord = some 0x0010000F#32 := by decide

/-- M2: `GETPROB 65` latches `(65, 67, 258)`, `GETPROB 256` latches `(257, 258, 258)`. -/
theorem test_getprob :
    seen (exec (.getprob 65#9) (small .encReady modelM2)) State.latch =
        some (range 65#15 67#15 258#15 65#9) ∧
      seen (exec (.getprob 256#9) (small .encReady modelM2)) State.latch =
        some (range 257#15 258#15 258#15 256#9) := by decide +kernel

/-- M6: after the rescale `GETPROB 200` latches `(202, 8260, 8316)`. -/
theorem test_getprob_rescaled :
    seen (exec (.getprob 200#9) (small .encReady (modelM6.update 256#9))) State.latch =
      some (range 202#15 8260#15 8316#15 200#9) := by decide +kernel

/-- M3: `SV = 66` gives symbol 65 with latch `(65, 67, 258)`. -/
theorem test_getsym :
    answer (exec .getsym ((small .decCount modelM2).setLatch { Latch.zero with sv := 66#15 })) =
        ok 65#32 ∧
      seen (exec .getsym ((small .decCount modelM2).setLatch { Latch.zero with sv := 66#15 }))
          State.latch =
        some { range 65#15 67#15 258#15 65#9 with sv := 66#15 } := by decide +kernel

/-- M3: `SV = 257` gives symbol 256 with latch `(257, 258, 258)`. -/
theorem test_getsym_last :
    seen (exec .getsym ((small .decCount modelM2).setLatch { Latch.zero with sv := 257#15 }))
        State.latch =
      some { range 257#15 258#15 258#15 256#9 with sv := 257#15 } := by decide +kernel

/-- M5: the 16127th `UPDATE 65` rescales: `(OK, 8320)`, `CNT[65] = 8064`, `CNT[66] = 1`. -/
theorem test_update_rescales :
    answer (exec (.update 65#9) (small .encReady modelM5)) = ok 8320#32 ∧
      seen (exec (.update 65#9) (small .encReady modelM5)) (fun t => t.model.cnt) =
        some [(65, 8064#15)] := by decide +kernel

/-- M2: `UPDATE 65` on the uniform table responds `(OK, 258)`. -/
theorem test_update :
    answer (exec (.update 65#9) (small .encReady (uniform .adaptive))) = ok 258#32 ∧
      seen (exec (.update 65#9) (small .encReady (uniform .adaptive))) State.model = some modelM2 := by
  decide +kernel

/-! ### The encoder -/

/-- T1: `EBEGIN` gives `0000`, `FFFF`, `ENC_READY`. -/
theorem test_ebegin :
    seen (exec .ebegin (small .idle (uniform .adaptive))) (fun t => (t.st, t.iv)) =
      some (.encReady, bounds 0x0000#16 0xFFFF#16 0#16 0#32) := by decide

/-- T2: `EBEGIN` in `DONE` responds `(5, 0)`, `STATUS = 0x0010002F`. -/
theorem test_ebegin_done :
    answer (exec .ebegin (small .done (uniform .adaptive))) = err 5#4 ∧
      seen (exec .ebegin (small .done (uniform .adaptive))) State.statusWord =
        some 0x0010002F#32 := by decide

/-- Rows of the narrowing table (section 3.2): the first, 8, 9, 12 and the last. -/
theorem test_narrow :
    narrow 0x0000#16 0xFFFF#16 0#15 1#15 257#15 = some (0x0000#16, 0x00FE#16) ∧
      narrow 0x3FFF#16 0x8000#16 8191#15 8192#15 16384#15 = some (0x5FFE#16, 0x5FFF#16) ∧
      narrow 0x3FFF#16 0x8000#16 16383#15 16384#15 16384#15 = some (0x7FFF#16, 0x8000#16) ∧
      narrow 0x5F80#16 0xDEFF#16 65#15 67#15 258#15 = some (0x7F9F#16, 0x809B#16) ∧
      narrow 0x1000#16 0x1003#16 0#15 1#15 257#15 = none := by decide

/-- Single steps (section 3.3): E1, E2, E3, and the bounds where none applies. -/
theorem test_renorm_steps :
    (bounds 0x40BF#16 0x41BD#16 0#16 0#32).shift = bounds 0x817E#16 0x837B#16 0#16 0#32 ∧
      (bounds 0x817E#16 0x837B#16 0#16 0#32).shift = bounds 0x02FC#16 0x06F7#16 0#16 0#32 ∧
      (bounds 0x5555#16 0xAAAA#16 0#16 0#32).widen = bounds 0x2AAA#16 0xD555#16 0#16 0#32 ∧
      (bounds 0x3FFF#16 0xBFFF#16 0#16 0#32).e3 = false ∧
      (bounds 0x4000#16 0xC000#16 0#16 0#32).e3 = false ∧
      ((bounds 0#16 0#16 0x7132#16 0#32).widenCode false).code = 0x6264#16 ∧
      ((bounds 0#16 0#16 0xBFFF#16 0#32).widenCode true).code = 0xFFFF#16 := by decide

/-- The state before the third `ESYM` of T1: seven pending bits. -/
def thirdSymbol : State :=
  withSink
    (((small .encRange { modelM2 with cnt := [(65, 3#15)], tot := 259#15 }).setIv
      (bounds 0x4F80#16 0xCDFF#16 0#16 7#32)).setLatch (range 68#15 69#15 259#15 66#9))
    (List.replicate 23 .ok)

/-- T1, third `ESYM`: emits `01111111111000`, leaves `3600`, `B2FF`, one pending bit. -/
theorem test_esym :
    seen (exec .esym thirdSymbol) (fun t => (t.st, t.iv, t.chan.events)) =
      some (.encReady, bounds 0x3600#16 0xB2FF#16 0#16 1#32,
        (bits [0, 1, 1, 1, 1, 1, 1, 1, 1, 1, 1, 0, 0, 0]).map .emit) := by decide

/-- F4: the sink answers `ok`, `ok`, `fail` to the first `ESYM` of T1: `(1, 0)`, two events, `FCMD`. -/
theorem test_esym_sink_fails :
    seen
        (exec .esym
          (withSink
            (((small .encRange (uniform .adaptive)).setIv .begin).setLatch
              (range 65#15 66#15 257#15 65#9))
            [.ok, .ok, .fail]))
        (fun t => (t.st, t.faults.fcause, t.faults.fcmd, t.chan.events)) =
      some (.fault, 1#4, 0x90000000#32, [.emit false, .emit true]) := by decide

/-- The row `1234, 9000, 3` of section 3.4. -/
def finishing : State :=
  withSink ((small .encEos (uniform .adaptive)).setIv (bounds 0x1234#16 0x9000#16 0#16 3#32))
    (List.replicate 6 .ok)

/-- `EFINISH` on it: `Emit(0)`, four times `Emit(1)`, `Flush`; `PEND = 0`, `ST = DONE`. -/
theorem test_efinish :
    seen (exec .efinish finishing) (fun t => (t.st, t.iv, t.chan.events)) =
      some (.done, bounds 0x1234#16 0x9000#16 0#16 0#32,
        (bits [0, 1, 1, 1, 1]).map .emit ++ [.flush]) := by decide +kernel

/-- F1: `EFINISH` in `ENC_READY` responds `(5, 0)`; the bounds stay. -/
theorem test_efinish_early :
    answer (exec .efinish ((small .encReady (uniform .adaptive)).setIv .begin)) = err 5#4 ∧
      seen (exec .efinish ((small .encReady (uniform .adaptive)).setIv .begin))
          (fun t => (t.iv, t.faults.fcmd, t.statusWord)) =
        some (Interval.begin, 0xA0000000#32, 0x0010002F#32) := by decide

/-! ### The decoder -/

/-- T4: `DBEGIN` reads 16 bits, `CODE = 40FF`. -/
theorem test_dbegin :
    seen
        (exec .dbegin
          (withSource (small .idle (uniform .adaptive))
            [0, 1, 0, 0, 0, 0, 0, 0, 1, 1, 1, 1, 1, 1, 1, 1] 0))
        (fun t => (t.st, t.iv, t.chan.sourceAnswers)) =
      some (.decReady, bounds 0x0000#16 0xFFFF#16 0x40FF#16 0#32, []) := by decide

/-- F2, `n = 1`: `DBEGIN` responds `(4, 0)`, `FCMD = 0xB0000000`. -/
theorem test_dbegin_short :
    answer (exec .dbegin (withSource (small .idle (uniform .adaptive)) [0] 15)) = err 4#4 ∧
      seen (exec .dbegin (withSource (small .idle (uniform .adaptive)) [0] 15))
          (fun t => t.faults.fcmd) =
        some 0xB0000000#32 := by decide

/-- Section 3.5: `4F80, CDFF, 7132, 259` gives `SV = 68`. -/
theorem test_getcnt :
    answer
        (exec .getcnt
          ((small .decReady { uniform .adaptive with tot := 259#15 }).setIv
            (bounds 0x4F80#16 0xCDFF#16 0x7132#16 0#32))) =
      ok 68#32 := by decide

/-- Section 3.5, the last two rows: `CorruptStreamError`. -/
theorem test_getcnt_corrupt :
    answer
          (exec .getcnt
            ((small .decReady (uniform .adaptive)).setIv
              (bounds 0x1000#16 0x9000#16 0x0FFF#16 0#32))) =
        err 4#4 ∧
      answer
          (exec .getcnt
            ((small .decReady (uniform .adaptive)).setIv
              (bounds 0x1000#16 0x9000#16 0x9001#16 0#32))) =
        err 4#4 := by decide

/-- The state before the third `DSYM` of T4. -/
def thirdDecoded : State :=
  withSource
    (((small .decRange { modelM2 with cnt := [(65, 3#15)], tot := 259#15 }).setIv
      (bounds 0x4F80#16 0xCDFF#16 0x7132#16 0#32)).setLatch
      { range 68#15 69#15 259#15 66#9 with sv := 68#15 })
    [1, 0, 1] 5

/-- T4, third `DSYM`: three bits, five `EndOfStream`, `CODE = B2A0`, `EOSCNT = 5`. -/
theorem test_dsym :
    seen (exec .dsym thirdDecoded) (fun t => (t.st, t.iv, t.chan.sourceAnswers)) =
      some (.decReady, { bounds 0x3600#16 0xB2FF#16 0xB2A0#16 0#32 with eoscnt := 5#4 }, []) := by
  decide

/-- T4, last `DSYM`: `EOS` ends the run, the interval stays, `STATUS = 0x00000525`. -/
theorem test_dsym_eos :
    seen
        (exec .dsym
          (((small .decRange modelM2).setIv
            { bounds 0x3600#16 0xB2FF#16 0xB2A0#16 0#32 with eoscnt := 5#4 }).setLatch
            (range 259#15 260#15 260#15 256#9)))
        (fun t => (t.iv, t.statusWord)) =
      some ({ bounds 0x3600#16 0xB2FF#16 0xB2A0#16 0#32 with eoscnt := 5#4 }, 0x00000525#32) := by
  decide

/-! ### The sequencer, the host's actions -/

/-- R151: the micro-steps of the third `ESYM` of T1 come back to `RN_IDLE` in the state of the command. -/
theorem test_micro :
    (accept .esym thirdSymbol).map (fun m => ((microRun 60 m).phase, some (microRun 60 m).st)) =
      some (.idle, seen (exec .esym thirdSymbol) id) := by decide +kernel

/-- R250, R251: the phase is `RN_IDLE` after power-on; the row `1234, 9000, 3` after two micro-steps is in
`RN_FIN3`, and with one answer of the sink it waits in `RN_FIN2`; the hardware reset leaves `RN_IDLE`, `IDLE`,
`STATUS = 0`, no response. -/
theorem test_micro_reset :
    Micro.reset.phase = .idle ∧
      (accept .efinish finishing).map (fun m =>
          ((microRun 2 m).phase, ((microRun 2 m).hardwareReset [] []).phase,
            ((microRun 2 m).hardwareReset [] []).st.statusWord)) =
        some (.fin3, .idle, 0#32) ∧
      (accept .efinish (withSink finishing [.ok])).map (fun m =>
          ((microRun 9 m).phase, (microRun 9 m).st.chan.waiting,
            ((microRun 9 m).hardwareReset [] []).phase,
            ((microRun 9 m).hardwareReset [] []).st.chan.waiting,
            ((microRun 9 m).hardwareReset [] []).st.chan.responses)) =
        some (.fin2, some (.out (.emit true)), .idle, none, []) := by decide +kernel

/-- R251: the hardware reset ends a wait; what follows is the reset state. -/
theorem test_hardware_reset :
    seen (step (withInputs waitingCore [.hardwareReset [] []]))
        (fun t => (t.st, t.statusWord, t.chan.waiting, t.chan.responses)) =
      some (.idle, 0#32, none, []) := by decide

/-- R9, U5: the host never takes the response of `RDREG 0`: the core waits with it offered, takes no further
word, and only the hardware reset ends the wait. -/
theorem test_untaken :
    seen (step (withInputs State.reset [.untaken 0xE0000000#32, .command 0#32]))
        (fun t => (t.chan.waiting, t.chan.responses, seen (step t) (fun u => decide (u = t)))) =
      some (some (.response { status := 0#4, data := 0x41431001#32 }), [], some true) := by decide

/-- R70: a sink that does not answer holds the core inside the command. -/
theorem test_waits :
    seen (exec .efinish (withSink finishing [.ok, .ok]))
        (fun t => (t.chan.waiting, t.chan.events, t.chan.responses)) =
      some (some (.out (.emit true)), [.emit false, .emit true], []) := by decide

/-- The words of the opcode table's rows, as the decoder reads them and as the first step runs them. -/
theorem test_table_words :
    [0x00000000, 0x10000000, 0x20000000, 0x30000000, 0x40000000, 0x50000000, 0x60000000, 0x70000000,
        0x80000000, 0x90000000, 0xA0000000, 0xB0000000, 0xC0000000, 0xD0000000, 0xE0000000].map
        (decodeTableWord 32) =
      [some .nop, some .reset, some (.minit .adaptive), some (.ldcnt 0#9 0#15), some (.rdcnt 0#9),
        some (.getprob 0#9), some .getsym, some (.update 0#9), some .ebegin, some .esym,
        some .efinish, some .dbegin, some .getcnt, some .dsym, some (.rdreg 0#5)] := by decide

/-- P5: the first command of a machine out of reset. -/
theorem test_first_step :
    answer (step (State.reset.withFetchWord 32 0xE0000000)) = ok 0x41431001#32 ∧
      answer (step (State.reset.withFetchWord 32 0x80000000)) = err 5#4 := by decide

/-! ### Witnesses: the hypotheses of each obligation can be met, each clause at a bound of its range -/

/-- A core in `FAULT` with every flag set and a first cause. -/
def allFlags : State :=
  { small .fault (uniform .adaptive) with
    faults :=
      { eIo := true, eModel := true, ePrec := true, eCorrupt := true, eIll := true, fcause := 5#4,
        fcmd := 0x80000000#32 } }

/-- The states of T1 and T4 at the first symbol. -/
def encReady1 : State := (small .encReady (uniform .adaptive)).setIv .begin

def encRange1 : State :=
  withSink ((encReady1.setSt .encRange).setLatch (range 65#15 66#15 257#15 65#9))
    (List.replicate 16 .ok)

def decReady1 : State :=
  (small .decReady (uniform .adaptive)).setIv (bounds 0x0000#16 0xFFFF#16 0x40FF#16 0#32)

def decCount1 : State := (decReady1.setSt .decCount).setLatch { Latch.zero with sv := 65#15 }

def decRange1 : State :=
  withSource
    ((decReady1.setSt .decRange).setLatch { range 65#15 66#15 257#15 65#9 with sv := 65#15 })
    [1, 1, 0, 0, 0, 1, 0, 0, 0, 0, 0, 0, 0, 0, 0, 0] 0

/-- A latch with an empty range. -/
def emptyRange (s : State) : State := s.setLatch (range 0#15 0#15 257#15 0#9)

/-- An interval with the given bounds, in an encode run. -/
def atBounds (lo hi : Bound) (pend : Word) (oks : Nat) : State :=
  withSink (encReady1.setIv (bounds lo hi 0#16 pend)) (List.replicate oks .ok)

/-- The same in a decode run, with one bit to read. -/
def atCode (lo hi code : Bound) : State :=
  withSource (decReady1.setIv (bounds lo hi code 0#32)) [1] 0

theorem witness_sound_uniform : (uniform .adaptive).sound ∧ (uniform .static).sound := by
  unfold Model.sound; decide +kernel

theorem witness_sound_tables : modelFull.sound ∧ modelM5.sound ∧ modelM6.sound := by
  unfold Model.sound; decide +kernel

theorem witness_DecodeOfEncode :
    (Instr.ldcnt 256#9 32767#15).wellFormed = true ∧ (Instr.rdreg 14#5).wellFormed = true ∧
      decode 0x30FFFF00#32 = .instr (.ldcnt 256#9 32767#15) := by decide

theorem witness_OpcodeMapSelectsRow : ∀ i : Instr, decode 0xF0000000#32 ≠ .instr i := by
  intro i h
  have e : decode 0xF0000000#32 = .illegal .reservedOpcode := by decide
  rw [e] at h
  cases h

theorem witness_IllegalWordsFault :
    (∃ why, decode 0x50000101#32 = .illegal why) ∧ decode 0x50000100#32 = .instr (.getprob 256#9) ∧
      (withInputs State.reset [.command 0x50000101#32]).chan.inputs = .command 0x50000101#32 :: [] ∧
      (withInputs State.reset [.command 0x50000101#32]).chan.waiting = none ∧
      (256#9 : Symbol).toNat ≤ 256 ∧ (small .idle (uniform .static)).model.mode = .static ∧
      (small .idle (uniform .static)).model.mvalid = true ∧ 16384 < (16385#15 : Count).toNat :=
  ⟨⟨.symbolRange, by decide⟩, by decide⟩

theorem witness_StepRunsDecodedCommand :
    (withInputs State.reset [.command 0xE0000001#32]).chan.inputs = .command 0xE0000001#32 :: [] ∧
      (withInputs State.reset [.command 0xE0000001#32]).chan.waiting = none ∧
      decode 0xE0000001#32 = .instr (.rdreg 1#5) := by decide

theorem witness_StepWaits :
    State.reset.chan.inputs = [] ∧
      (withInputs waitingCore [.command 0#32]).chan.inputs = .command 0#32 :: [] ∧
      (∀ a b, HostInput.command 0#32 ≠ .hardwareReset a b) ∧
      (withInputs waitingCore [.command 0#32]).chan.waiting ≠ none :=
  ⟨rfl, rfl, by simp, by decide⟩

theorem witness_OneResponsePerCommand :
    (∃ t, State.reset.chan.waiting = none ∧ exec .nop State.reset = .next t ∧ t.chan.waiting = none) ∧
      ∃ t, (withSink finishing [.ok]).chan.waiting = none ∧
        exec .efinish (withSink finishing [.ok]) = .next t ∧ t.chan.waiting ≠ none :=
  ⟨⟨_, rfl, rfl, by decide⟩, _, rfl, rfl, by decide⟩

/-- The untaken response: a command that completes, and one that waits for the sink. -/
theorem witness_OneResponsePerCommand_untaken :
    (∃ s t : State, s.chan.inputs = .untaken 0x00000000#32 :: [] ∧ s.chan.waiting = none ∧
      runWord 0x00000000#32 (s.setInputs []) = .next t ∧ t.chan.waiting = none) ∧
      ∃ s t : State, s.chan.inputs = .untaken 0xA0000000#32 :: [] ∧ s.chan.waiting = none ∧
        runWord 0xA0000000#32 (s.setInputs []) = .next t ∧ t.chan.waiting ≠ none :=
  ⟨⟨withInputs State.reset [.untaken 0x00000000#32], _, rfl, rfl, rfl, by decide⟩,
    withInputs (withSink finishing [.ok]) [.untaken 0xA0000000#32], _, rfl, rfl, rfl, by decide⟩

theorem witness_HardwareResetAtAnyTime :
    (withInputs waitingCore [.hardwareReset [.ok] []]).chan.inputs = .hardwareReset [.ok] [] :: [] := by
  decide

theorem witness_AbandonedCommand :
    ∃ s r : State, s.chan.inputs = .abandoned 0xA0000000#32 [] [] :: [] ∧ s.chan.waiting = none ∧
      runWord 0xA0000000#32 (s.setInputs []) = .next r ∧ r.chan.waiting ≠ none :=
  ⟨withInputs (withSink finishing [.ok]) [.abandoned 0xA0000000#32 [] []], _, rfl, rfl, rfl, by decide⟩

/-- A legal command that completes, one whose state depends on the symbol, one that is illegal. -/
theorem witness_LegalityTable :
    (∃ t, Instr.efinish.wellFormed = true ∧ finishing.legal .efinish = true ∧
      finishing.chan.waiting = none ∧ exec .efinish finishing = .next t ∧ t.chan.waiting = none ∧
      t.chan.responses = finishing.chan.responses ++ [{ status := 0#4, data := 0#32 }]) ∧
      (∃ t, Instr.dsym.wellFormed = true ∧ decRange1.legal .dsym = true ∧
        decRange1.chan.waiting = none ∧ exec .dsym decRange1 = .next t ∧ t.chan.waiting = none ∧
        t.chan.responses = decRange1.chan.responses ++ [{ status := 0#4, data := 0#32 }]) ∧
      State.reset.legal .ebegin = false ∧ decode 0x80000000#32 = .instr .ebegin :=
  ⟨⟨_, by decide, by decide, rfl, rfl, by decide⟩, ⟨_, by decide, by decide, rfl, rfl, by decide⟩,
    by decide⟩

theorem witness_IllegalCommandRaised :
    (Instr.rdcnt 257#9).wellFormed = false ∧ State.reset.legal .ebegin = false := by decide

theorem witness_FaultKeepsModelAndLatches :
    (∃ t, exec .ebegin State.reset = .next t ∧ t.st = .fault) ∧
      ∃ t, exec .esym (withSink encRange1 [.ok, .ok, .fail]) = .next t ∧ t.st = .fault :=
  ⟨⟨_, rfl, by decide⟩, _, rfl, by decide⟩

theorem witness_FaultStateAnswers :
    (faulted.st = .fault ∧ faulted.faults.fcause ≠ 0#4 ∧ faulted.chan.waiting = none) ∧
      (14#5 : RegNo).toNat ≤ 14 ∧ (256#9 : Symbol).toNat ≤ 256 ∧ faulted.model.mvalid = true ∧
      (withInputs faulted [.command 0x80000000#32]).chan.inputs = .command 0x80000000#32 :: [] := by
  decide

/-- The last clause: a word that is none of the commands legal in `FAULT`. -/
theorem witness_FaultStateAnswers_illegal :
    decode 0x80000000#32 ≠ .instr .nop ∧ decode 0x80000000#32 ≠ .instr .reset ∧
      (∀ r, decode 0x80000000#32 ≠ .instr (.rdreg r)) ∧
      ∀ x, decode 0x80000000#32 ≠ .instr (.rdcnt x) := by
  have e : decode 0x80000000#32 = .instr .ebegin := by decide
  simp [e]

/-- The last clause's boundary: `RDCNT` where there is no valid model. -/
theorem witness_FaultStateAnswers_rdcnt :
    ∃ s : State, s.st = .fault ∧ s.faults.fcause ≠ 0#4 ∧ s.chan.waiting = none ∧
      s.model.mvalid = false ∧ s.chan.inputs = .command 0x40000041#32 :: [] ∧
      decode 0x40000041#32 = .instr (.rdcnt 65#9) :=
  ⟨{ withInputs faulted [.command 0x40000041#32] with model := State.reset.model }, by decide⟩

theorem witness_FaultRecordIsSticky :
    ∃ t, Instr.nop ≠ .reset ∧ exec .nop allFlags = .next t ∧ allFlags.faults.eIo = true ∧
      allFlags.faults.eModel = true ∧ allFlags.faults.ePrec = true ∧
      allFlags.faults.eCorrupt = true ∧ allFlags.faults.eIll = true ∧
      allFlags.faults.fcause ≠ 0#4 :=
  ⟨_, by decide, rfl, by decide⟩

theorem witness_OnlyResetLeavesFault :
    ∃ t, Instr.ebegin ≠ .reset ∧ faulted.st = .fault ∧ exec .ebegin faulted = .next t :=
  ⟨_, by decide, rfl, rfl⟩

theorem witness_FaultKindSources :
    (∃ t, exec (.ldcnt 1#9 2#15) (small .idle modelFull) = .next t ∧ t.faults.eModel = true) ∧
      (∃ t, exec .esym (emptyRange encRange1) = .next t ∧ t.faults.ePrec = true) ∧
      (∃ t, exec .dbegin (withSource (small .idle (uniform .adaptive)) [] 15) = .next t ∧
        t.faults.eCorrupt = true) ∧
      ∃ t, exec .esym (withSink encRange1 [.fail]) = .next t ∧ t.faults.eIo = true :=
  ⟨⟨_, rfl, by decide⟩, ⟨_, rfl, by decide⟩, ⟨_, rfl, by decide⟩, _, rfl, by decide⟩

theorem witness_RdregReadsTheMap :
    [0x41431001#32, faulted.statusWord, faulted.iv.low.setWidth 32, faulted.iv.high.setWidth 32,
        faulted.iv.code.setWidth 32, faulted.iv.pend, faulted.latch.rl.setWidth 32,
        faulted.latch.rh.setWidth 32, faulted.latch.rt.setWidth 32, faulted.latch.sv.setWidth 32,
        faulted.latch.sym.setWidth 32, faulted.model.tot.setWidth 32, 0x00004000#32,
        faulted.faults.fcause.setWidth 32, faulted.faults.fcmd][(14#5 : RegNo).toNat]? =
          some 0x90000000#32 ∧
      15 ≤ (15#5 : RegNo).toNat := by decide

theorem witness_MinitBuildsUniformModel :
    (small .done modelFull).st = .done ∧
      ¬((small .encReady modelFull).st = .idle ∨ (small .encReady modelFull).st = .done) := by decide

/-- `LDCNT`: the largest count that fits (M7), the three refusals, a symbol out of range, a wrong mode. -/
theorem witness_LdcntLoadsOrRefuses :
    ((small .idle (uniform .static)).st = .idle ∧ (uniform .static).mode = .static ∧
        (uniform .static).mvalid = true ∧ 1 ≤ (16128#15 : Count).toNat ∧
        (16128#15 : Count).toNat ≤ 16384 ∧
        (uniform .static).tot.toNat + (16128#15 : Count).toNat -
          (CountTable.read (uniform .static).cnt (256#9 : Symbol).toNat).toNat ≤ 16384) ∧
      ((0#15 : Count).toNat = 0 ∧ 16384 < (16385#15 : Count).toNat ∧
        16384 < (uniform .static).tot.toNat + (16129#15 : Count).toNat -
          (CountTable.read (uniform .static).cnt (0#9 : Symbol).toNat).toNat) ∧
      ¬((257#9 : Symbol).toNat ≤ 256) ∧ ¬((uniform .adaptive).mode = .static) := by decide

theorem witness_RdcntReadsCount :
    ((256#9 : Symbol).toNat ≤ 256 ∧ faulted.model.mvalid = true) ∧ ¬((257#9 : Symbol).toNat ≤ 256) ∧
      ¬(State.reset.model.mvalid = true) := by decide

/-- With `witness_sound_uniform`; a total above the ceiling; a symbol out of range. -/
theorem witness_GetprobLatchesRange :
    ((256#9 : Symbol).toNat ≤ 256 ∧ encReady1.st = .encReady) ∧
      (∃ s : State, s.st = .encReady ∧ 16384 < s.model.tot.toNat) ∧ ¬((257#9 : Symbol).toNat ≤ 256) :=
  ⟨by decide, ⟨small .encReady { uniform .adaptive with tot := 16385#15 }, by decide⟩, by decide⟩

/-- With `witness_sound_uniform`: `SV` just below the total, and equal to it. -/
theorem witness_GetsymFindsSymbol :
    (∃ s : State, s.st = .decCount ∧ s.model = uniform .adaptive ∧ s.latch.sv.toNat = 256 ∧
      s.latch.sv.toNat < s.model.tot.toNat) ∧
      (∃ s : State, s.st = .decCount ∧ s.model.tot.toNat ≤ s.latch.sv.toNat) ∧
      State.reset.st ≠ .decCount :=
  ⟨⟨decCount1.setLatch { Latch.zero with sv := 256#15 }, by decide⟩,
    ⟨decCount1.setLatch { Latch.zero with sv := 257#15 }, by decide⟩, by decide⟩

/-- With `witness_sound_uniform`, `witness_sound_tables`: below the ceiling, at it, and static mode. -/
theorem witness_UpdateCountsAndRescales :
    ((256#9 : Symbol).toNat ≤ 256 ∧ decReady1.st = .decReady ∧ decReady1.model.mode = .adaptive ∧
        decReady1.model.tot.toNat + 1 < 16384) ∧
      (modelM5.mode = .adaptive ∧ modelM5.tot.toNat + 1 = 16384) ∧
      ¬((uniform .static).mode = .adaptive) := by decide

/-- With `witness_sound_tables`. -/
theorem witness_RescaleBoundsAndOrder :
    (256#9 : Symbol).toNat ≤ 256 ∧ modelM6.mode = .adaptive ∧ modelM6.tot.toNat + 1 = 16384 ∧
      (CountTable.read (modelM6.increment 256#9).cnt 1).toNat ≤
        (CountTable.read (modelM6.increment 256#9).cnt 2).toNat := by decide

/-- With `witness_sound_uniform`. -/
theorem witness_RangesPartitionTotal :
    256 < (uniform .adaptive).tot.toNat ∧ CountTable.cum (uniform .adaptive).cnt 256 ≤ 256 ∧
      256 < CountTable.cum (uniform .adaptive).cnt 257 := by decide +kernel

/-- With `witness_sound_uniform`. -/
theorem witness_GetprobAndGetsymAgree :
    ∃ t u, (65#9 : Symbol).toNat ≤ 256 ∧ decCount1.st = .decCount ∧ encReady1.st = .encReady ∧
      encReady1.model = decCount1.model ∧ decCount1.model = uniform .adaptive ∧
      decCount1.latch.sv.toNat < decCount1.model.tot.toNat ∧ exec .getsym decCount1 = .next t ∧
      exec (.getprob 65#9) encReady1 = .next u :=
  ⟨_, _, by decide, rfl, rfl, rfl, rfl, by decide, rfl, rfl⟩

/-- Rows 9 and 15 of section 3.2: both clauses. -/
theorem witness_NarrowStaysInside :
    ((0x3FFF#16).toNat ≤ (0x8000#16).toNat ∧ (16383#15).toNat < (16384#15).toNat ∧
        (16384#15).toNat ≤ (16384#15).toNat ∧ 16386 * 16383 / 16384 < 16386 * 16384 / 16384) ∧
      (0x1000#16).toNat ≤ (0x1003#16).toNat ∧ (0#15).toNat < (1#15).toNat ∧
      (1#15).toNat ≤ (257#15).toNat ∧ 4 * 1 / 257 ≤ 4 * 0 / 257 := by decide

/-- Section 3.3: the bounds at which each condition holds. -/
theorem witness_RenormConditions :
    (bounds 0x0000#16 0x7FFF#16 0#16 0#32).e1 = true ∧ (bounds 0x8000#16 0xFFFF#16 0#16 0#32).e2 = true ∧
      (bounds 0x4000#16 0xBFFF#16 0#16 0#32).e3 = true ∧
      (bounds 0x4000#16 0xBFFF#16 0#16 0#32).low.toNat ≤
        (bounds 0x4000#16 0xBFFF#16 0#16 0#32).high.toNat := by decide

theorem witness_StepsDoubleTheInterval :
    (bounds 0x7FFF#16 0x7FFF#16 0#16 0#32).e1 = true ∧ (bounds 0x8000#16 0x8000#16 0#16 0#32).e2 = true ∧
      (bounds 0x7FFF#16 0x8000#16 0#16 0#32).e3 = true := by decide

/-- Row 9 of the loops (`8000, FFFF, 2`); E3 at the last free count, E3 at the maximum; no condition. -/
theorem witness_EncoderRenormSteps :
    ((atBounds 0x8000#16 0xFFFF#16 2#32 3).iv.low.getLsbD 15 =
        (atBounds 0x8000#16 0xFFFF#16 2#32 3).iv.high.getLsbD 15 ∧
      (atBounds 0x8000#16 0xFFFF#16 2#32 3).chan.sinkAnswers = List.replicate (1 + 2) .ok ++ []) ∧
      ((bounds 0x4000#16 0xBFFF#16 0#16 0#32).low.getLsbD 15 ≠
          (bounds 0x4000#16 0xBFFF#16 0#16 0#32).high.getLsbD 15 ∧
        (bounds 0x4000#16 0xBFFF#16 0#16 0#32).low.getLsbD 14 = true ∧
        (bounds 0x4000#16 0xBFFF#16 0#16 0#32).high.getLsbD 14 = false) ∧
      (bounds 0x4000#16 0xBFFF#16 0#16 0xFFFFFFFE#32).pend ≠ 0xFFFFFFFF#32 ∧
      (bounds 0x4000#16 0xBFFF#16 0#16 0xFFFFFFFF#32).pend = 0xFFFFFFFF#32 ∧
      (bounds 0x3FFF#16 0xBFFF#16 0#16 0#32).low.getLsbD 15 ≠
        (bounds 0x3FFF#16 0xBFFF#16 0#16 0#32).high.getLsbD 15 ∧
      ¬((bounds 0x3FFF#16 0xBFFF#16 0#16 0#32).low.getLsbD 14 = true ∧
        (bounds 0x3FFF#16 0xBFFF#16 0#16 0#32).high.getLsbD 14 = false) := by decide +kernel

/-- Row 5 of the loops: a one-element interval, 16 steps, the bits `0011111111111111`. -/
theorem witness_RenormEndsInSixteenSteps :
    (atBounds 0x3FFF#16 0x3FFF#16 0#32 16).iv.low.toNat ≤
        (atBounds 0x3FFF#16 0x3FFF#16 0#32 16).iv.high.toNat ∧
      renormE 16 (atBounds 0x3FFF#16 0x3FFF#16 0#32 16) =
        .goesOn ()
          ((atBounds 0x0000#16 0xFFFF#16 0#32 0).setChan
            { State.reset.chan with
              events := (bits [0, 0, 1, 1, 1, 1, 1, 1, 1, 1, 1, 1, 1, 1, 1, 1]).map .emit }) := by
  decide

theorem witness_EbeginStartsRun :
    ((small .idle (uniform .static)).st = .idle ∧ (uniform .static).mvalid = true) ∧
      ¬(State.reset.st = .idle ∧ State.reset.model.mvalid = true) := by decide

/-- T1, second symbol: the latch (65, 67, 258), all seven steps are E3 (`7F9F`, `809B` to `4F80`, `CDFF`). -/
def secondSymbol (pend : Word) (a : List SinkAnswer) : State :=
  withSink
    (((small .encRange modelM2).setIv (bounds 0x5F80#16 0xDEFF#16 0#16 pend)).setLatch
      (range 65#15 67#15 258#15 65#9)) a

/-- T1, third `ESYM`: narrowed `70B6`, `7132`, seven pending bits, the 14 bits of the vector in 8 steps. T1,
second `ESYM`: nothing emitted; with the largest `PEND` that has room for its seven deferred bits, and with
the next one, which has none. -/
theorem witness_EsymCompletes :
    (thirdSymbol.st = .encRange ∧
        narrow thirdSymbol.iv.low thirdSymbol.iv.high thirdSymbol.latch.rl thirdSymbol.latch.rh
            thirdSymbol.latch.rt = some (0x70B6#16, 0x7132#16) ∧
        Interval.steps 16 (bounds 0x70B6#16 0x7132#16 0#16 7#32) = 8 ∧
        Interval.emitted 16 { thirdSymbol.iv with low := 0x70B6#16, high := 0x7132#16 } =
          bits [0, 1, 1, 1, 1, 1, 1, 1, 1, 1, 1, 0, 0, 0] ∧
        thirdSymbol.iv.pend.toNat +
          Interval.deferred 16 { thirdSymbol.iv with low := 0x70B6#16, high := 0x7132#16 } < 2 ^ 32 ∧
        thirdSymbol.chan.sinkAnswers = List.replicate 14 .ok ++ List.replicate 9 .ok) ∧
      ((secondSymbol 0xFFFFFFF8#32 []).st = .encRange ∧
        narrow (secondSymbol 0xFFFFFFF8#32 []).iv.low (secondSymbol 0xFFFFFFF8#32 []).iv.high
            (secondSymbol 0xFFFFFFF8#32 []).latch.rl (secondSymbol 0xFFFFFFF8#32 []).latch.rh
            (secondSymbol 0xFFFFFFF8#32 []).latch.rt = some (0x7F9F#16, 0x809B#16) ∧
        Interval.emitted 16 (bounds 0x7F9F#16 0x809B#16 0#16 0xFFFFFFF8#32) = [] ∧
        (0xFFFFFFF8#32).toNat + Interval.deferred 16 (bounds 0x7F9F#16 0x809B#16 0#16 0xFFFFFFF8#32) <
          2 ^ 32) ∧
      (secondSymbol 0xFFFFFFF9#32 []).st = .encRange ∧
      2 ^ 32 ≤ (0xFFFFFFF9#32).toNat +
        Interval.deferred 16 (bounds 0x7F9F#16 0x809B#16 0#16 0xFFFFFFF9#32) := by decide +kernel

/-- R143, R226 (b): that `ESYM` with no room for its deferred bits responds `(3, 0)`, nothing emitted. -/
theorem test_esym_pend_overflow :
    answer (exec .esym (secondSymbol 0xFFFFFFF9#32 [])) = err 3#4 ∧
      seen (exec .esym (secondSymbol 0xFFFFFFF9#32 []))
          (fun t => (t.st, t.faults.ePrec, t.faults.fcmd, t.chan.events)) =
        some (.fault, true, 0x90000000#32, []) ∧
      answer (exec .esym (secondSymbol 0xFFFFFFF8#32 [])) = ok 0#32 := by decide +kernel

theorem witness_EmptyIntervalIsPrecisionError :
    (narrow (emptyRange encRange1).iv.low (emptyRange encRange1).iv.high
          (emptyRange encRange1).latch.rl (emptyRange encRange1).latch.rh
          (emptyRange encRange1).latch.rt = none ∧ (emptyRange encRange1).st = .encRange) ∧
      narrow (emptyRange decRange1).iv.low (emptyRange decRange1).iv.high
          (emptyRange decRange1).latch.rl (emptyRange decRange1).latch.rh
          (emptyRange decRange1).latch.rt = none ∧ (emptyRange decRange1).st = .decRange ∧
      (emptyRange decRange1).latch.sym ≠ 256#9 := by decide

theorem witness_EfinishEndsRun :
    finishing.st = .encEos ∧
      finishing.chan.sinkAnswers = List.replicate (finishing.iv.pend.toNat + 3) .ok ++ [] := by decide +kernel

/-- The first request and the last: of `EFINISH` (the last is the flush), and of the third `ESYM` of T1 (the
narrowed interval and its 14 bits as in `witness_EsymCompletes`). -/
theorem witness_SinkFailureIsIoError :
    ((withSink finishing [.fail]).st = .encEos ∧ 0 < (withSink finishing [.fail]).iv.pend.toNat + 3 ∧
        (withSink finishing [.fail]).chan.sinkAnswers = List.replicate 0 .ok ++ (.fail :: []) ∧
        5 < finishing.iv.pend.toNat + 3 ∧
        (withSink finishing [.ok, .ok, .ok, .ok, .ok, .fail]).chan.sinkAnswers =
          List.replicate 5 .ok ++ (.fail :: [])) ∧
      (withSink thirdSymbol [.fail]).st = .encRange ∧ (withSink thirdSymbol [.fail]).iv = thirdSymbol.iv ∧
      (withSink thirdSymbol [.fail]).latch = thirdSymbol.latch ∧
      (Interval.emitted 16 { thirdSymbol.iv with low := 0x70B6#16, high := 0x7132#16 }).length = 14 ∧
      (withSink thirdSymbol [.fail]).chan.sinkAnswers = List.replicate 0 .ok ++ (.fail :: []) ∧
      (withSink thirdSymbol (List.replicate 13 .ok ++ [.fail])).chan.sinkAnswers =
        List.replicate 13 .ok ++ (.fail :: []) := by decide +kernel

/-- The same requests, unanswered. -/
theorem witness_SilentSinkHoldsTheCore :
    ((withSink finishing []).st = .encEos ∧
        (withSink finishing []).chan.sinkAnswers = List.replicate 0 .ok ∧
        5 < finishing.iv.pend.toNat + 3 ∧
        (withSink finishing [.ok, .ok, .ok, .ok, .ok]).chan.sinkAnswers = List.replicate 5 .ok) ∧
      (withSink thirdSymbol []).st = .encRange ∧ (withSink thirdSymbol []).iv = thirdSymbol.iv ∧
      (withSink thirdSymbol []).latch = thirdSymbol.latch ∧
      (withSink thirdSymbol []).chan.sinkAnswers = List.replicate 0 .ok ∧
      (withSink thirdSymbol (List.replicate 13 .ok)).chan.sinkAnswers = List.replicate 13 .ok := by
  decide +kernel

theorem witness_boundary_encReady1 : encReady1.Boundary := by
  refine ⟨?_, ?_, ?_, ?_, ?_, ?_⟩
  · unfold State.TableInv; decide
  · unfold State.ModelInv Model.sound; decide +kernel
  · unfold State.IntervalInv Interval.settled; decide
  · unfold State.LatchInv; decide +kernel
  · unfold State.SeqInv; decide
  · unfold State.FaultInv; decide

theorem witness_boundary_encRange1 : encRange1.Boundary := by
  refine ⟨?_, ?_, ?_, ?_, ?_, ?_⟩
  · unfold State.TableInv; decide
  · unfold State.ModelInv Model.sound; decide +kernel
  · unfold State.IntervalInv Interval.settled; decide
  · unfold State.LatchInv; decide +kernel
  · unfold State.SeqInv; decide
  · unfold State.FaultInv; decide

theorem witness_boundary_decReady1 : decReady1.Boundary := by
  refine ⟨?_, ?_, ?_, ?_, ?_, ?_⟩
  · unfold State.TableInv; decide
  · unfold State.ModelInv Model.sound; decide +kernel
  · unfold State.IntervalInv Interval.settled; decide
  · unfold State.LatchInv; decide +kernel
  · unfold State.SeqInv; decide
  · unfold State.FaultInv; decide

theorem witness_boundary_decCount1 : decCount1.Boundary := by
  refine ⟨?_, ?_, ?_, ?_, ?_, ?_⟩
  · unfold State.TableInv; decide
  · unfold State.ModelInv Model.sound; decide +kernel
  · unfold State.IntervalInv Interval.settled; decide
  · unfold State.LatchInv; decide +kernel
  · unfold State.SeqInv; decide
  · unfold State.FaultInv; decide

theorem witness_boundary_decRange1 : decRange1.Boundary := by
  refine ⟨?_, ?_, ?_, ?_, ?_, ?_⟩
  · unfold State.TableInv; decide
  · unfold State.ModelInv Model.sound; decide +kernel
  · unfold State.IntervalInv Interval.settled; decide
  · unfold State.LatchInv; decide +kernel
  · unfold State.SeqInv; decide
  · unfold State.FaultInv; decide

theorem witness_NarrowingSucceedsInARun :
    (encRange1.Boundary ∧ encRange1.st = .encRange) ∧ decRange1.Boundary ∧ decRange1.st = .decRange :=
  ⟨⟨witness_boundary_encRange1, rfl⟩, witness_boundary_decRange1, rfl⟩

theorem witness_NoCorruptionInScaling :
    (decReady1.Boundary ∧ decReady1.st = .decReady) ∧ decCount1.Boundary ∧ decCount1.st = .decCount :=
  ⟨⟨witness_boundary_decReady1, rfl⟩, witness_boundary_decCount1, rfl⟩

/-- A bit, a failure, the fourteenth and the fifteenth `EndOfStream`, no answer. -/
theorem witness_ReadBitAnswers :
    (withSource decReady1 [1] 0).chan.sourceAnswers = .bit true :: [] ∧
      (decReady1.setChan { decReady1.chan with sourceAnswers := [.fail] }).chan.sourceAnswers =
        .fail :: [] ∧
      (withSource decReady1 [] 1).chan.sourceAnswers = .endOfStream :: [] ∧
      ({ bounds 0#16 0xFFFF#16 0#16 0#32 with eoscnt := 14#4 } : Interval).eoscnt.toNat = 14 ∧
      ({ bounds 0#16 0xFFFF#16 0#16 0#32 with eoscnt := 13#4 } : Interval).eoscnt.toNat < 14 ∧
      decReady1.chan.sourceAnswers = [] := by decide

/-- `DBEGIN` with the given answers of the source. -/
def beginning (a : List SourceAnswer) : State :=
  (small .idle (uniform .adaptive)).setChan { State.reset.chan with sourceAnswers := a }

/-- Two bits are just enough (16 answers, 14 of them `EndOfStream`); after one bit the fifteenth
`EndOfStream` is the last request; `fail` and silence at the first request and at the last; no valid model. -/
theorem witness_DbeginFillsCode :
    (∀ a : List SourceAnswer, (beginning a).st = .idle ∧ (beginning a).model.mvalid = true ∧
        (beginning a).chan.sourceAnswers = a) ∧
      allTaken 0#4 (.bit true :: .bit true :: List.replicate 14 .endOfStream) ∧
      (SourceAnswer.bit true :: .bit true :: List.replicate 14 .endOfStream).length = 16 ∧
      allTaken 0#4 (.bit true :: List.replicate 14 .endOfStream) ∧
      (SourceAnswer.bit true :: List.replicate 14 .endOfStream).length = 15 ∧
      (SourceAnswer.bit true :: List.replicate 14 .endOfStream).count .endOfStream = 14 ∧
      allTaken 0#4 [] ∧ ¬(State.reset.st = .idle ∧ State.reset.model.mvalid = true) := by
  refine ⟨fun a => ⟨rfl, rfl, rfl⟩, ?_⟩
  unfold allTaken
  decide

/-- R170, R227 (c), R223: the fifteenth `EndOfStream` responds `(4, 0)` with what follows unasked, a `fail` at
the last request `(1, 0)`. -/
theorem test_dbegin_faults :
    answer (exec .dbegin (beginning (.bit true :: List.replicate 15 .endOfStream ++ [.bit true]))) =
        err 4#4 ∧
      seen (exec .dbegin (beginning (.bit true :: List.replicate 15 .endOfStream ++ [.bit true])))
          (fun t => t.chan.sourceAnswers) = some [.bit true] ∧
      answer (exec .dbegin (beginning (List.replicate 15 (.bit true) ++ [.fail]))) = err 1#4 := by decide

/-- `CODE` at each bound, just outside each bound (section 3.5), and another state. -/
theorem witness_GetcntScales :
    (atCode 0x3FFF#16 0x8000#16 0x3FFF#16).st = .decReady ∧
      (0x3FFF#16).toNat ≤ (0x3FFF#16).toNat ∧ (0x8000#16).toNat ≤ (0x8000#16).toNat ∧
      1 ≤ (atCode 0x3FFF#16 0x8000#16 0x8000#16).model.tot.toNat ∧
      (atCode 0x1000#16 0x9000#16 0x0FFF#16).iv.code.toNat <
        (atCode 0x1000#16 0x9000#16 0x0FFF#16).iv.low.toNat ∧
      (atCode 0x1000#16 0x9000#16 0x9001#16).iv.high.toNat <
        (atCode 0x1000#16 0x9000#16 0x9001#16).iv.code.toNat ∧
      257 ≤ ((0x9001 - 0x1000 + 1) * 257 - 1) / (0x9000 - 0x1000 + 1) ∧
      (atCode 0x1000#16 0x9000#16 0x9001#16).iv.low.toNat ≤
        (atCode 0x1000#16 0x9000#16 0x9001#16).iv.high.toNat ∧
      State.reset.st ≠ .decReady := by decide

/-- `atCode`, with `EOSCNT` and the answer given. -/
def atAnswer (lo hi code : Bound) (eoscnt : BitVec 4) (a : List SourceAnswer) : State :=
  (decReady1.setIv { bounds lo hi code 0#32 with eoscnt := eoscnt }).setChan
    { State.reset.chan with sourceAnswers := a }

/-- E2, E3 and no condition; each answer that is taken, the fourteenth `EndOfStream` among them; a `fail`, the
fifteenth `EndOfStream`, no answer. -/
theorem witness_DecoderRenormSteps :
    (∀ (n : BitVec 4) (a : List SourceAnswer),
        (atAnswer 0x8000#16 0xFFFF#16 0x8000#16 n a).iv.low.getLsbD 15 =
          (atAnswer 0x8000#16 0xFFFF#16 0x8000#16 n a).iv.high.getLsbD 15 ∧
        (atAnswer 0x4000#16 0xBFFF#16 0xBFFF#16 n a).iv.low.getLsbD 15 ≠
          (atAnswer 0x4000#16 0xBFFF#16 0xBFFF#16 n a).iv.high.getLsbD 15 ∧
        (atAnswer 0x4000#16 0xBFFF#16 0xBFFF#16 n a).iv.low.getLsbD 14 = true ∧
        (atAnswer 0x4000#16 0xBFFF#16 0xBFFF#16 n a).iv.high.getLsbD 14 = false ∧
        (atAnswer 0x8000#16 0xFFFF#16 0x8000#16 n a).chan.sourceAnswers = a ∧
        (atAnswer 0x4000#16 0xBFFF#16 0xBFFF#16 n a).chan.sourceAnswers = a ∧
        (atAnswer 0x8000#16 0xFFFF#16 0x8000#16 n a).iv.eoscnt = n) ∧
      (SourceAnswer.bit true).takenAs 14#4 true 14#4 ∧
      SourceAnswer.endOfStream.takenAs 13#4 false 14#4 ∧ (14#4 : BitVec 4).toNat = 14 ∧
      (0x4000#16).toNat ≤ (0xBFFF#16).toNat ∧
      (atCode 0x3FFF#16 0xBFFF#16 0x8000#16).iv.low.getLsbD 15 ≠
        (atCode 0x3FFF#16 0xBFFF#16 0x8000#16).iv.high.getLsbD 15 ∧
      ¬((atCode 0x3FFF#16 0xBFFF#16 0x8000#16).iv.low.getLsbD 14 = true ∧
        (atCode 0x3FFF#16 0xBFFF#16 0x8000#16).iv.high.getLsbD 14 = false) := by
  refine ⟨fun n a => ⟨?_, ?_, ?_, ?_, rfl, rfl, rfl⟩, ?_⟩
  · exact (by decide : (0x8000#16).getLsbD 15 = (0xFFFF#16).getLsbD 15)
  · exact (by decide : (0x4000#16).getLsbD 15 ≠ (0xBFFF#16).getLsbD 15)
  · exact (by decide : (0x4000#16).getLsbD 14 = true)
  · exact (by decide : (0xBFFF#16).getLsbD 14 = false)
  · unfold SourceAnswer.takenAs
    decide

/-- R173: an E1 step takes the fourteenth `EndOfStream` as 0, and the fifteenth raises. -/
theorem test_renormD_end_of_stream :
    renormD 1 (atAnswer 0x8000#16 0xFFFF#16 0x8001#16 13#4 [.endOfStream]) =
        .goesOn () (atAnswer 0x0000#16 0xFFFF#16 0x0002#16 14#4 []) ∧
      renormD 1 (atAnswer 0x8000#16 0xFFFF#16 0x8001#16 14#4 [.endOfStream]) =
        .raises .corruptStreamError (atAnswer 0x0000#16 0xFFFF#16 0x8001#16 14#4 []) := by decide

theorem witness_DsymOfEosEndsRun :
    (decRange1.setLatch (range 256#15 257#15 257#15 256#9)).st = .decRange ∧
      (decRange1.setLatch (range 256#15 257#15 257#15 256#9)).latch.sym = 256#9 := by decide

/-- The third `DSYM` of T4, with `EOSCNT` and the answers given. -/
def decoding (eoscnt : BitVec 4) (a : List SourceAnswer) : State :=
  (thirdDecoded.setIv { bounds 0x4F80#16 0xCDFF#16 0x7132#16 0#32 with eoscnt := eoscnt }).setChan
    { State.reset.chan with sourceAnswers := a }

/-- Its first seven answers. -/
def sevenAnswers : List SourceAnswer :=
  [.bit true, .bit false, .bit true] ++ List.replicate 4 .endOfStream

/-- The third `DSYM` of T4 takes three bits and five `EndOfStream` in its 8 steps; where `EOSCNT` was 9 the
last of them is the fourteenth. The first request and the eighth may also meet `fail`, the fifteenth
`EndOfStream` or silence. -/
theorem witness_DsymCompletes :
    (∀ (n : BitVec 4) (a : List SourceAnswer), (decoding n a).st = .decRange ∧
        (decoding n a).latch.sym ≠ 256#9 ∧ (decoding n a).chan.sourceAnswers = a ∧
        (decoding n a).iv.eoscnt = n ∧
        narrow (decoding n a).iv.low (decoding n a).iv.high (decoding n a).latch.rl
          (decoding n a).latch.rh (decoding n a).latch.rt = some (0x70B6#16, 0x7132#16)) ∧
      (decoding 0#4 thirdDecoded.chan.sourceAnswers).iv = thirdDecoded.iv ∧
      Interval.steps 16 { (decoding 9#4 []).iv with low := 0x70B6#16, high := 0x7132#16 } = 8 ∧
      thirdDecoded.chan.sourceAnswers =
        [.bit true, .bit false, .bit true] ++ List.replicate 5 .endOfStream ∧
      allTaken 0#4 thirdDecoded.chan.sourceAnswers ∧ allTaken 9#4 thirdDecoded.chan.sourceAnswers ∧
      thirdDecoded.chan.sourceAnswers.length = 8 ∧
      (0x70B6#16).toNat ≤ (decoding 0#4 []).iv.code.toNat ∧
      (decoding 0#4 []).iv.code.toNat ≤ (0x7132#16).toNat ∧
      allTaken 10#4 sevenAnswers ∧
      sevenAnswers.length = 7 ∧
      (10#4 : BitVec 4).toNat + sevenAnswers.count .endOfStream = 14 ∧
      allTaken 14#4 [] ∧ (14#4 : BitVec 4).toNat + ([] : List SourceAnswer).count .endOfStream = 14 := by
  refine ⟨fun n a => ⟨rfl, ?_, rfl, rfl, ?_⟩, ?_⟩
  · exact (by decide : (66#9 : Symbol) ≠ 256#9)
  · exact (by decide :
      narrow 0x4F80#16 0xCDFF#16 68#15 69#15 259#15 = some (0x70B6#16, 0x7132#16))
  · unfold allTaken
    decide

/-- R175, R227 (c), R223: the eighth answer of that `DSYM` is the fifteenth `EndOfStream`: `(4, 0)`, `FCMD`;
or `fail`: `(1, 0)`. -/
theorem test_dsym_faults :
    answer (exec .dsym (decoding 10#4 thirdDecoded.chan.sourceAnswers)) = err 4#4 ∧
      seen (exec .dsym (decoding 10#4 thirdDecoded.chan.sourceAnswers))
          (fun t => (t.st, t.faults.eCorrupt, t.faults.fcmd)) =
        some (.fault, true, 0xD0000000#32) ∧
      answer (exec .dsym (decoding 10#4 (List.replicate 7 (.bit true) ++ [.fail]))) = err 1#4 := by decide

theorem witness_EncoderAndDecoderInLockStep :
    (encRange1.st = .encRange ∧ decRange1.st = .decRange ∧ decRange1.latch.sym ≠ 256#9 ∧
      encRange1.iv.low = decRange1.iv.low ∧ encRange1.iv.high = decRange1.iv.high ∧
      encRange1.latch.rl = decRange1.latch.rl ∧ encRange1.latch.rh = decRange1.latch.rh ∧
      encRange1.latch.rt = decRange1.latch.rt) ∧
      seen (exec .esym encRange1) (fun e => (decide (e.st = .fault), e.chan.waiting)) =
        some (false, none) ∧
      seen (exec .dsym decRange1) (fun d => (decide (d.st = .fault), d.chan.waiting)) =
        some (false, none) := by decide

/-- With `witness_sound_uniform`: the first symbol of T4. -/
theorem witness_SymbolRecovery :
    (0#16).toNat ≤ (0x40FF#16).toNat ∧ (0x40FF#16).toNat ≤ (0xFFFF#16).toNat ∧
      CountTable.cum (uniform .adaptive).cnt 65 ≤ ((0x40FF - 0 + 1) * 257 - 1) / (0xFFFF - 0 + 1) ∧
      ((0x40FF - 0 + 1) * 257 - 1) / (0xFFFF - 0 + 1) < CountTable.cum (uniform .adaptive).cnt 66 ∧
      narrow 0#16 0xFFFF#16 (BitVec.ofNat 15 (CountTable.cum (uniform .adaptive).cnt 65))
        (BitVec.ofNat 15 (CountTable.cum (uniform .adaptive).cnt 66)) (uniform .adaptive).tot =
          some (0x40BF#16, 0x41BD#16) := by decide

theorem witness_ChannelUse :
    ∃ t, exec .getcnt decReady1 = .next t ∧ Instr.getcnt ≠ .esym ∧ Instr.getcnt ≠ .efinish ∧
      Instr.getcnt ≠ .dbegin ∧ Instr.getcnt ≠ .dsym :=
  ⟨_, rfl, by decide⟩

theorem witness_WritersOfState :
    ∃ t, exec .nop encReady1 = .next t ∧ Instr.nop ≠ .reset ∧ (∀ m, Instr.nop ≠ .minit m) ∧
      (∀ x v, Instr.nop ≠ .ldcnt x v) ∧ (∀ x, Instr.nop ≠ .update x) ∧
      (∀ x, Instr.nop ≠ .getprob x) :=
  ⟨_, rfl, by simp⟩

theorem witness_StepKeepsInvariant :
    (withInputs encRange1 [.command 0x90000000#32]).Inv ∧
      ∃ t, step (withInputs encRange1 [.command 0x90000000#32]) = .next t ∧ t.st = .encReady :=
  ⟨⟨by unfold State.TableInv; decide, fun _ => witness_boundary_encRange1⟩, _, rfl, by decide⟩

theorem witness_StepKeepsModelSound :
    encRange1.ModelInv ∧ (encRange1.st ≠ .idle → encRange1.st ≠ .fault → encRange1.model.mvalid = true) ∧
      ∃ t, step encRange1 = .next t :=
  ⟨witness_boundary_encRange1.2.1, witness_boundary_encRange1.2.2.2.2.1.2, _, rfl⟩

theorem witness_StepKeepsTableCanonical :
    (small .encReady modelM6).TableInv ∧ ∃ t, step (small .encReady modelM6) = .next t :=
  ⟨by unfold State.TableInv; decide, _, rfl⟩

theorem witness_MicroStepsRefineCommands :
    ∃ t m, thirdSymbol.legal .esym = true ∧ thirdSymbol.chan.waiting = none ∧
      accept .esym thirdSymbol = some m ∧ exec .esym thirdSymbol = .next t ∧ t.chan.waiting = none :=
  ⟨_, _, by decide, rfl, rfl, rfl, by decide⟩

end Sys2Proof.Tests
end

section
/-! SUPPORT. What decodes (`spec/30_encoding.md` rules R82 to R89): one inversion per operand format, and
from them the operand constraint of every command that the decoder answers. -/

namespace Sys2Proof

/-- Format N (R82). -/
theorem decodeN_eq_instr {w : Word} {i j : Instr} :
    decodeN w i = .instr j ↔ w.extractLsb' 0 28 = 0#28 ∧ i = j := by
  unfold decodeN
  split <;> simp [*]

/-- Format M (R83). -/
theorem decodeM_eq_instr {w : Word} {j : Instr} :
    decodeM w = .instr j ↔ w.extractLsb' 1 27 = 0#27 ∧ .minit (modeField w) = j := by
  unfold decodeM
  split <;> simp [*]

/-- Format S (R84). -/
theorem decodeS_eq_instr {w : Word} {mk : Symbol → Instr} {j : Instr} :
    decodeS w mk = .instr j ↔
      w.extractLsb' 9 19 = 0#19 ∧ symbolOk (symbolField w) = true ∧ mk (symbolField w) = j := by
  unfold decodeS
  split
  · simp [*]
  · split <;> simp_all

/-- Format V (R85). -/
theorem decodeV_eq_instr {w : Word} {j : Instr} :
    decodeV w = .instr j ↔
      w.extractLsb' 24 4 = 0#4 ∧ symbolOk (symbolField w) = true ∧
        .ldcnt (symbolField w) (countField w) = j := by
  unfold decodeV
  split
  · simp [*]
  · split <;> simp_all

/-- Format R (R86). -/
theorem decodeR_eq_instr {w : Word} {j : Instr} :
    decodeR w = .instr j ↔
      w.extractLsb' 5 23 = 0#23 ∧ registerOk (registerField w) = true ∧
        .rdreg (registerField w) = j := by
  unfold decodeR
  split
  · simp [*]
  · split <;> simp_all

theorem decodeN_wellFormed {w : Word} {i j : Instr} (hi : i.wellFormed = true)
    (h : decodeN w i = .instr j) : j.wellFormed = true := by
  obtain ⟨-, rfl⟩ := decodeN_eq_instr.mp h
  exact hi

theorem decodeS_wellFormed {w : Word} {mk : Symbol → Instr} {j : Instr}
    (hmk : ∀ x, (mk x).wellFormed = symbolOk x) (h : decodeS w mk = .instr j) :
    j.wellFormed = true := by
  obtain ⟨-, hs, rfl⟩ := decodeS_eq_instr.mp h
  exact (hmk _).trans hs

/-- A word that decodes, decodes to a command that meets the operand constraint of its row (R88). -/
theorem decode_wellFormed {w : Word} {i : Instr} (h : decode w = .instr i) : i.wellFormed = true := by
  unfold decode at h
  split at h
  case h_1 | h_2 | h_7 | h_9 | h_10 | h_11 | h_12 | h_13 | h_14 => exact decodeN_wellFormed rfl h
  case h_5 | h_6 | h_8 => exact decodeS_wellFormed (fun _ => rfl) h
  case h_3 =>
    obtain ⟨-, rfl⟩ := decodeM_eq_instr.mp h
    rfl
  case h_4 =>
    obtain ⟨-, hs, rfl⟩ := decodeV_eq_instr.mp h
    exact hs
  case h_15 =>
    obtain ⟨-, hr, rfl⟩ := decodeR_eq_instr.mp h
    exact hr
  case h_16 => cases h

end Sys2Proof
end

section
/-! SUPPORT. A fault before any change, as the statements describe it; what a word does, by what it decodes
to; and what a step is, by the host's next action. -/

namespace Sys2Proof.Machine

/-! ### Raising a fault (R230, R231) -/

theorem FaultRegs.record_afterRaise (f : FaultRegs) (k : FaultKind) (w : Word) :
    f.afterRaise (f.record k w) k w := by
  by_cases h : f.fcause = 0#4 <;> cases k <;>
    simp [FaultRegs.afterRaise, FaultRegs.record, FaultRegs.setFlag, FaultRegs.setFirst, h]

theorem State.raise_faultedPre (s : State) (k : FaultKind) (w : Word) :
    s.faultedPre (s.raise k w) k w :=
  ⟨rfl, rfl, rfl, rfl, rfl, s.faults.record_afterRaise k w, rfl⟩

/-! ### One command word (R8, R93) -/

theorem runWord_of_instr {w : Word} {i : Instr} (s : State) (h : decode w = .instr i) :
    runWord w s = exec i s := by
  simp [runWord, h]

theorem runWord_of_illegal {w : Word} {why : IllegalWord} (s : State) (h : decode w = .illegal why) :
    runWord w s = .next (s.raise .illegalCommand w) := by
  simp [runWord, h]

theorem runUntaken_of_next {w : Word} {s t : State} (h : runWord w s = .next t) :
    runUntaken w s =
      .next (if t.chan.waiting.isSome then t else t.offerResponse s.chan.responses) := by
  simp only [runUntaken, h]
  split <;> rfl

theorem runAbandoned_of_next {w : Word} {s t : State} (sink : List SinkAnswer)
    (source : List SourceAnswer) (h : runWord w s = .next t) :
    runAbandoned w sink source s =
      .next ((t.withResponses s.chan.responses).hardwareReset sink source) := by
  simp [runAbandoned, h]

/-! ### One step (R90, R251, R252) -/

theorem step_of_no_input {s : State} (h : s.chan.inputs = []) : step s = .next s := by
  simp [step, takeInput, h]

theorem step_of_hardwareReset {s : State} {sink : List SinkAnswer} {source : List SourceAnswer}
    {rest : List HostInput} (h : s.chan.inputs = .hardwareReset sink source :: rest) :
    step s = .next ((s.setInputs rest).hardwareReset sink source) := by
  simp [step, takeInput, h]

theorem step_of_command {s : State} {w : Word} {rest : List HostInput}
    (h : s.chan.inputs = .command w :: rest) (hw : s.chan.waiting = none) :
    step s = runWord w (s.setInputs rest) := by
  simp [step, takeInput, h, hw]

theorem step_of_untaken {s : State} {w : Word} {rest : List HostInput}
    (h : s.chan.inputs = .untaken w :: rest) (hw : s.chan.waiting = none) :
    step s = runUntaken w (s.setInputs rest) := by
  simp [step, takeInput, h, hw]

theorem step_of_abandoned {s : State} {w : Word} {sink : List SinkAnswer}
    {source : List SourceAnswer} {rest : List HostInput}
    (h : s.chan.inputs = .abandoned w sink source :: rest) (hw : s.chan.waiting = none) :
    step s = runAbandoned w sink source (s.setInputs rest) := by
  simp [step, takeInput, h, hw]

/-- A core that waits inside a command takes nothing but the hardware reset (R70, R90). -/
theorem step_of_waiting {s : State} {x : HostInput} {rest : List HostInput}
    (h : s.chan.inputs = x :: rest) (hx : ∀ a b, x ≠ .hardwareReset a b)
    (hw : s.chan.waiting ≠ none) : step s = .next s := by
  have hw' : s.chan.waiting.isSome = true := Option.isSome_iff_ne_none.mpr hw
  cases x with
  | hardwareReset a b => exact absurd rfl (hx a b)
  | command w => simp [step, takeInput, h, hw']
  | untaken w => simp [step, takeInput, h, hw']
  | abandoned w a b => simp [step, takeInput, h, hw']

end Sys2Proof.Machine
end

section
/-! Every word and every command has an outcome (R12): the two endings of a command answer a next state, so
each command does, so each word does, so each action of the host does. -/

namespace Sys2Proof.Machine

/-! ### The endings of a command -/

theorem faultPre_answers (k : FaultKind) (i : Instr) (s : State) : ∃ t, faultPre k i s = .next t :=
  ⟨_, rfl⟩

theorem finish_answers (i : Instr) (d : Word) (x : Flow Unit) : ∃ t, finish i d x = .next t := by
  cases x with
  | goesOn a s => exact ⟨_, rfl⟩
  | raises k s => exact ⟨_, rfl⟩
  | waits s => exact ⟨_, rfl⟩

theorem guarded_answers (i : Instr) (s : State) {body : Result} (h : ∃ t, body = .next t) :
    ∃ t, guarded i s body = .next t := by
  unfold guarded
  split
  · exact h
  · exact faultPre_answers _ _ _

/-! ### The commands whose effect branches -/

theorem execLdcnt_answers (x : Symbol) (v : Count) (s : State) : ∃ t, execLdcnt x v s = .next t := by
  refine guarded_answers _ _ ?_
  split
  · exact faultPre_answers _ _ _
  · split
    · exact faultPre_answers _ _ _
    · split
      · exact faultPre_answers _ _ _
      · split
        · exact faultPre_answers _ _ _
        · exact ⟨_, rfl⟩

theorem execGetprob_answers (x : Symbol) (s : State) : ∃ t, execGetprob x s = .next t := by
  refine guarded_answers _ _ ?_
  split
  · exact faultPre_answers _ _ _
  · exact ⟨_, rfl⟩

theorem execGetsym_answers (s : State) : ∃ t, execGetsym s = .next t := by
  refine guarded_answers _ _ ?_
  split
  · exact faultPre_answers _ _ _
  · split
    · exact faultPre_answers _ _ _
    · split
      · exact ⟨_, rfl⟩
      · exact faultPre_answers _ _ _

theorem execEsym_answers (s : State) : ∃ t, execEsym s = .next t := by
  refine guarded_answers _ _ ?_
  split
  · exact faultPre_answers _ _ _
  · exact finish_answers _ _ _

theorem execGetcnt_answers (s : State) : ∃ t, execGetcnt s = .next t := by
  refine guarded_answers _ _ ?_
  split
  · exact faultPre_answers _ _ _
  · exact ⟨_, rfl⟩

theorem execDsym_answers (s : State) : ∃ t, execDsym s = .next t := by
  refine guarded_answers _ _ ?_
  split
  · exact ⟨_, rfl⟩
  · split
    · exact faultPre_answers _ _ _
    · exact finish_answers _ _ _

theorem execRdreg_answers (r : RegNo) (s : State) : ∃ t, execRdreg r s = .next t := by
  refine guarded_answers _ _ ?_
  split
  · exact ⟨_, rfl⟩
  · exact faultPre_answers _ _ _

/-! ### Commands, words, steps -/

theorem exec_answers (i : Instr) (s : State) : ∃ t, exec i s = .next t := by
  cases i with
  | nop => exact guarded_answers .nop s ⟨_, rfl⟩
  | reset => exact guarded_answers .reset s ⟨_, rfl⟩
  | minit m => exact guarded_answers (.minit m) s ⟨_, rfl⟩
  | ldcnt x v => exact execLdcnt_answers x v s
  | rdcnt x => exact guarded_answers (.rdcnt x) s ⟨_, rfl⟩
  | getprob x => exact execGetprob_answers x s
  | getsym => exact execGetsym_answers s
  | update x => exact guarded_answers (.update x) s ⟨_, rfl⟩
  | ebegin => exact guarded_answers .ebegin s ⟨_, rfl⟩
  | esym => exact execEsym_answers s
  | efinish => exact guarded_answers .efinish s (finish_answers _ _ _)
  | dbegin => exact guarded_answers .dbegin s (finish_answers _ _ _)
  | getcnt => exact execGetcnt_answers s
  | dsym => exact execDsym_answers s
  | rdreg r => exact execRdreg_answers r s

/-- A word is a well-formed command and runs it, or it raises `IllegalCommand` and changes nothing
else. -/
theorem runWord_command_or_faultedPre (w : Word) (s : State) :
    (∃ i : Instr, i.wellFormed = true ∧ decode w = .instr i ∧ runWord w s = exec i s) ∨
      ∃ t, runWord w s = .next t ∧ s.faultedPre t .illegalCommand w := by
  cases hd : decode w with
  | instr i => exact .inl ⟨i, decode_wellFormed hd, rfl, runWord_of_instr s hd⟩
  | illegal why => exact .inr ⟨_, runWord_of_illegal s hd, s.raise_faultedPre _ _⟩

theorem runWord_answers (w : Word) (s : State) : ∃ t, runWord w s = .next t := by
  rcases runWord_command_or_faultedPre w s with ⟨i, -, -, hrun⟩ | ⟨t, hrun, -⟩
  · rw [hrun]
    exact exec_answers i s
  · exact ⟨t, hrun⟩

/-- The core, not waiting, answers a next state whatever the host does next. -/
theorem step_answers_of_ready {s : State} {x : HostInput} {rest : List HostInput}
    (h : s.chan.inputs = x :: rest) (hw : s.chan.waiting = none) : ∃ t, step s = .next t := by
  cases x with
  | hardwareReset a b => exact ⟨_, step_of_hardwareReset h⟩
  | command w =>
    rw [step_of_command h hw]
    exact runWord_answers w _
  | untaken w =>
    obtain ⟨t, ht⟩ := runWord_answers w (s.setInputs rest)
    exact ⟨_, (step_of_untaken h hw).trans (runUntaken_of_next ht)⟩
  | abandoned w a b =>
    obtain ⟨t, ht⟩ := runWord_answers w (s.setInputs rest)
    exact ⟨_, (step_of_abandoned h hw).trans (runAbandoned_of_next a b ht)⟩

theorem step_answers (s : State) : ∃ t, step s = .next t := by
  cases hi : s.chan.inputs with
  | nil => exact ⟨s, step_of_no_input hi⟩
  | cons x rest =>
    by_cases hw : s.chan.waiting = none
    · exact step_answers_of_ready hi hw
    · by_cases hx : ∃ a b, x = .hardwareReset a b
      · obtain ⟨a, b, rfl⟩ := hx
        exact ⟨_, step_of_hardwareReset hi⟩
      · exact ⟨s, step_of_waiting hi (fun a b e => hx ⟨a, b, e⟩) hw⟩

/-- Settles O7: the decoder is total and answers well-formed commands only; every command ends in one of
the two endings, and every action of the host in a word run or a state given. -/
theorem everyWordHasAnOutcome : Obligations.EveryWordHasAnOutcome :=
  ⟨runWord_command_or_faultedPre, exec_answers, step_answers⟩

/-- Settles O5: a step takes the word off the command channel and runs it, and running a word is running
the command it decodes to. -/
theorem stepRunsDecodedCommand : Obligations.StepRunsDecodedCommand := by
  intro s w i rest hinputs hready hdecode
  exact (step_of_command hinputs hready).trans (runWord_of_instr _ hdecode)

end Sys2Proof.Machine
end

section
/-! SUPPORT. The inversion of `exec` by what a command leaves: the state of each success, before its
answer, and the endings that are none. `Answers` says of a success which registers it writes; here is
what it writes there. -/

namespace Sys2Proof.Machine

/-- The state `u` that a command leaves when it succeeds, before its answer, with the value tests that it
has passed. -/
inductive Succeeds (s : State) : Instr → State → Prop where
  | nop : Succeeds s .nop s
  | reset : Succeeds s .reset s.resetRegs
  | rdreg (r : RegNo) : Succeeds s (.rdreg r) s
  | rdcnt (x : Symbol) : Succeeds s (.rdcnt x) s
  | minit (m : Mode) :
    Succeeds s (.minit m)
      ((s.setModel
        { cnt := CountTable.ofFn fun _ => 1#15, tot := 257#15, mode := m, mvalid := true }).setSt .idle)
  | ldcnt (x : Symbol) (v : Count) (n : Nat) (hv : v ≠ 0#15) (hn : s.loadSum x v = some n)
      (hc : n ≤ Config.ceiling) :
    Succeeds s (.ldcnt x v)
      (s.setModel
        { s.model with cnt := CountTable.write s.model.cnt x.toNat v, tot := BitVec.ofNat 15 n })
  | update (x : Symbol) : Succeeds s (.update x) (s.setModel (s.model.update x))
  | getprob (x : Symbol) (hf : s.rangeFits x.toNat = true) :
    Succeeds s (.getprob x) ((s.setLatch (s.rangeLatch x.toNat)).setSt .encRange)
  | getsym (k : Nat) (hk : CountTable.symbolAt s.model.cnt s.latch.sv.toNat = some k)
      (hf : s.rangeFits k = true) :
    Succeeds s .getsym ((s.setLatch (s.rangeLatch k)).setSt .decRange)
  | getcnt (n : Nat) (hn : s.scaled = some n) :
    Succeeds s .getcnt ((s.setLatch { s.latch with sv := BitVec.ofNat 15 n }).setSt .decCount)
  | ebegin : Succeeds s .ebegin ((s.setIv .begin).setSt .encReady)
  | dsymOfEos (he : s.latch.sym = Config.eos) : Succeeds s .dsym (s.setSt .done)
  | effect (i : Instr) (u : State) (hx : s.effect i = some (.goesOn () u)) : Succeeds s i u

/-- The four endings of a command: a fault before any change, a fault in mid-command, a wait, a success.
-/
inductive Ends (i : Instr) (s t : State) : Prop where
  | fault (k : FaultKind) (h : t = s.raise k (encode i))
  | midFault (k : FaultKind) (u : State) (hu : s.sameRun u) (h : t = u.raiseMid k (encode i))
  | waits (hl : s.legal i = true) (hx : s.effect i = some (.waits t))
  | success (u : State) (d : Word) (hw : i.wellFormed = true) (hl : s.legal i = true)
      (hu : Succeeds s i u) (h : t = u.respondOk d)

theorem guarded_ends {i : Instr} {s t : State} {body : Result} (h : guarded i s body = .next t)
    (hb : i.wellFormed = true → s.legal i = true → body = .next t → Ends i s t) : Ends i s t := by
  rcases guarded_next h with ⟨hw, hl, h⟩ | ⟨-, h⟩
  · exact hb hw hl h
  · exact .fault _ h

/-- A fault test in front of the rest of a command. -/
theorem faultTest_ends {i : Instr} {s t : State} {k : FaultKind} {c : Prop} [Decidable c]
    {body : Result} (h : (if c then faultPre k i s else body) = .next t)
    (hb : ¬c → body = .next t → Ends i s t) : Ends i s t := by
  split at h
  · exact .fault _ (faultPre_next h)
  · next hc => exact hb hc h

/-- A successful command that makes no channel request ends with its answer. -/
theorem success_ends {i : Instr} {s t u : State} {d : Word} (hw : i.wellFormed = true)
    (hl : s.legal i = true) (hu : Succeeds s i u)
    (h : (.next (u.respondOk d) : Result) = .next t) : Ends i s t :=
  .success u d hw hl hu (next_eq h)

/-- A command with channel requests ends as its effect does. -/
theorem finish_ends {i : Instr} {s t : State} {x : Flow Unit} (hw : i.wellFormed = true)
    (hl : s.legal i = true) (hx : s.effect i = some x) (h : finish i 0 x = .next t) : Ends i s t := by
  rcases finish_next h with ⟨u, rfl, ht⟩ | ⟨k, u, rfl, ht⟩ | rfl
  · exact .success u 0 hw hl (.effect i u hx) ht
  · exact .midFault k u (State.effect_sameRun hx) ht
  · exact .waits hl hx

theorem execLdcnt_ends {x : Symbol} {v : Count} {s t : State} (h : execLdcnt x v s = .next t) :
    Ends (.ldcnt x v) s t := by
  refine guarded_ends h fun hw hl h => faultTest_ends h fun hv h => faultTest_ends h fun _ h => ?_
  split at h
  · exact .fault _ (faultPre_next h)
  · next n hn =>
    exact faultTest_ends h fun hc h => success_ends hw hl (.ldcnt x v n hv hn (Nat.not_lt.mp hc)) h

theorem execGetprob_ends {x : Symbol} {s t : State} (h : execGetprob x s = .next t) :
    Ends (.getprob x) s t := by
  refine guarded_ends h fun hw hl h => faultTest_ends h fun hc h => ?_
  exact success_ends hw hl (.getprob x (by simp_all)) h

theorem execGetsym_ends {s t : State} (h : execGetsym s = .next t) : Ends .getsym s t := by
  refine guarded_ends h fun hw hl h => faultTest_ends h fun _ h => ?_
  split at h
  · exact .fault _ (faultPre_next h)
  · next k hk =>
    split at h
    · next hf => exact success_ends hw hl (.getsym k hk hf) h
    · exact .fault _ (faultPre_next h)

theorem execGetcnt_ends {s t : State} (h : execGetcnt s = .next t) : Ends .getcnt s t := by
  refine guarded_ends h fun hw hl h => ?_
  split at h
  · exact .fault _ (faultPre_next h)
  · next n hn => exact success_ends hw hl (.getcnt n hn) h

theorem execEsym_ends {s t : State} (h : execEsym s = .next t) : Ends .esym s t := by
  refine guarded_ends h fun hw hl h => ?_
  split at h
  · exact .fault _ (faultPre_next h)
  · next hn => exact finish_ends hw hl (by simp [State.effect, hn]) h

theorem execDsym_ends {s t : State} (h : execDsym s = .next t) : Ends .dsym s t := by
  refine guarded_ends h fun hw hl h => ?_
  split at h
  · next he => exact success_ends hw hl (.dsymOfEos he) h
  · next he =>
    split at h
    · exact .fault _ (faultPre_next h)
    · next hn => exact finish_ends hw hl (by simp [State.effect, he, hn]) h

theorem execRdreg_ends {r : RegNo} {s t : State} (h : execRdreg r s = .next t) :
    Ends (.rdreg r) s t := by
  refine guarded_ends h fun hw hl h => ?_
  split at h
  · exact success_ends hw hl (.rdreg r) h
  · exact .fault _ (faultPre_next h)

/-- Every command ends in one of the four ways. -/
theorem exec_ends {i : Instr} {s t : State} (h : exec i s = .next t) : Ends i s t := by
  cases i with
  | nop => exact guarded_ends h fun hw hl h => success_ends hw hl .nop h
  | reset => exact guarded_ends h fun hw hl h => success_ends hw hl .reset h
  | minit m => exact guarded_ends h fun hw hl h => success_ends hw hl (.minit m) h
  | ldcnt x v => exact execLdcnt_ends h
  | rdcnt x => exact guarded_ends h fun hw hl h => success_ends hw hl (.rdcnt x) h
  | getprob x => exact execGetprob_ends h
  | getsym => exact execGetsym_ends h
  | update x => exact guarded_ends h fun hw hl h => success_ends hw hl (.update x) h
  | ebegin => exact guarded_ends h fun hw hl h => success_ends hw hl .ebegin h
  | esym => exact execEsym_ends h
  | efinish => exact guarded_ends h fun hw hl h => finish_ends hw hl rfl h
  | dbegin => exact guarded_ends h fun hw hl h => finish_ends hw hl rfl h
  | getcnt => exact execGetcnt_ends h
  | dsym => exact execDsym_ends h
  | rdreg r => exact execRdreg_ends h

/-! ### The state after a success (R31) -/

/-- `ST` after a command succeeds, by the table of R31. -/
def State.stAfter (s : State) : Instr → Seq
  | .nop => s.st
  | .reset => .idle
  | .rdreg _ => s.st
  | .rdcnt _ => s.st
  | .minit _ => .idle
  | .ldcnt _ _ => .idle
  | .ebegin => .encReady
  | .getprob _ => .encRange
  | .esym => if s.latch.sym = 256#9 then .encEos else .encReady
  | .efinish => .done
  | .dbegin => .decReady
  | .getcnt => .decCount
  | .getsym => .decRange
  | .dsym => if s.latch.sym = 256#9 then .done else .decReady
  | .update _ => s.st

/-- If two parts of a command go on, each of them does. -/
theorem Flow.andThen_eq_goesOn {α β : Type} {x : Flow α} {f : α → State → Flow β} {b : β} {u : State}
    (h : x.andThen f = .goesOn b u) : ∃ a t, x = .goesOn a t ∧ f a t = .goesOn b u := by
  cases x with
  | goesOn a t => exact ⟨a, t, rfl, h⟩
  | raises k t => cases h
  | waits t => cases h

/-- A part whose last action is to set `ST` ends with `ST` set. -/
theorem Flow.andThen_setSt {α : Type} {x : Flow α} {q : Seq} {u : State}
    (h : (x.andThen fun _ t => .goesOn () (t.setSt q)) = .goesOn () u) : u.st = q := by
  obtain ⟨_, t, -, h⟩ := Flow.andThen_eq_goesOn h
  cases h
  rfl

theorem State.finishRun_st {s u : State} (h : s.finishRun = .goesOn () u) : u.st = .done := by
  obtain ⟨_, _, -, h⟩ := Flow.andThen_eq_goesOn h
  obtain ⟨_, _, -, h⟩ := Flow.andThen_eq_goesOn h
  exact Flow.andThen_setSt h

theorem State.effect_st {s u : State} {i : Instr} (h : s.effect i = some (.goesOn () u)) :
    u.st = s.stAfter i := by
  cases i <;> simp only [State.effect, Option.some.injEq, reduceCtorEq] at h
  case esym =>
    obtain ⟨b, -, h⟩ := Option.map_eq_some_iff.mp h
    exact Flow.andThen_setSt h
  case efinish => exact State.finishRun_st h
  case dbegin => exact Flow.andThen_setSt h
  case dsym =>
    split at h
    · cases h
    · next he =>
      obtain ⟨b, -, h⟩ := Option.map_eq_some_iff.mp h
      exact (Flow.andThen_setSt h).trans (if_neg he).symm

theorem Succeeds.st_eq {s u : State} {i : Instr} (h : Succeeds s i u) (hl : s.legal i = true) :
    u.st = s.stAfter i := by
  cases h
  case ldcnt =>
    simp only [State.legal, Bool.and_eq_true, decide_eq_true_eq] at hl
    exact hl.1.1
  case dsymOfEos he => exact (if_pos he).symm
  case effect hx => exact State.effect_st hx
  all_goals rfl

/-- A command answered `OK` has succeeded: a fault answers another status, a wait answers nothing. -/
theorem Ends.success_of_answer {i : Instr} {s t : State} {d : Word} (h : Ends i s t)
    (ha : t.chan.responses = s.chan.responses ++ [{ status := 0#4, data := d }]) :
    s.legal i = true ∧ ∃ u, Succeeds s i u ∧ t.st = u.st := by
  have hcode (k : FaultKind) : k.code ≠ 0#4 := by cases k <;> decide
  cases h with
  | fault k h => simp [h, hcode] at ha
  | midFault k u hu h =>
    obtain ⟨-, -, -, -, -, hr⟩ := hu
    simp [h, hr, hcode] at ha
  | waits hl hx =>
    obtain ⟨-, -, -, -, -, hr⟩ := State.effect_sameRun hx
    simp [Flow.state, ha] at hr
  | success u d hw hl hu h => exact ⟨hl, u, hu, by rw [h, State.respondOk_st]⟩

end Sys2Proof.Machine
end

section
/-! SUPPORT. The `STATUS` word, field by field: its parts are joined at the seams of R41. -/

namespace Sys2Proof.Machine

theorem getLsbD_append_of_lt {v w : Nat} (hi : BitVec v) (lo : BitVec w) {i : Nat} (h : i < w) :
    (hi ++ lo).getLsbD i = lo.getLsbD i := by
  rw [BitVec.getLsbD_append, if_pos h]

theorem getLsbD_append_of_le {v w : Nat} (hi : BitVec v) (lo : BitVec w) {i : Nat} (h : w ≤ i) :
    (hi ++ lo).getLsbD i = hi.getLsbD (i - w) := by
  rw [BitVec.getLsbD_append, if_neg (Nat.not_lt.mpr h)]

@[simp] theorem flagBit_getElem (b : Bool) : (flagBit b)[0] = b := by cases b <;> rfl

@[simp] theorem Mode.bit_getElem (m : Mode) : m.bit[0] = decide (m = .static) := by
  cases m <;> rfl

/-- Settles O23: each field is reached past the seams below it. -/
theorem statusWordFields : Obligations.StatusWordFields := by
  intro s
  unfold State.statusWord
  refine ⟨?st, ?mode, ?mvalid, ?low, ?eoscnt, ?mid, ?io, ?mdl, ?prec, ?corrupt, ?ill, ?top⟩
  case st =>
    rw [BitVec.extractLsb'_append_eq_of_add_le (by decide)]
    cases s.st <;> rfl
  case low | eoscnt | mid =>
    repeat rw [BitVec.extractLsb'_append_eq_of_le (by decide)]
    rw [BitVec.extractLsb'_append_eq_of_add_le (by decide)]
    exact BitVec.extractLsb'_eq_self
  case top =>
    repeat rw [BitVec.extractLsb'_append_eq_of_le (by decide)]
    exact BitVec.extractLsb'_eq_self
  case mode | mvalid | io | mdl | prec | corrupt | ill =>
    repeat rw [getLsbD_append_of_le _ _ (by decide)]
    rw [getLsbD_append_of_lt _ _ (by decide)]
    simp

end Sys2Proof.Machine
end

section
/-! SUPPORT. What every command but `RESET` leaves alone (R20, R35 to R37), from the inversion of
`exec`. -/

namespace Sys2Proof.Machine

/-- How a command with channel requests ends, register by register: it writes neither the model nor the
latches, and the fault registers only by a fault. -/
theorem finish_effect_keeps {i : Instr} {s t : State} {x : Flow Unit} (hx : s.effect i = some x)
    (h : finish i 0 x = .next t) :
    t.latch = s.latch ∧ t.model = s.model ∧
      (t.faults = s.faults ∨ ∃ k, t.faults = s.faults.record k (encode i)) := by
  obtain ⟨hl, hm, hf, -⟩ := State.effect_sameRun hx
  rcases finish_next h with ⟨u, rfl, rfl⟩ | ⟨k, u, rfl, rfl⟩ | rfl
  · exact ⟨hl, hm, .inl hf⟩
  · exact ⟨hl, hm, .inr ⟨k, congrArg (FaultRegs.record · k (encode i)) hf⟩⟩
  · exact ⟨hl, hm, .inl hf⟩

/-- Only the four commands with channel requests have an effect to run. -/
theorem State.effect_eq_some_cases {s : State} {i : Instr} {x : Flow Unit} (h : s.effect i = some x) :
    i = .esym ∨ i = .efinish ∨ i = .dbegin ∨ i = .dsym := by
  cases i <;> simp [State.effect] at h ⊢

/-- Every command but `RESET` leaves the fault registers alone or records a fault in them. -/
theorem exec_faults {i : Instr} {s t : State} (hi : i ≠ .reset) (h : exec i s = .next t) :
    t.faults = s.faults ∨ ∃ k, t.faults = s.faults.record k (encode i) := by
  cases exec_cases h with
  | illegal h => exact .inr ⟨_, congrArg State.faults h⟩
  | pre k hl hk h => exact .inr ⟨k, congrArg State.faults h⟩
  | quiet hw hl h => exact .inl (h.faults hi)
  | effect hl x hx h => exact (finish_effect_keeps hx h).2.2

/-- Settles O17: a fault sets a flag and clears none, and after the first it leaves `FCAUSE` and `FCMD`.
-/
theorem faultRecordIsSticky : Obligations.FaultRecordIsSticky := by
  intro i s t hi h
  rcases exec_faults hi h with hf | ⟨k, hf⟩
  · simp [hf]
  · obtain ⟨hio, hmodel, hprec, hcorrupt, hill, -⟩ := s.faults.record_afterRaise k (encode i)
    rw [hf]
    refine ⟨?_, ?_, ?_, ?_, ?_, s.faults.record_later k (encode i)⟩ <;> intro hset
    · rw [hio, hset, Bool.true_or]
    · rw [hmodel, hset, Bool.true_or]
    · rw [hprec, hset, Bool.true_or]
    · rw [hcorrupt, hset, Bool.true_or]
    · rw [hill, hset, Bool.true_or]

/-- Settles O55: a fault before any change writes none of the four, a command without a channel request
writes what `Quiet` says, and one with channel requests the interval unit alone. -/
theorem writersOfState : Obligations.WritersOfState := by
  intro i s t h hi
  cases exec_cases h with
  | illegal h => simp [h]
  | pre k hl hk h => simp [h]
  | quiet hw hl h =>
    exact ⟨fun h1 h2 h3 => h.model h1 h2 h3 hi, fun h1 => h.mode h1 hi, fun h1 _ _ _ _ => h.iv h1 hi,
      fun h1 h2 h3 => h.latch h1 h2 h3 hi⟩
  | effect hl x hx h =>
    obtain ⟨hlatch, hmodel, -⟩ := finish_effect_keeps hx h
    refine ⟨fun _ _ _ => hmodel, fun _ => by simp [hmodel], fun _ h1 h2 h3 h4 => ?_,
      fun _ _ _ => hlatch⟩
    simpa [h1, h2, h3, h4] using State.effect_eq_some_cases hx

end Sys2Proof.Machine
end

section
/-! SUPPORT. A word that decodes is the word of the command it decodes to (R82 to R89): the converse of
the encoding, which `FCMD` needs (log 11). -/

namespace Sys2Proof

/-- A word is its opcode field followed by its operand bits (R81). -/
theorem word_eq_append (w : Word) : w.extractLsb' 28 4 ++ w.extractLsb' 0 28 = w := by
  rw [BitVec.extractLsb'_append_extractLsb'_eq_extractLsb' (by decide)]
  exact BitVec.extractLsb'_eq_self

/-- It suffices that opcode and operand bits agree. -/
theorem encode_eq {w : Word} {i : Instr} (ho : i.opcode = w.extractLsb' 28 4)
    (hb : i.operandBits = w.extractLsb' 0 28) : encode i = w := by
  rw [encode, ho, hb, word_eq_append]

/-- Operand bits in two parts. -/
theorem operandBits_eq_append {w : Word} {a b : Nat} :
    w.extractLsb' b a ++ w.extractLsb' 0 b = w.extractLsb' 0 (a + b) :=
  BitVec.extractLsb'_append_extractLsb'_eq_extractLsb' (by omega)

theorem modeField_bit (w : Word) : (modeField w).bit = w.extractLsb' 0 1 := by
  unfold modeField
  ext i hi
  obtain rfl : i = 0 := by omega
  cases h : w.getLsbD 0 <;> simp_all [Mode.bit]

theorem encode_of_decodeN {w : Word} {i j : Instr} (h : decodeN w i = .instr j)
    (ho : i.opcode = w.extractLsb' 28 4) (hb : i.operandBits = 0#28) : encode j = w := by
  obtain ⟨hz, rfl⟩ := decodeN_eq_instr.mp h
  exact encode_eq ho (hb.trans hz.symm)

theorem encode_of_decodeS {w : Word} {mk : Symbol → Instr} {j : Instr} (h : decodeS w mk = .instr j)
    (ho : ∀ x, (mk x).opcode = w.extractLsb' 28 4) (hb : ∀ x, (mk x).operandBits = 0#19 ++ x) :
    encode j = w := by
  obtain ⟨hz, -, rfl⟩ := decodeS_eq_instr.mp h
  refine encode_eq (ho _) ((hb _).trans ?_)
  rw [← hz]
  exact operandBits_eq_append

theorem opField_eq {w : Word} {n : Nat} (h : opField w = n) : BitVec.ofNat 4 n = w.extractLsb' 28 4 := by
  rw [← h, opField, BitVec.ofNat_toNat, BitVec.setWidth_eq]

theorem encode_of_decode {w : Word} {i : Instr} (h : decode w = .instr i) : encode i = w := by
  unfold decode at h
  split at h
  case h_1 ho | h_2 ho | h_7 ho | h_9 ho | h_10 ho | h_11 ho | h_12 ho | h_13 ho | h_14 ho =>
    exact encode_of_decodeN h (opField_eq ho) rfl
  case h_5 ho | h_6 ho | h_8 ho => exact encode_of_decodeS h (fun _ => opField_eq ho) (fun _ => rfl)
  case h_3 ho =>
    obtain ⟨hz, rfl⟩ := decodeM_eq_instr.mp h
    refine encode_eq (opField_eq ho) ?_
    rw [Instr.operandBits, ← hz, modeField_bit]
    exact operandBits_eq_append
  case h_4 ho =>
    obtain ⟨hz, -, rfl⟩ := decodeV_eq_instr.mp h
    refine encode_eq (opField_eq ho) ?_
    have hhigh : w.extractLsb' 24 4 ++ countField w = w.extractLsb' 9 19 :=
      BitVec.extractLsb'_append_extractLsb'_eq_extractLsb' rfl
    rw [Instr.operandBits, ← hz, hhigh]
    exact operandBits_eq_append
  case h_15 ho =>
    obtain ⟨hz, -, rfl⟩ := decodeR_eq_instr.mp h
    refine encode_eq (opField_eq ho) ?_
    rw [Instr.operandBits, ← hz]
    exact operandBits_eq_append
  case h_16 => cases h

end Sys2Proof
end

section
/-! SUPPORT. Legality (R31): an illegal command runs nothing of its arm, and a success leaves `ST` as
the table says. -/

namespace Sys2Proof.Machine

/-- A command that is malformed or illegal raises `IllegalCommand` whatever its effect would be (R225).
-/
theorem exec_of_illegal {i : Instr} {s : State} (h : i.wellFormed = false ∨ s.legal i = false) :
    exec i s = .next (s.raise .illegalCommand (encode i)) := by
  cases i <;> exact guarded_illegal _ _ _ h

theorem exec_rdreg_illegal_or_le (r : RegNo) (s : State) :
    exec (.rdreg r) s = .next (s.raise .illegalCommand (encode (.rdreg r))) ∨ r.toNat ≤ 14 := by
  by_cases hr : r.toNat ≤ 14
  · exact .inr hr
  · exact .inl (exec_of_illegal (.inl (by simp [Instr.wellFormed, registerOk, hr])))

/-- A command answered `OK` leaves `ST` as the table of R31 says. -/
theorem exec_ok_st {i : Instr} {s t : State} {d : Word} (h : exec i s = .next t)
    (ha : t.chan.responses = s.chan.responses ++ [{ status := 0#4, data := d }]) :
    t.st = s.stAfter i := by
  obtain ⟨hl, u, hu, hst⟩ := (exec_ends h).success_of_answer ha
  rw [hst, hu.st_eq hl]

/-- Settles O12: the rows of the table, the state after a success, the entry of `IllegalCommand`. -/
theorem legalityTable : Obligations.LegalityTable := by
  intro s
  refine ⟨rfl, rfl, (exec_rdreg_illegal_or_le · s), fun _ => rfl, ?_, ?_, ?_, ?_, ?_, ?_, ?_, ?_, ?_, ?_,
    ?_, ?_, ?ok, ?illegal, fun _ _ => ⟨rfl, rfl⟩⟩
  case ok =>
    rintro i t - - - h - ⟨d, ha⟩
    rw [exec_ok_st h ha]
    cases i <;> rfl
  case illegal =>
    intro i w hl hd
    refine ⟨_, (runWord_of_instr s hd).trans (exec_of_illegal (.inr hl)), ?_⟩
    rw [encode_of_decode hd]
    exact s.raise_faultedPre _ _
  all_goals simp [State.legal, and_assoc]

end Sys2Proof.Machine
end

section
/-! SUPPORT. The three resets leave the same registers (R47, R250, R255), and these meet the invariants
of the command boundary. -/

namespace Sys2Proof.Machine

/-- The registers, unit by unit, at their reset values (R47). -/
theorem State.isReset_of_zero {s : State} (hi : s.iv = .zero) (hl : s.latch = .zero)
    (htot : s.model.tot = 0#15) (hmode : s.model.mode = .adaptive) (hvalid : s.model.mvalid = false)
    (hst : s.st = .idle) (hf : s.faults = .zero) : s.isReset := by
  simp [State.isReset, hi, hl, htot, hmode, hvalid, hst, hf, Interval.zero, Latch.zero, FaultRegs.zero]

theorem State.reset_isReset : State.reset.isReset :=
  State.isReset_of_zero rfl rfl rfl rfl rfl rfl rfl

theorem State.resetRegs_isReset (s : State) : s.resetRegs.isReset :=
  State.isReset_of_zero rfl rfl rfl rfl rfl rfl rfl

theorem State.hardwareReset_isReset (s : State) (a : List SinkAnswer) (b : List SourceAnswer) :
    (s.hardwareReset a b).isReset :=
  State.isReset_of_zero rfl rfl rfl rfl rfl rfl rfl

/-- Settles O9: the command `RESET` and the hardware reset both give what `State.resetRegs` gives. -/
theorem resetValues : Obligations.ResetValues :=
  ⟨State.reset_isReset, State.hardwareReset_isReset, fun s => ⟨_, rfl, s.resetRegs_isReset⟩⟩

/-- In `IDLE` the interval unit is unconstrained but for `EOSCNT` (R34). -/
theorem State.intervalInv_of_idle {s : State} (hst : s.st = .idle)
    (he : s.iv.eoscnt.toNat ≤ Config.eosLimit) : s.IntervalInv := by
  simp [State.IntervalInv, hst, Seq.encoding, Seq.decoding, he]

/-- The three states in which a latch other than `SYM` is in use (R26, R27). -/
def Seq.usesLatch (q : Seq) : Bool :=
  decide (q = .decCount) || decide (q = .decRange) || decide (q = .encRange)

/-- Elsewhere only `SYM` is constrained (R28). -/
theorem State.latchInv_of_sym {s : State} (hsym : s.latch.sym.toNat ≤ 256)
    (hst : s.st.usesLatch = false) : s.LatchInv := by
  simp only [Seq.usesLatch, Bool.or_eq_false_iff, decide_eq_false_iff_not] at hst
  obtain ⟨⟨hc, hd⟩, he⟩ := hst
  simp [State.LatchInv, hsym, hc, hd, he]

/-- The reset values meet the invariants of the command boundary, whatever the count table holds. -/
theorem State.boundary_of_zero {s : State} (hi : s.iv = .zero) (hl : s.latch = .zero)
    (htot : s.model.tot = 0#15) (hvalid : s.model.mvalid = false) (hst : s.st = .idle)
    (hf : s.faults = .zero) (ht : s.TableInv) : s.Boundary := by
  refine ⟨ht, ?model, State.intervalInv_of_idle hst (by simp [hi, Interval.zero]),
    State.latchInv_of_sym (by simp [hl, Latch.zero]) (by rw [hst]; rfl), ?seq, ?fault⟩
  case model => simp [State.ModelInv, hvalid, htot]
  case seq => simp [State.SeqInv, hst]
  case fault => simp [State.FaultInv, hst, hf, FaultRegs.zero]

theorem State.reset_boundary : State.reset.Boundary :=
  State.boundary_of_zero rfl rfl rfl rfl rfl rfl reset_table_wf

theorem State.resetRegs_boundary (s : State) : s.resetRegs.Boundary :=
  State.boundary_of_zero rfl rfl rfl rfl rfl rfl (freeTable_wf s.draws)

/-- Settles O56: at reset no command is in progress, and every register has its reset value. -/
theorem resetMeetsInvariant : Obligations.ResetMeetsInvariant :=
  ⟨reset_table_wf, fun _ => State.reset_boundary⟩

end Sys2Proof.Machine
end

section
/-! SUPPORT. The model operations keep the model invariants (M-a) to (M-c) (R44): the uniform model of
`MINIT`, the load of one count, the increment and the halving of `UPDATE`. -/

namespace Sys2Proof.Machine

theorem CountTable.cum_nil (k : Nat) : CountTable.cum [] k = k := by
  induction k with
  | zero => rfl
  | succ k ih => rw [CountTable.cum_succ, ih]; rfl

/-- One count is at most the sum of those up to it. -/
theorem CountTable.read_le_cum (t : CountTable) {i k : Nat} (h : i < k) :
    (CountTable.read t i).toNat ≤ CountTable.cum t k :=
  calc (CountTable.read t i).toNat ≤ CountTable.cum t (i + 1) := by simp [CountTable.cum_succ]
    _ ≤ CountTable.cum t k := CountTable.cum_mono t h

theorem CountTable.read_pos_write {t : CountTable} {n i : Nat} {c : Count}
    (h : ∀ j, j < n → 1 ≤ (CountTable.read t j).toNat) (hc : 1 ≤ c.toNat) :
    ∀ j, j < n → 1 ≤ (CountTable.read (CountTable.write t i c) j).toNat := by
  intro j hj
  by_cases hij : i = j
  · rw [← hij, CountTable.read_write_same]
    exact hc
  · rw [CountTable.read_write_other t c hij]
    exact h j hj

theorem countOf_toNat {x : Nat} (h : x < 2 ^ 15) : (countOf x).toNat = x := by
  rw [countOf, if_pos h, BitVec.toNat_ofNat, Nat.mod_eq_of_lt h]

/-- A symbol operand in range is an index of the count table. -/
theorem symbolOk_lt {x : Symbol} (h : symbolOk x = true) : x.toNat < Config.numSymbols := by
  simpa [symbolOk, Config.numSymbols, Nat.lt_succ_iff] using h

/-- The model that `MINIT` writes (R110). -/
theorem Model.sound_uniform (m : Mode) :
    Model.sound
      { cnt := CountTable.ofFn fun _ => 1#15, tot := 257#15, mode := m, mvalid := true } := by
  rw [Model.sound, CountTable.ofFn_one]
  exact ⟨fun _ _ => Nat.le_refl 1, (CountTable.cum_nil _).symm, show 257 ≤ 16384 by decide,
    fun _ => show 257 < 16384 by decide⟩

/-! ### Loading one count (R112) -/

theorem State.loadSum_some {s : State} {x : Symbol} {v : Count} {n : Nat}
    (h : s.loadSum x v = some n) : n + (s.count x).toNat = s.model.tot.toNat + v.toNat := by
  unfold State.loadSum at h
  split at h
  · cases h
  · next hge =>
    cases h
    omega

theorem Model.sound_load {s : State} {x : Symbol} {v : Count} {n : Nat} (hs : s.model.sound)
    (hmode : s.model.mode = .static) (hx : x.toNat < Config.numSymbols) (hv : v ≠ 0#15)
    (hn : s.loadSum x v = some n) (hc : n ≤ Config.ceiling) :
    Model.sound
      { s.model with
        cnt := CountTable.write s.model.cnt x.toNat v
        tot := BitVec.ofNat 15 n } := by
  obtain ⟨hpos, htot, -, -⟩ := hs
  have hceil : Config.ceiling = 16384 := rfl
  have hv1 : 1 ≤ v.toNat := by
    have : v.toNat ≠ 0 := fun h => hv (BitVec.eq_of_toNat_eq h)
    omega
  have hn15 : (BitVec.ofNat 15 n).toNat = n := by
    rw [BitVec.toNat_ofNat, Nat.mod_eq_of_lt (by omega)]
  have hsum := State.loadSum_some hn
  have hcum := CountTable.cum_write s.model.cnt x.toNat v Config.numSymbols hx
  refine ⟨CountTable.read_pos_write hpos hv1, ?_, hn15.trans_le hc, fun h => ?_⟩
  · rw [State.count] at hsum
    simp only [hn15]
    omega
  · rw [hmode] at h
    cases h

/-! ### Counting one symbol (R117, R118) -/

/-- What an increment leaves of the invariants: the total may have reached the ceiling. -/
def Model.counted (m : Model) : Prop :=
  (∀ i, i < Config.numSymbols → 1 ≤ (CountTable.read m.cnt i).toNat) ∧
    m.tot.toNat = CountTable.cum m.cnt Config.numSymbols ∧ m.tot.toNat ≤ Config.ceiling

theorem Model.counted_increment {m : Model} {x : Symbol} (hm : m.sound) (hmode : m.mode = .adaptive)
    (hx : x.toNat < Config.numSymbols) : (m.increment x).counted := by
  obtain ⟨hpos, htot, -, hlt⟩ := hm
  have hceil : Config.ceiling = 16384 := rfl
  have hlt := hlt hmode
  have hle := CountTable.read_le_cum m.cnt hx
  have hcount := countOf_toNat (x := (CountTable.read m.cnt x.toNat).toNat + 1) (by omega)
  have htot' : (m.increment x).tot.toNat = m.tot.toNat + 1 := countOf_toNat (by omega)
  have hcum := CountTable.cum_write m.cnt x.toNat
    (countOf ((CountTable.read m.cnt x.toNat).toNat + 1)) Config.numSymbols hx
  refine ⟨CountTable.read_pos_write hpos (by omega), ?_, by omega⟩
  rw [htot', Model.increment]
  simp only
  omega

theorem halved_toNat (c : Count) : (halved c).toNat = max 1 (c.toNat / 2) := by
  unfold halved
  split
  · next h => simp [h]
  · next h =>
    rw [BitVec.toNat_ofNat, Nat.mod_eq_of_lt (by omega)]
    omega

theorem CountTable.read_halve (t : CountTable) {i : Nat} (h : i < Config.numSymbols) :
    CountTable.read (CountTable.halve t) i = halved (CountTable.read t i) :=
  CountTable.read_ofFn _ h

/-- The halving leaves at most half the sum, and half of one per entry for its floor (R119). -/
theorem CountTable.cum_halve_le {t : CountTable}
    (hpos : ∀ i, i < Config.numSymbols → 1 ≤ (CountTable.read t i).toNat) {k : Nat}
    (hk : k ≤ Config.numSymbols) :
    2 * CountTable.cum (CountTable.halve t) k ≤ CountTable.cum t k + k := by
  induction k with
  | zero => exact Nat.le_refl 0
  | succ k ih =>
    have hrec := ih (by omega)
    have hone := hpos k (by omega)
    rw [CountTable.cum_succ, CountTable.cum_succ, CountTable.read_halve t (by omega), halved_toNat]
    omega

theorem Model.sound_rescale {m : Model} (hm : m.counted) : m.rescale.sound := by
  obtain ⟨hpos, htot, hle⟩ := hm
  have hceil : Config.ceiling = 16384 := rfl
  have hnum : Config.numSymbols = 257 := rfl
  have hhalf := CountTable.cum_halve_le hpos (Nat.le_refl _)
  have htot' : m.rescale.tot.toNat = CountTable.cum (CountTable.halve m.cnt) Config.numSymbols :=
    countOf_toNat (by omega)
  refine ⟨fun i hi => ?_, htot', by omega, fun _ => by omega⟩
  rw [show m.rescale.cnt = CountTable.halve m.cnt from rfl, CountTable.read_halve _ hi, halved_toNat]
  exact Nat.le_max_left ..

theorem Model.sound_update {m : Model} {x : Symbol} (hm : m.sound) (hmode : m.mode = .adaptive)
    (hx : x.toNat < Config.numSymbols) : (m.update x).sound := by
  have hinc := Model.counted_increment hm hmode hx
  unfold Model.update
  split
  · exact Model.sound_rescale hinc
  · next hlt =>
    obtain ⟨hpos, htot, hle⟩ := hinc
    exact ⟨hpos, htot, hle, fun _ => by omega⟩

theorem Model.wf_update {m : Model} {x : Symbol} (hm : CountTable.wf m.cnt = true)
    (hx : x.toNat < Config.numSymbols) : CountTable.wf (m.update x).cnt = true := by
  unfold Model.update
  split
  · exact CountTable.wf_ofFn fun i => halved (CountTable.read (m.increment x).cnt i)
  · exact CountTable.wf_write _ _ hx hm

end Sys2Proof.Machine
end

section
/-! SUPPORT. What every step keeps, packaged once, and the first use of it: the model stays sound, and a
run has a valid model (R31, R44). -/

namespace Sys2Proof.Machine

/-- An invariant of the form of `State.Inv`: `T` holds always, `B` at every command boundary. `B` implies
`T`, speaks of registers alone and holds after every reset; and a word run from `B` leaves `T`, and `B`
unless the command waits. -/
theorem step_keeps {T B : State → Prop} (hT : ∀ s, B s → T s)
    (hBchan : ∀ s c, B s → B (s.setChan c)) (hreset : ∀ s, B (State.resetRegs s))
    (hword : ∀ w s t, B s → runWord w s = .next t → T t ∧ (t.chan.waiting = none → B t))
    {s t : State} (hs : T s ∧ (s.chan.waiting = none → B s)) (h : step s = .next t) :
    T t ∧ (t.chan.waiting = none → B t) := by
  have hof (u : State) (hu : B u) : T u ∧ (u.chan.waiting = none → B u) := ⟨hT u hu, fun _ => hu⟩
  rcases step_cases h with rfl | ⟨a, b, rest, -, rfl⟩ | ⟨w, rest, -, hw, hrun⟩ |
    ⟨w, rest, u, -, hw, hrun, ⟨-, rfl⟩ | ⟨hu, rfl⟩⟩ | ⟨w, a, b, rest, u, -, -, -, rfl⟩
  · exact hs
  · exact hof _ (hBchan _ _ (hreset _))
  · exact hword w _ t (hBchan s _ (hs.2 hw)) hrun
  · exact hword w _ t (hBchan s _ (hs.2 hw)) hrun
  · obtain ⟨c, hc⟩ := u.offerResponse_regs s.chan.responses
    rw [hc]
    exact hof _ (hBchan u c ((hword w _ u (hBchan s _ (hs.2 hw)) hrun).2 hu))
  · exact hof _ (hBchan _ _ (hreset _))

/-- A run has a valid model (R31), and a valid model is sound (R44). -/
def State.RunModel (s : State) : Prop :=
  s.ModelInv ∧ (s.st ≠ .idle → s.st ≠ .fault → s.model.mvalid = true)

theorem State.runModel_of_sound {s : State} (hv : s.model.mvalid = true) (hs : s.model.sound) :
    s.RunModel :=
  ⟨⟨fun _ => hs, fun h => by rw [hv] at h; cases h⟩, fun _ _ => hv⟩

theorem State.resetRegs_runModel (s : State) : s.resetRegs.RunModel := by
  obtain ⟨-, hm, -⟩ := s.resetRegs_boundary
  exact ⟨hm, fun h => absurd rfl h⟩

theorem State.RunModel.sound {s : State} (h : s.RunModel) (hv : s.model.mvalid = true) :
    s.model.sound := by
  obtain ⟨⟨hs, -⟩, -⟩ := h
  exact hs hv

/-- It speaks of the model and `ST` alone, and says nothing of `ST` beside a valid model or in a fault.
-/
theorem State.RunModel.congr {s t : State} (h : s.RunModel) (hm : t.model = s.model)
    (hst : t.st = .fault ∨ s.model.mvalid = true) : t.RunModel := by
  obtain ⟨hinv, -⟩ := h
  rw [State.RunModel, State.ModelInv, hm]
  exact ⟨hinv, fun _ hf => hst.resolve_left hf⟩

/-- The commands that R31 makes legal only beside a valid model, or in a state of a run. -/
def needsModel : Instr → Bool
  | .nop | .reset | .rdreg _ | .minit _ => false
  | _ => true

theorem State.RunModel.valid_of_legal {s : State} {i : Instr} (h : s.RunModel) (hl : s.legal i = true)
    (hi : needsModel i = true) : s.model.mvalid = true := by
  obtain ⟨-, hrun⟩ := h
  cases i <;> simp_all [State.legal, needsModel]
  case update => obtain ⟨hst | hst, -⟩ := hl <;> exact hrun (by simp [hst]) (by simp [hst])

theorem State.RunModel.of_effect {s t : State} {i : Instr} {x : Flow Unit} (h : s.RunModel)
    (hl : s.legal i = true) (hx : s.effect i = some x) (ht : x.state = t) : t.RunModel := by
  obtain ⟨-, hm, -⟩ := State.effect_sameRun hx
  refine h.congr (ht ▸ hm) (.inr (h.valid_of_legal hl ?_))
  rcases State.effect_eq_some_cases hx with rfl | rfl | rfl | rfl <;> rfl

theorem Succeeds.runModel {s u : State} {i : Instr} (h : Succeeds s i u) (hs : s.RunModel)
    (hw : i.wellFormed = true) (hl : s.legal i = true) : u.RunModel := by
  have hvalid := hs.valid_of_legal hl
  cases h
  case nop | rdreg | rdcnt => exact hs
  case reset => exact s.resetRegs_runModel
  case minit m => exact State.runModel_of_sound rfl (Model.sound_uniform m)
  case ldcnt x v n hv hn hc =>
    have hmv := hvalid rfl
    have hmode : s.model.mode = .static := by simp_all [State.legal]
    exact State.runModel_of_sound hmv
      (Model.sound_load (hs.sound hmv) hmode (symbolOk_lt hw) hv hn hc)
  case update x =>
    have hmv := hvalid rfl
    have hmode : s.model.mode = .adaptive := by simp_all [State.legal]
    exact State.runModel_of_sound ((s.model.update_flags x).2.trans hmv)
      (Model.sound_update (hs.sound hmv) hmode (symbolOk_lt hw))
  case effect hx => exact hs.of_effect hl hx rfl
  all_goals exact hs.congr rfl (.inr (hvalid rfl))

theorem exec_keeps_runModel {i : Instr} {s t : State} (hs : s.RunModel) (h : exec i s = .next t) :
    t.RunModel := by
  cases exec_ends h with
  | fault k h => exact hs.congr (by simp [h]) (.inl (by simp [h]))
  | midFault k u hu h =>
    obtain ⟨-, hm, -⟩ := hu
    exact hs.congr (by simp [h, hm]) (.inl (by simp [h]))
  | waits hl hx => exact hs.of_effect hl hx rfl
  | success u d hw hl hu h => exact h ▸ hu.runModel hs hw hl

theorem runWord_keeps_runModel {w : Word} {s t : State} (hs : s.RunModel) (h : runWord w s = .next t) :
    t.RunModel := by
  rcases runWord_cases h with ⟨_, -, rfl⟩ | ⟨i, -, h⟩
  · exact hs.congr rfl (.inl rfl)
  · exact exec_keeps_runModel hs h

/-- Settles O58: the model invariants hold at every moment, a command in progress or not. -/
theorem stepKeepsModelSound : Obligations.StepKeepsModelSound := by
  intro s t hm hrun h
  have hs : s.RunModel := ⟨hm, hrun⟩
  exact (step_keeps (T := State.RunModel) (B := State.RunModel) (fun _ h => h) (fun _ _ h => h)
    State.resetRegs_runModel
    (fun w s t hs h => have ht := runWord_keeps_runModel hs h; ⟨ht, fun _ => ht⟩) ⟨hs, fun _ => hs⟩ h).1

end Sys2Proof.Machine
end

section
/-! SUPPORT. The renormalization in numbers (R142, R143, R173): each step doubles every position of the
interval about the same point, so the bounds stay in order, the code stays between them, and 16 steps
end in a settled interval (R148). -/

namespace Sys2Proof.Machine

/-! ### Bits as numbers -/

theorem bit15_eq (v : Bound) : v.getLsbD 15 = decide (32768 ≤ v.toNat) := by
  have h : v.getLsbD 15 = v.msb := rfl
  rw [h, BitVec.msb_eq_decide]

theorem bit14_eq (v : Bound) : v.getLsbD 14 = decide (16384 ≤ v.toNat % 32768) := by
  rw [BitVec.getLsbD, Nat.testBit_eq_decide_div_mod_eq]
  congr 1
  apply propext
  omega

/-- A shift loses the top bit (R143). -/
theorem shiftIn_toNat (v : Bound) (b : Bool) :
    (shiftIn v b).toNat = 2 * (v.toNat % 32768) + b.toNat := by
  have h : shiftIn v b = v.shiftConcat b := by
    ext i hi
    rw [BitVec.getElem_shiftConcat]
    by_cases h0 : i = 0 <;> cases b <;> simp [shiftIn, h0]
  have hb := Bool.toNat_lt b
  rw [h, BitVec.toNat_shiftConcat]
  omega

/-- The lower 15 bits, of which a step changes the top one alone. -/
theorem mod_eq_of_bit14 {u v : Bound} (h : u.toNat % 2 ^ 14 = v.toNat % 2 ^ 14) :
    u.toNat % 32768 = v.toNat % 16384 + if u.getLsbD 14 then 16384 else 0 := by
  rw [bit14_eq]
  simp only [decide_eq_true_eq]
  split <;> omega

theorem clear14_mod (v : Bound) : (v &&& 0x3FFF#16).toNat % 32768 = v.toNat % 16384 := by
  rw [mod_eq_of_bit14 (v := v)]
  · simp
  · rw [BitVec.toNat_and, Nat.and_mod_two_pow]
    exact (Nat.and_two_pow_sub_one_eq_mod _ 14).trans (Nat.mod_mod _ _)

theorem set14_mod (v : Bound) : (v ||| 0x4000#16).toNat % 32768 = v.toNat % 16384 + 16384 := by
  rw [mod_eq_of_bit14 (v := v)]
  · simp
  · rw [BitVec.toNat_or, Nat.or_mod_two_pow]
    exact Nat.or_zero _

theorem flip14_mod (v : Bound) :
    (v ^^^ 0x4000#16).toNat % 32768 = v.toNat % 16384 + if v.getLsbD 14 then 0 else 16384 := by
  rw [mod_eq_of_bit14 (v := v)]
  · cases h : v.getLsbD 14 <;> simp_all
  · rw [BitVec.toNat_xor, Nat.xor_mod_two_pow]
    exact Nat.xor_zero _

/-! ### The conditions of R142 as ranges -/

theorem Interval.e12_iff (v : Interval) :
    (v.e1 || v.e2) = true ↔
      (v.low.toNat < 32768 ∧ v.high.toNat < 32768) ∨ (32768 ≤ v.low.toNat ∧ 32768 ≤ v.high.toNat) := by
  simp only [Interval.e1, Interval.e2, bit15_eq, Bool.or_eq_true, Bool.and_eq_true, Bool.not_eq_true',
    decide_eq_true_eq, decide_eq_false_iff_not, Nat.not_le]

theorem Interval.e3_iff (v : Interval) :
    v.e3 = true ↔
      16384 ≤ v.low.toNat ∧ v.low.toNat < 32768 ∧ 32768 ≤ v.high.toNat ∧ v.high.toNat < 49152 := by
  have hhigh := v.high.isLt
  simp only [Interval.e3, bit15_eq, bit14_eq, Bool.and_eq_true, Bool.not_eq_true',
    decide_eq_true_eq, decide_eq_false_iff_not]
  omega

/-! ### One step -/

/-- The step from `v` to `w` doubles every position about one point, with `f` on the positions of the
code. -/
def Interval.Doubles (v w : Interval) (f : Bound → Bool → Bound) : Prop :=
  ∃ c, w.low.toNat + c = 2 * v.low.toNat ∧ w.high.toNat + c = 2 * v.high.toNat + 1 ∧
    ∀ x b, v.low.toNat ≤ x.toNat → x.toNat ≤ v.high.toNat → (f x b).toNat + c = 2 * x.toNat + b.toNat

theorem Interval.shift_doubles {v : Interval} (h : (v.e1 || v.e2) = true)
    (hle : v.low.toNat ≤ v.high.toNat) : v.Doubles v.shift shiftIn := by
  have hx (x : Bound) := x.isLt
  rcases v.e12_iff.mp h with ⟨hl, hh⟩ | ⟨hl, hh⟩
  · refine ⟨0, ?_, ?_, fun x b h1 h2 => ?_⟩ <;>
      simp only [Interval.shift, shiftIn_toNat, Bool.toNat_true, Bool.toNat_false] <;> omega
  · have := hx v.low
    have := hx v.high
    refine ⟨65536, ?_, ?_, fun x b h1 h2 => ?_⟩ <;>
      simp only [Interval.shift, shiftIn_toNat, Bool.toNat_true, Bool.toNat_false] <;> omega

theorem Interval.widen_doubles {v : Interval} (h : v.e3 = true) :
    v.Doubles v.widen fun x b => shiftIn (x ^^^ 0x4000#16) b := by
  obtain ⟨h1, h2, h3, h4⟩ := v.e3_iff.mp h
  refine ⟨32768, ?_, ?_, fun x b hl hh => ?_⟩
  · simp only [Interval.widen, shiftIn_toNat, clear14_mod, Bool.toNat_false]
    omega
  · simp only [Interval.widen, shiftIn_toNat, set14_mod, Bool.toNat_true]
    omega
  · simp only [shiftIn_toNat, flip14_mod, bit14_eq, decide_eq_true_eq]
    split <;> omega

/-- The number of positions of an interval (R21, R22). -/
def Interval.size (v : Interval) : Nat := v.high.toNat + 1 - v.low.toNat

theorem Interval.Doubles.low_le_high {v w : Interval} {f : Bound → Bool → Bound} (h : v.Doubles w f)
    (hle : v.low.toNat ≤ v.high.toNat) : w.low.toNat ≤ w.high.toNat := by
  obtain ⟨c, hl, hh, -⟩ := h
  omega

theorem Interval.Doubles.size_eq {v w : Interval} {f : Bound → Bool → Bound} (h : v.Doubles w f) :
    w.size = 2 * v.size := by
  obtain ⟨c, hl, hh, -⟩ := h
  unfold Interval.size
  omega

/-- A code between the bounds stays between them, whatever bit is read. -/
theorem Interval.Doubles.holds {v w : Interval} {f : Bound → Bool → Bound} (h : v.Doubles w f)
    {x : Bound} (hl : v.low.toNat ≤ x.toNat) (hh : x.toNat ≤ v.high.toNat) (b : Bool) :
    w.low.toNat ≤ (f x b).toNat ∧ (f x b).toNat ≤ w.high.toNat := by
  obtain ⟨c, hlow, hhigh, hf⟩ := h
  have hx := hf x b hl hh
  have hb := Bool.toNat_lt b
  omega

/-! ### The end of the loop -/

/-- An interval in order to which no step applies is settled (R25, R142). -/
theorem Interval.settled_of_no_step {v : Interval} (hle : v.low.toNat ≤ v.high.toNat)
    (h12 : ¬(v.e1 || v.e2) = true) (h3 : ¬v.e3 = true) : v.settled := by
  rw [v.e12_iff] at h12
  rw [v.e3_iff] at h3
  unfold Interval.settled Config.half Config.quarter Config.threeQuarters
  omega

/-- The whole interval is settled. -/
theorem Interval.settled_of_size {v : Interval} (h : 2 ^ 16 ≤ v.size) : v.settled := by
  have hhigh := v.high.isLt
  unfold Interval.size at h
  unfold Interval.settled Config.half Config.quarter Config.threeQuarters
  omega

theorem Interval.begin_settled : Interval.begin.settled :=
  Interval.settled_of_size (by decide)

end Sys2Proof.Machine
end

section
/-! SUPPORT. What a part of a command ensures: when it goes on, a property of what it leaves; when it
waits, that the wait shows in the state. -/

namespace Sys2Proof.Machine

/-- If the part goes on, `Q` holds; if it waits, the core shows the request (log 4). -/
def Flow.ensures {α : Type} (Q : α → State → Prop) : Flow α → Prop
  | .goesOn a s => Q a s
  | .raises _ _ => True
  | .waits s => s.chan.waiting ≠ none

theorem Flow.ensures_andThen {α β : Type} {Q : α → State → Prop} {R : β → State → Prop} {x : Flow α}
    {f : α → State → Flow β} (hx : x.ensures Q) (hf : ∀ a s, Q a s → (f a s).ensures R) :
    (x.andThen f).ensures R := by
  cases x with
  | goesOn a s => exact hf a s hx
  | raises k s => trivial
  | waits s => exact hx

theorem Flow.ensures.mono {α : Type} {Q R : α → State → Prop} {x : Flow α} (hx : x.ensures Q)
    (h : ∀ a s, Q a s → R a s) : x.ensures R := by
  cases x with
  | goesOn a s => exact h a s hx
  | raises k s => trivial
  | waits s => exact hx

theorem State.sendOut_ensures (s : State) (e : OutEvent) :
    (s.sendOut e).ensures fun _ t => t.iv = s.iv := by
  unfold State.sendOut
  split
  · exact Option.some_ne_none _
  · rfl
  · trivial

theorem State.emitTimes_ensures (n : Nat) (b : Bool) (s : State) :
    (State.emitTimes n b s).ensures fun _ t => t.iv = s.iv := by
  induction n generalizing s with
  | zero => rfl
  | succ n ih =>
    exact Flow.ensures_andThen (s.sendOut_ensures _) fun _ t ht => ht ▸ ih t

/-- `ReadBit` leaves the interval but for `EOSCNT`, which stays in its bound (R34, R72). -/
theorem State.readBit_ensures (s : State) :
    s.readBit.ensures fun _ t =>
      ∃ e, t.iv = { s.iv with eoscnt := e } ∧
        (s.iv.eoscnt.toNat ≤ Config.eosLimit → e.toNat ≤ Config.eosLimit) := by
  unfold State.readBit
  split
  · exact Option.some_ne_none _
  · trivial
  · exact ⟨s.iv.eoscnt, rfl, id⟩
  · split
    · trivial
    · next h =>
      refine ⟨s.iv.eoscnt + 1#4, rfl, fun _ => ?_⟩
      have hlim : Config.eosLimit = 14 := rfl
      simp only [BitVec.toNat_add, BitVec.toNat_ofNat]
      omega

theorem State.emitTop_ensures (s : State) :
    s.emitTop.ensures fun _ t => t.iv = { s.iv.shift with pend := 0#32 } := by
  refine Flow.ensures_andThen (s.sendOut_ensures _) fun _ t ht => ?_
  refine Flow.ensures_andThen (State.emitTimes_ensures _ _ t) fun _ u hu => ?_
  show ({ u.iv.shift with pend := 0#32 } : Interval) = _
  rw [hu, ht]

theorem State.deferBit_ensures (s : State) :
    s.deferBit.ensures fun _ t => t.iv = { s.iv.widen with pend := s.iv.pend + 1#32 } := by
  unfold State.deferBit
  split
  · trivial
  · rfl

/-! ### The two loops (R143, R148, R173) -/

/-- What an encoder's loop keeps: bounds in order, and the decoder's registers clear (R23, R34). -/
def Interval.encodes (v : Interval) : Prop :=
  v.low.toNat ≤ v.high.toNat ∧ v.code = 0#16 ∧ v.eoscnt = 0#4

/-- What a decoder's loop keeps: the code between the bounds (R181), no pending bits (R24), `EOSCNT` in
its bound (R34). -/
def Interval.decodes (v : Interval) : Prop :=
  v.low.toNat ≤ v.code.toNat ∧ v.code.toNat ≤ v.high.toNat ∧ v.pend = 0#32 ∧
    v.eoscnt.toNat ≤ Config.eosLimit

/-- A doubled interval needs one step less to be whole. -/
theorem Interval.Doubles.size_mul_pow {v w : Interval} {f : Bound → Bool → Bound} (h : v.Doubles w f)
    (n : Nat) : w.size * 2 ^ n = v.size * 2 ^ (n + 1) := by
  rw [h.size_eq, Nat.pow_succ', Nat.mul_comm 2, Nat.mul_assoc]

theorem Interval.encodes.low_le_high {v : Interval} (h : v.encodes) : v.low.toNat ≤ v.high.toNat := h.1

theorem Interval.decodes.low_le_high {v : Interval} (h : v.decodes) : v.low.toNat ≤ v.high.toNat := by
  obtain ⟨hl, hh, -⟩ := h
  exact hl.trans hh

theorem Interval.encodes_of_doubles {v w : Interval} {f : Bound → Bool → Bound} {p : Word}
    (hd : v.Doubles w f) (hcode : w.code = v.code) (heos : w.eoscnt = v.eoscnt) (hv : v.encodes) :
    Interval.encodes { w with pend := p } := by
  obtain ⟨hle, hc, he⟩ := hv
  exact ⟨hd.low_le_high hle, hcode.trans hc, heos.trans he⟩

theorem renormE_ensures (n : Nat) (s : State) (hv : s.iv.encodes) (hn : 2 ^ 16 ≤ s.iv.size * 2 ^ n) :
    (renormE n s).ensures fun _ t => t.iv.settled ∧ t.iv.encodes := by
  induction n generalizing s with
  | zero => exact ⟨Interval.settled_of_size (by omega), hv⟩
  | succ n ih =>
    have hle := hv.low_le_high
    unfold renormE
    split
    · next h =>
      have hd := Interval.shift_doubles h hle
      refine Flow.ensures_andThen s.emitTop_ensures fun _ t ht => ih t ?_ ?_ <;> rw [ht]
      · exact Interval.encodes_of_doubles hd rfl rfl hv
      · exact hn.trans_eq (hd.size_mul_pow n).symm
    · next h12 =>
      split
      · next h =>
        have hd := Interval.widen_doubles h
        refine Flow.ensures_andThen s.deferBit_ensures fun _ t ht => ih t ?_ ?_ <;> rw [ht]
        · exact Interval.encodes_of_doubles hd rfl rfl hv
        · exact hn.trans_eq (hd.size_mul_pow n).symm
      · next h3 => exact ⟨Interval.settled_of_no_step hle h12 h3, hv⟩

/-- One step of the decoder's loop: the bounds become those of `w`, the code moves by `f` with the bit
read. -/
theorem readStep_ensures {s : State} {w : Interval} {f : Bound → Bool → Bound} (hd : s.iv.Doubles w f)
    (hcode : w.code = s.iv.code) (hpend : w.pend = s.iv.pend) (heos : w.eoscnt = s.iv.eoscnt)
    (hv : s.iv.decodes) :
    (s.setIv w).readBit.ensures fun b t =>
      Interval.decodes { t.iv with code := f t.iv.code b } ∧
        Interval.size { t.iv with code := f t.iv.code b } = w.size := by
  obtain ⟨hl, hh, hp, he⟩ := hv
  refine (s.setIv w).readBit_ensures.mono fun b t ⟨e, ht, hlim⟩ => ?_
  rw [ht]
  obtain ⟨hl', hh'⟩ := hd.holds hl hh b
  rw [← hcode] at hl' hh'
  exact ⟨⟨hl', hh', hpend.trans hp, hlim (heos ▸ he)⟩, rfl⟩

theorem renormD_ensures (n : Nat) (s : State) (hv : s.iv.decodes) (hn : 2 ^ 16 ≤ s.iv.size * 2 ^ n) :
    (renormD n s).ensures fun _ t => t.iv.settled ∧ t.iv.decodes := by
  induction n generalizing s with
  | zero => exact ⟨Interval.settled_of_size (by omega), hv⟩
  | succ n ih =>
    have hle := hv.low_le_high
    unfold renormD
    split
    · next h =>
      have hd := Interval.shift_doubles h hle
      refine Flow.ensures_andThen (readStep_ensures hd rfl rfl rfl hv) fun b t ⟨ht, hsize⟩ => ih _ ht ?_
      exact hn.trans_eq ((hd.size_mul_pow n).symm.trans (congrArg (· * 2 ^ n) hsize.symm))
    · next h12 =>
      split
      · next h =>
        have hd := Interval.widen_doubles h
        refine Flow.ensures_andThen (readStep_ensures hd rfl rfl rfl hv) fun b t ⟨ht, hsize⟩ => ih _ ht ?_
        exact hn.trans_eq ((hd.size_mul_pow n).symm.trans (congrArg (· * 2 ^ n) hsize.symm))
      · next h3 => exact ⟨Interval.settled_of_no_step hle h12 h3, hv⟩

/-- The first `W` bits go into `CODE` of the whole interval (R170). -/
theorem fillCode_ensures (n : Nat) (s : State) (hlow : s.iv.low = 0#16)
    (hhigh : s.iv.high = Config.maxBound) (hpend : s.iv.pend = 0#32)
    (heos : s.iv.eoscnt.toNat ≤ Config.eosLimit) :
    (fillCode n s).ensures fun _ t => t.iv.settled ∧ t.iv.decodes := by
  induction n generalizing s with
  | zero =>
    have hl : s.iv.low.toNat = 0 := congrArg BitVec.toNat hlow
    have hh : s.iv.high.toNat = 65535 := congrArg BitVec.toNat hhigh
    have hc := s.iv.code.isLt
    exact ⟨Interval.settled_of_size (by unfold Interval.size; omega), by omega, by omega, hpend, heos⟩
  | succ n ih =>
    refine Flow.ensures_andThen s.readBit_ensures fun b t ⟨e, ht, hlim⟩ => ?_
    rw [ht]
    exact ih _ hlow hhigh hpend (hlim heos)

end Sys2Proof.Machine
end

section
/-! SUPPORT. The invariants of the command boundary, one at a time: what each says in a given `ST`, and
how a command that reaches that `ST` meets it. -/

namespace Sys2Proof.Machine

/-! ### The interval (R25, R34, R181) -/

theorem Interval.settled.low_le_high {v : Interval} (h : v.settled) : v.low.toNat ≤ v.high.toNat := by
  obtain ⟨hl, hh, -⟩ := h
  omega

theorem State.intervalInv_of_encoding {s : State} (hst : s.st.encoding = true) (hset : s.iv.settled)
    (hv : s.iv.encodes) : s.IntervalInv := by
  obtain ⟨hle, hcode, heos⟩ := hv
  refine ⟨fun _ _ => hle, fun _ => ⟨hset, hcode, heos⟩, fun h => ?_, fun _ => by simp [heos]⟩
  cases hq : s.st <;> simp [hq, Seq.encoding, Seq.decoding] at hst h

theorem State.intervalInv_of_decoding {s : State} (hst : s.st.decoding = true) (hset : s.iv.settled)
    (hv : s.iv.decodes) : s.IntervalInv := by
  obtain ⟨hl, hh, hpend, heos⟩ := hv
  refine ⟨fun _ _ => hl.trans hh, fun h => ?_, fun _ => ⟨hset, hl, hh, hpend⟩, fun _ => heos⟩
  cases hq : s.st <;> simp [hq, Seq.encoding, Seq.decoding] at hst h

theorem State.intervalInv_of_done {s : State} (hst : s.st = .done) (hle : s.iv.low.toNat ≤ s.iv.high.toNat)
    (heos : s.iv.eoscnt.toNat ≤ Config.eosLimit) : s.IntervalInv := by
  simp [State.IntervalInv, hst, Seq.encoding, Seq.decoding, hle, heos]

theorem State.IntervalInv.encodes {s : State} (h : s.IntervalInv) (hst : s.st.encoding = true) :
    s.iv.settled ∧ s.iv.encodes := by
  obtain ⟨-, henc, -, -⟩ := h
  obtain ⟨hset, hcode, heos⟩ := henc hst
  exact ⟨hset, hset.low_le_high, hcode, heos⟩

theorem State.IntervalInv.decodes {s : State} (h : s.IntervalInv) (hst : s.st.decoding = true) :
    s.iv.settled ∧ s.iv.decodes := by
  obtain ⟨-, -, hdec, heos⟩ := h
  obtain ⟨hset, hl, hh, hpend⟩ := hdec hst
  exact ⟨hset, hl, hh, hpend, heos fun hf => by simp [hf, Seq.decoding] at hst⟩

theorem State.IntervalInv.eoscnt_le {s : State} (h : s.IntervalInv) (hst : s.st ≠ .fault) :
    s.iv.eoscnt.toNat ≤ Config.eosLimit := by
  obtain ⟨-, -, -, heos⟩ := h
  exact heos hst

/-! ### The latches (R26 to R28) -/

/-- The latch holds the range of `SYM` in the current table (R26). -/
def State.rangeLatched (s : State) : Prop :=
  s.latch.rl.toNat = s.cum s.latch.sym.toNat ∧ s.latch.rh.toNat = s.cum (s.latch.sym.toNat + 1) ∧
    s.latch.rt = s.model.tot

/-- `SV` is the scaled value of the code in the current interval (R27, R171). -/
def State.svScaled (s : State) : Prop :=
  s.latch.sv.toNat * (s.iv.high.toNat + 1 - s.iv.low.toNat) ≤
      (s.iv.code.toNat - s.iv.low.toNat + 1) * s.model.tot.toNat - 1 ∧
    (s.iv.code.toNat - s.iv.low.toNat + 1) * s.model.tot.toNat - 1 <
      (s.latch.sv.toNat + 1) * (s.iv.high.toNat + 1 - s.iv.low.toNat)

theorem State.latchInv_of_encRange {s : State} (hst : s.st = .encRange) (hsym : s.latch.sym.toNat ≤ 256)
    (hr : s.rangeLatched) : s.LatchInv := by
  simp only [State.LatchInv, hst]
  exact ⟨hsym, by simp, fun _ => hr, by simp, by simp⟩

theorem State.latchInv_of_decCount {s : State} (hst : s.st = .decCount)
    (hsym : s.latch.sym.toNat ≤ 256) (hsv : s.latch.sv.toNat < s.model.tot.toNat) (hsc : s.svScaled) :
    s.LatchInv := by
  simp only [State.LatchInv, hst]
  exact ⟨hsym, fun _ => hsv, by simp, by simp, fun _ => hsc⟩

theorem State.latchInv_of_decRange {s : State} (hst : s.st = .decRange)
    (hsym : s.latch.sym.toNat ≤ 256) (hr : s.rangeLatched) (hl : s.latch.rl.toNat ≤ s.latch.sv.toNat)
    (hh : s.latch.sv.toNat < s.latch.rh.toNat) (hsc : s.svScaled) : s.LatchInv := by
  simp only [State.LatchInv, hst]
  exact ⟨hsym, by simp, fun _ => hr, fun _ => ⟨hl, hh, hsc⟩, by simp⟩

theorem State.LatchInv.sym_le {s : State} (h : s.LatchInv) : s.latch.sym.toNat ≤ 256 := h.1

theorem State.LatchInv.of_decCount {s : State} (h : s.LatchInv) (hst : s.st = .decCount) :
    s.svScaled := by
  obtain ⟨-, -, -, -, hsc⟩ := h
  exact hsc hst

theorem State.LatchInv.of_decRange {s : State} (h : s.LatchInv) (hst : s.st = .decRange) :
    s.rangeLatched ∧ s.latch.rl.toNat ≤ s.latch.sv.toNat ∧ s.latch.sv.toNat < s.latch.rh.toNat ∧
      s.svScaled := by
  obtain ⟨-, -, hr, hd, -⟩ := h
  obtain ⟨hl, hh, hsc⟩ := hd hst
  exact ⟨hr (.inr hst), hl, hh, hsc⟩

/-- `GETPROB` and `GETSYM` latch the range of a symbol exactly (R114, R115). -/
theorem State.rangeLatch_toNat {s : State} {k : Nat} (hk : k < Config.numSymbols)
    (hf : s.rangeFits k = true) :
    (s.rangeLatch k).sym.toNat = k ∧ (s.rangeLatch k).rl.toNat = s.cum k ∧
      (s.rangeLatch k).rh.toNat = s.cum (k + 1) := by
  have hnum : Config.numSymbols = 257 := rfl
  have hfit : s.cum (k + 1) < 2 ^ 15 := by simpa [State.rangeFits] using hf
  have hle : s.cum k ≤ s.cum (k + 1) := CountTable.cum_mono _ (Nat.le_succ k)
  simp only [State.rangeLatch, BitVec.toNat_ofNat]
  refine ⟨?_, ?_, ?_⟩ <;> exact Nat.mod_eq_of_lt (by omega)

/-- What `GETCNT` answers, when it does (R171, R172). -/
theorem State.scaled_some {s : State} {n : Nat} (h : s.scaled = some n) :
    n < s.model.tot.toNat ∧
      n * (s.iv.high.toNat + 1 - s.iv.low.toNat) ≤
        (s.iv.code.toNat - s.iv.low.toNat + 1) * s.model.tot.toNat - 1 ∧
      (s.iv.code.toNat - s.iv.low.toNat + 1) * s.model.tot.toNat - 1 <
        (n + 1) * (s.iv.high.toNat + 1 - s.iv.low.toNat) := by
  unfold State.scaled at h
  split at h
  · cases h
  · split at h
    · cases h
    · next hle =>
      simp only at h
      split at h
      · cases h
      · next hlt =>
        cases h
        exact ⟨Nat.not_le.mp hlt, Nat.div_mul_le_self _ _,
          Nat.lt_mul_of_div_lt (Nat.lt_succ_self _) (by omega)⟩

/-! ### The decoder's narrowing keeps the code in the interval (R180, R181) -/

theorem Model.sound.tot_pos {m : Model} (h : m.sound) : 0 < m.tot.toNat := by
  obtain ⟨hpos, htot, -⟩ := h
  rw [htot]
  exact (hpos 0 (by decide)).trans (CountTable.read_le_cum m.cnt (by decide))

theorem State.narrowed_holds_code {s : State} {nl nh : Bound} (htot : 0 < s.model.tot.toNat)
    (hlow : s.iv.low.toNat ≤ s.iv.code.toNat) (hrt : s.latch.rt = s.model.tot)
    (hl : s.latch.rl.toNat ≤ s.latch.sv.toNat) (hh : s.latch.sv.toNat < s.latch.rh.toNat)
    (hsc : s.svScaled) (hn : s.narrowed = some (nl, nh)) :
    nl.toNat ≤ s.iv.code.toNat ∧ s.iv.code.toNat ≤ nh.toNat := by
  obtain ⟨hnl, hnh, -⟩ := narrow_some hn
  obtain ⟨hlo, hhi⟩ := hsc
  rw [hrt] at hnl hnh
  generalize s.iv.high.toNat + 1 - s.iv.low.toNat = size at *
  generalize hc : s.iv.code.toNat - s.iv.low.toNat + 1 = c at *
  have hpos : 0 < c * s.model.tot.toNat := Nat.mul_pos (by omega) htot
  have hrl : size * s.latch.rl.toNat < c * s.model.tot.toNat :=
    calc size * s.latch.rl.toNat ≤ size * s.latch.sv.toNat := Nat.mul_le_mul_left _ hl
      _ = s.latch.sv.toNat * size := Nat.mul_comm ..
      _ < c * s.model.tot.toNat := by omega
  have hrh : c * s.model.tot.toNat ≤ size * s.latch.rh.toNat :=
    calc c * s.model.tot.toNat ≤ (s.latch.sv.toNat + 1) * size := by omega
      _ ≤ s.latch.rh.toNat * size := Nat.mul_le_mul_right _ hh
      _ = size * s.latch.rh.toNat := Nat.mul_comm ..
  have hdl := (Nat.div_lt_iff_lt_mul htot).mpr hrl
  have hdh := (Nat.le_div_iff_mul_le htot).mpr hrh
  omega

/-! ### The effects with channel requests -/

theorem width_steps_suffice {v : Interval} (h : v.low.toNat ≤ v.high.toNat) :
    2 ^ 16 ≤ v.size * 2 ^ Config.width := by
  have hpos : 1 ≤ v.size := by unfold Interval.size; omega
  exact Nat.le_mul_of_pos_left _ hpos

theorem State.encodeFrom_ensures (s : State) (hv : s.iv.encodes) :
    s.encodeFrom.ensures fun _ t => t.IntervalInv := by
  have hloop := renormE_ensures Config.width s hv (width_steps_suffice hv.low_le_high)
  refine Flow.ensures_andThen hloop fun _ t ⟨hset, henc⟩ => State.intervalInv_of_encoding ?_ hset henc
  rw [State.setSt_st]
  split <;> rfl

theorem State.decodeFrom_ensures (s : State) (hv : s.iv.decodes) :
    s.decodeFrom.ensures fun _ t => t.IntervalInv := by
  have hloop := renormD_ensures Config.width s hv (width_steps_suffice hv.low_le_high)
  exact Flow.ensures_andThen hloop fun _ t ⟨hset, hdec⟩ => State.intervalInv_of_decoding rfl hset hdec

theorem State.beginDecode_ensures (s : State) :
    s.beginDecode.ensures fun _ t => t.IntervalInv := by
  have hfill := fillCode_ensures Config.width (s.setIv .begin) rfl rfl rfl (Nat.zero_le _)
  exact Flow.ensures_andThen hfill fun _ t ⟨hset, hdec⟩ => State.intervalInv_of_decoding rfl hset hdec

/-- `EFINISH` leaves the bounds and `EOSCNT` as they are (R146). -/
theorem State.finishRun_ensures (s : State) (hv : s.iv.encodes) :
    s.finishRun.ensures fun _ t => t.IntervalInv := by
  obtain ⟨hle, -, heos⟩ := hv
  refine Flow.ensures_andThen ((s.setSt .encFlush).sendOut_ensures _) fun _ t ht => ?_
  refine Flow.ensures_andThen (State.emitTimes_ensures _ _ t) fun _ u hu => ?_
  refine Flow.ensures_andThen (State.sendOut_ensures _ _) fun _ v hv => ?_
  have hiv : v.iv = { s.iv with pend := 0#32 } := by rw [hv, State.setIv_iv, hu, ht, State.setSt_iv]
  refine State.intervalInv_of_done rfl ?_ ?_ <;> rw [State.setSt_iv, hiv]
  · exact hle
  · simp [heos]

theorem State.Boundary.narrowed_decodes {s : State} {nl nh : Bound} (hs : s.Boundary)
    (hst : s.st = .decRange) (hn : s.narrowed = some (nl, nh)) : (s.setBounds nl nh).iv.decodes := by
  obtain ⟨-, ⟨hsound, -⟩, hiv, hlatch, ⟨-, hvalid⟩, -⟩ := hs
  obtain ⟨-, hlow, -, hpend, heos⟩ := hiv.decodes (by rw [hst]; rfl)
  obtain ⟨⟨-, -, hrt⟩, hl, hh, hsc⟩ := hlatch.of_decRange hst
  have htot := (hsound (hvalid (by simp [hst]) (by simp [hst]))).tot_pos
  obtain ⟨hnl, hnh⟩ := State.narrowed_holds_code htot hlow hrt hl hh hsc hn
  exact ⟨hnl, hnh, hpend, heos⟩

/-- Whatever an effect does from a command boundary, it ends in a wait, a fault or a sound interval. -/
theorem State.effect_ensures {s : State} {i : Instr} {x : Flow Unit} (hs : s.Boundary)
    (hl : s.legal i = true) (hx : s.effect i = some x) : x.ensures fun _ t => t.IntervalInv := by
  obtain ⟨-, -, hiv, -⟩ := id hs
  cases i <;> simp only [State.effect, Option.some.injEq, reduceCtorEq] at hx
  case esym =>
    obtain ⟨⟨nl, nh⟩, hn, rfl⟩ := Option.map_eq_some_iff.mp hx
    have hst : s.st = .encRange := by simpa [State.legal] using hl
    obtain ⟨-, -, hcode, heos⟩ := hiv.encodes (by rw [hst]; rfl)
    obtain ⟨-, -, hle⟩ := narrow_some hn
    exact State.encodeFrom_ensures _ ⟨hle, hcode, heos⟩
  case efinish =>
    have hst : s.st = .encEos := by simpa [State.legal] using hl
    exact hx ▸ s.finishRun_ensures (hiv.encodes (by rw [hst]; rfl)).2
  case dbegin => exact hx ▸ s.beginDecode_ensures
  case dsym =>
    split at hx
    · cases hx
    · obtain ⟨⟨nl, nh⟩, hn, rfl⟩ := Option.map_eq_some_iff.mp hx
      have hst : s.st = .decRange := by simpa [State.legal] using hl
      exact State.decodeFrom_ensures _ (hs.narrowed_decodes hst hn)

end Sys2Proof.Machine
end

section
/-! SUPPORT. Every step keeps the invariants of the command boundary (R25 to R28, R30, R34 to R37, R40,
R44, R181): a success meets them one by one, a fault meets them by its entry, a wait needs the table's
form alone. -/

namespace Sys2Proof.Machine

/-- At a command boundary both parts of the machine's invariant hold. -/
theorem State.Boundary.inv {s : State} (h : s.Boundary) : s.Inv :=
  ⟨h.1, fun _ => h⟩

/-! ### A fault -/

theorem FaultRegs.record_fcause_le {f : FaultRegs} (h : f.fcause.toNat ≤ 5) (k : FaultKind) (w : Word) :
    (f.record k w).fcause.toNat ≤ 5 := by
  by_cases h0 : f.fcause = 0#4
  · rw [(f.record_first k w h0).1]
    cases k <;> decide
  · rw [(f.record_later k w h0).1]
    exact h

/-- A state in `FAULT` meets the invariants if the model, the latches and the fault record do. -/
theorem State.Boundary.of_fault {s t : State} {k : FaultKind} {w : Word} (hs : s.Boundary)
    (hst : t.st = .fault) (hlatch : t.latch = s.latch) (hmodel : t.model = s.model)
    (hfaults : t.faults = s.faults.record k w) : t.Boundary := by
  obtain ⟨htable, hm, -, hl, -, -, -, hle⟩ := hs
  have hne := s.faults.record_fcause_ne k w
  refine ⟨?table, ?model, ?interval, State.latchInv_of_sym (hlatch ▸ hl.sym_le) (by rw [hst]; rfl), ?seq,
    ?fault⟩
  case table => rwa [State.TableInv, hmodel]
  case model => rwa [State.ModelInv, hmodel]
  case interval => simp [State.IntervalInv, hst, Seq.encoding, Seq.decoding]
  case seq => simp [State.SeqInv, hst]
  case fault =>
    rw [State.FaultInv, hfaults]
    exact ⟨by simp [hst, hne], fun h => absurd h hne, FaultRegs.record_fcause_le hle k w⟩

/-! ### A success -/

theorem State.TableInv.congr {s t : State} (h : s.TableInv) (hm : t.model = s.model) : t.TableInv := by
  rwa [State.TableInv, hm]

theorem Succeeds.tableInv {s u : State} {i : Instr} (h : Succeeds s i u) (hs : s.TableInv)
    (hw : i.wellFormed = true) : u.TableInv := by
  cases h
  case reset => exact freeTable_wf s.draws
  case minit m => simp [State.TableInv]
  case ldcnt x v n _ _ _ => exact CountTable.wf_write _ _ (symbolOk_lt hw) hs
  case update x => exact Model.wf_update hs (symbolOk_lt hw)
  case effect hx =>
    obtain ⟨-, hm, -⟩ := State.effect_sameRun hx
    exact hs.congr hm
  all_goals exact hs

theorem Succeeds.faults_eq {s u : State} {i : Instr} (h : Succeeds s i u) (hi : i ≠ .reset) :
    u.faults = s.faults := by
  cases h
  case reset => exact absurd rfl hi
  case effect hx =>
    obtain ⟨-, -, hf, -⟩ := State.effect_sameRun hx
    exact hf
  all_goals simp

/-- No success enters or leaves `FAULT` but by `RESET` (R234), and none ends in `ENC_FLUSH` (R30). -/
theorem State.stAfter_fault {s : State} {i : Instr} (hl : s.legal i = true) (hi : i ≠ .reset) :
    (s.stAfter i = .fault ↔ s.st = .fault) ∧ (s.stAfter i = .encFlush → s.st = .encFlush) := by
  cases i <;> simp_all [State.stAfter, State.legal]
  case minit => rcases hl with hst | hst <;> simp [hst]
  case esym | dsym => split <;> simp

theorem Succeeds.faultInv {s u : State} {i : Instr} (h : Succeeds s i u) (hs : s.FaultInv)
    (hl : s.legal i = true) (hi : i ≠ .reset) : u.FaultInv := by
  rwa [State.FaultInv, h.faults_eq hi, h.st_eq hl, (State.stAfter_fault hl hi).1]

theorem Succeeds.seqInv {s u : State} {i : Instr} (h : Succeeds s i u) (hs : s.SeqInv)
    (hu : u.RunModel) (hl : s.legal i = true) (hi : i ≠ .reset) : u.SeqInv := by
  obtain ⟨hflush, -⟩ := hs
  obtain ⟨-, hrun⟩ := hu
  refine ⟨fun hf => hflush ?_, hrun⟩
  rw [h.st_eq hl] at hf
  exact (State.stAfter_fault hl hi).2 hf

theorem Succeeds.intervalInv {s u : State} {i : Instr} (h : Succeeds s i u) (hs : s.Boundary)
    (hl : s.legal i = true) : u.IntervalInv := by
  obtain ⟨-, -, hiv, -⟩ := id hs
  cases h
  case reset => exact State.intervalInv_of_idle rfl (Nat.zero_le _)
  case minit m =>
    refine State.intervalInv_of_idle rfl (hiv.eoscnt_le fun hf => ?_)
    simp [State.legal, hf] at hl
  case getprob x _ =>
    have hst : s.st = .encReady := by simpa [State.legal] using hl
    obtain ⟨hset, henc⟩ := hiv.encodes (by rw [hst]; rfl)
    exact State.intervalInv_of_encoding rfl hset henc
  case getsym k _ _ =>
    have hst : s.st = .decCount := by simpa [State.legal] using hl
    obtain ⟨hset, hdec⟩ := hiv.decodes (by rw [hst]; rfl)
    exact State.intervalInv_of_decoding rfl hset hdec
  case getcnt n _ =>
    have hst : s.st = .decReady := by simpa [State.legal] using hl
    obtain ⟨hset, hdec⟩ := hiv.decodes (by rw [hst]; rfl)
    exact State.intervalInv_of_decoding rfl hset hdec
  case ebegin =>
    exact State.intervalInv_of_encoding rfl Interval.begin_settled ⟨Nat.zero_le _, rfl, rfl⟩
  case dsymOfEos _ =>
    have hst : s.st = .decRange := by simpa [State.legal] using hl
    obtain ⟨hset, -⟩ := hiv.decodes (by rw [hst]; rfl)
    exact State.intervalInv_of_done rfl hset.low_le_high (hiv.eoscnt_le (by simp [hst]))
  case effect hx => exact State.effect_ensures hs hl hx
  all_goals exact hiv

/-- `GETPROB` and `GETSYM` latch the range of their symbol (R26). -/
theorem State.setRangeLatch_rangeLatched {s : State} {k : Nat} (q : Seq) (hk : k < Config.numSymbols)
    (hf : s.rangeFits k = true) :
    ((s.setLatch (s.rangeLatch k)).setSt q).latch.sym.toNat ≤ 256 ∧
      ((s.setLatch (s.rangeLatch k)).setSt q).rangeLatched := by
  obtain ⟨hsym, hrl, hrh⟩ := State.rangeLatch_toNat hk hf
  refine ⟨hsym.trans_le (Nat.le_of_lt_succ hk), ?_, ?_, rfl⟩
  · rw [State.setSt_latch, State.setLatch_latch, hsym, hrl]
    rfl
  · rw [State.setSt_latch, State.setLatch_latch, hsym, hrh]
    rfl

theorem State.latchInv_of_getsym {s : State} {k : Nat} (hs : s.LatchInv) (hst : s.st = .decCount)
    (hk : CountTable.symbolAt s.model.cnt s.latch.sv.toNat = some k) (hf : s.rangeFits k = true) :
    ((s.setLatch (s.rangeLatch k)).setSt .decRange).LatchInv := by
  obtain ⟨hlt, hlow, hhigh⟩ := CountTable.symbolAt_some _ _ _ hk
  obtain ⟨-, hrl, hrh⟩ := State.rangeLatch_toNat hlt hf
  obtain ⟨hsym, hr⟩ := State.setRangeLatch_rangeLatched .decRange hlt hf
  exact State.latchInv_of_decRange rfl hsym hr (hrl.trans_le hlow) (hhigh.trans_eq hrh.symm)
    (hs.of_decCount hst)

theorem State.latchInv_of_getcnt {s : State} {n : Nat} (hs : s.LatchInv) (hn : s.scaled = some n) :
    ((s.setLatch { s.latch with sv := BitVec.ofNat 15 n }).setSt .decCount).LatchInv := by
  obtain ⟨hlt, hsc⟩ := State.scaled_some hn
  have hn15 : (BitVec.ofNat 15 n).toNat = n := by
    rw [BitVec.toNat_ofNat]
    exact Nat.mod_eq_of_lt (by omega)
  refine State.latchInv_of_decCount rfl hs.sym_le (hn15.trans_lt hlt) ?_
  rw [State.svScaled, State.setSt_latch, State.setLatch_latch, hn15]
  exact hsc

/-- The effects with channel requests end in states that use no latch. -/
theorem State.stAfter_effect_usesLatch {s : State} {i : Instr} {x : Flow Unit} (h : s.effect i = some x) :
    (s.stAfter i).usesLatch = false := by
  rcases State.effect_eq_some_cases h with rfl | rfl | rfl | rfl
  case inl | inr.inr.inr =>
    simp only [State.stAfter]
    split <;> rfl
  all_goals rfl

theorem Succeeds.latchInv {s u : State} {i : Instr} (h : Succeeds s i u) (hs : s.LatchInv)
    (hw : i.wellFormed = true) (hl : s.legal i = true) : u.LatchInv := by
  have hst := h.st_eq hl
  cases h
  case nop | rdreg | rdcnt => exact hs
  case reset => exact State.latchInv_of_sym (Nat.zero_le _) rfl
  case getprob x hf =>
    obtain ⟨hsym, hr⟩ := State.setRangeLatch_rangeLatched .encRange (symbolOk_lt hw) hf
    exact State.latchInv_of_encRange rfl hsym hr
  case getsym k hk hf => exact State.latchInv_of_getsym hs (by simpa [State.legal] using hl) hk hf
  case getcnt n hn => exact State.latchInv_of_getcnt hs hn
  case update x =>
    simp only [State.legal, Bool.and_eq_true, Bool.or_eq_true, decide_eq_true_eq] at hl
    obtain ⟨hq | hq, -⟩ := hl <;> exact State.latchInv_of_sym hs.sym_le (by rw [State.setModel_st, hq]; rfl)
  case effect hx =>
    obtain ⟨hlatch, -⟩ := State.effect_sameRun hx
    exact State.latchInv_of_sym (hlatch ▸ hs.sym_le) (hst ▸ State.stAfter_effect_usesLatch hx)
  case ldcnt x v n _ _ _ => exact State.latchInv_of_sym hs.sym_le (by rw [hst]; rfl)
  all_goals exact State.latchInv_of_sym hs.sym_le rfl

theorem Succeeds.boundary {s u : State} {i : Instr} (h : Succeeds s i u) (hs : s.Boundary)
    (hw : i.wellFormed = true) (hl : s.legal i = true) : u.Boundary := by
  by_cases hi : i = .reset
  · subst hi
    cases h with
    | reset => exact s.resetRegs_boundary
    | effect _ _ hx => cases hx
  · obtain ⟨htable, hmodel, -, hlatch, hseq, hfault⟩ := id hs
    have hrun := h.runModel ⟨hmodel, hseq.2⟩ hw hl
    exact ⟨h.tableInv htable hw, hrun.1, h.intervalInv hs hl, h.latchInv hlatch hw hl,
      h.seqInv hseq hrun hl hi, h.faultInv hfault hl hi⟩

/-! ### A command, a word, a step -/

theorem exec_keeps_inv {i : Instr} {s t : State} (hs : s.Boundary) (h : exec i s = .next t) : t.Inv := by
  cases exec_ends h with
  | fault k h =>
    subst h
    exact (hs.of_fault (State.raise_st ..) rfl rfl (State.raise_faults ..)).inv
  | midFault k u hu h =>
    subst h
    obtain ⟨hlatch, hmodel, hfaults, -⟩ := hu
    exact (hs.of_fault (State.raiseMid_st ..) hlatch hmodel
      (congrArg (FaultRegs.record · k (encode i)) hfaults)).inv
  | waits hl hx =>
    obtain ⟨-, hm, -⟩ := State.effect_sameRun hx
    have hwait : t.chan.waiting ≠ none := State.effect_ensures hs hl hx
    exact ⟨hs.inv.1.congr hm, fun h => absurd h hwait⟩
  | success u d hw hl hu h =>
    subst h
    exact (hu.boundary hs hw hl).inv

theorem runWord_keeps_inv {w : Word} {s t : State} (hs : s.Boundary) (h : runWord w s = .next t) :
    t.Inv := by
  rcases runWord_cases h with ⟨_, -, rfl⟩ | ⟨i, -, h⟩
  · exact (hs.of_fault (State.raise_st ..) rfl rfl (State.raise_faults ..)).inv
  · exact exec_keeps_inv hs h

/-- Settles O57: a word run at a command boundary ends at one, or in a wait with the table in form. -/
theorem stepKeepsInvariant : Obligations.StepKeepsInvariant := fun _ _ hs h =>
  step_keeps (T := State.TableInv) (B := State.Boundary) (fun _ h => h.1) (fun _ _ h => h)
    State.resetRegs_boundary (fun _ _ _ hs h => runWord_keeps_inv hs h) hs h

end Sys2Proof.Machine
end

section
/-! What the bit source's answers do to `ReadBit` (R72), an equation per answer. -/

namespace Sys2Proof.Machine

theorem State.readBit_bit (s : State) (b : Bool) (rest : List SourceAnswer)
    (h : s.chan.sourceAnswers = .bit b :: rest) :
    s.readBit = .goesOn b (s.setChan { s.chan with sourceAnswers := rest }) := by
  simp [State.readBit, h]

theorem State.readBit_fail (s : State) (rest : List SourceAnswer)
    (h : s.chan.sourceAnswers = .fail :: rest) :
    s.readBit = .raises .ioError (s.setChan { s.chan with sourceAnswers := rest }) := by
  simp [State.readBit, h]

theorem State.readBit_endOfStream_of_limit (s : State) (rest : List SourceAnswer)
    (h : s.chan.sourceAnswers = .endOfStream :: rest) (he : Config.eosLimit ≤ s.iv.eoscnt.toNat) :
    s.readBit = .raises .corruptStreamError (s.setChan { s.chan with sourceAnswers := rest }) := by
  simp [State.readBit, h, he]

theorem State.readBit_endOfStream (s : State) (rest : List SourceAnswer)
    (h : s.chan.sourceAnswers = .endOfStream :: rest) (he : s.iv.eoscnt.toNat < Config.eosLimit) :
    s.readBit =
      .goesOn false
        ((s.setChan { s.chan with sourceAnswers := rest }).setIv
          { s.iv with eoscnt := s.iv.eoscnt + 1#4 }) := by
  simp [State.readBit, h, Nat.not_le.mpr he]

theorem State.readBit_silent (s : State) (h : s.chan.sourceAnswers = []) :
    s.readBit = .waits (s.setChan { s.chan with waiting := some .readBit }) := by
  simp [State.readBit, h]

/-- Settles O45, by the five equations of `ReadBit`. -/
theorem readBitAnswers : Obligations.ReadBitAnswers := fun s rest =>
  ⟨fun b h => s.readBit_bit b rest h, fun h => s.readBit_fail rest h,
    fun h he => s.readBit_endOfStream_of_limit rest h he.ge,
    fun h he => s.readBit_endOfStream rest h he,
    fun h => ⟨_, s.readBit_silent h, rfl⟩⟩

end Sys2Proof.Machine
end

section
/-! Which command uses which channel (R73). A property of the state that a bit-out request keeps, the
encoder's effects keep; one that a bit-in request keeps, the decoder's do. -/

namespace Sys2Proof.Machine

section
variable {P : State → Prop} (hiv : ∀ t v, P t → P (t.setIv v)) (hst : ∀ t q, P t → P (t.setSt q))

/-! ### The effects of the encoder -/

section
variable (hsend : ∀ t e, P t → P (t.sendOut e).state)

include hsend

theorem State.emitTimes_keeps (n : Nat) (b : Bool) {s : State} (hs : P s) :
    P (State.emitTimes n b s).state := by
  induction n generalizing s with
  | zero => exact hs
  | succ n ih => exact Flow.andThen_state _ _ (hsend s _ hs) fun _ t ht => ih ht

include hiv

theorem renormE_keeps (n : Nat) {s : State} (hs : P s) : P (renormE n s).state := by
  induction n generalizing s with
  | zero => exact hs
  | succ n ih =>
    unfold renormE
    split
    · refine Flow.andThen_state _ _ ?_ fun _ t ht => ih ht
      refine Flow.andThen_state _ _ (hsend s _ hs) fun _ t ht => ?_
      exact Flow.andThen_state _ _ (State.emitTimes_keeps hsend _ _ ht) fun _ u hu => hiv u _ hu
    · split
      · refine Flow.andThen_state _ _ ?_ fun _ t ht => ih ht
        unfold State.deferBit
        split
        · exact hs
        · exact hiv s _ hs
      · exact hs

include hst

theorem State.encodeFrom_keeps {s : State} (hs : P s) : P s.encodeFrom.state :=
  Flow.andThen_state _ _ (renormE_keeps hiv hsend _ hs) fun _ t ht => hst t _ ht

theorem State.finishRun_keeps {s : State} (hs : P s) : P s.finishRun.state :=
  Flow.andThen_state _ _ (hsend _ _ (hst s _ hs)) fun _ _ ht =>
    Flow.andThen_state _ _ (State.emitTimes_keeps hsend _ _ ht) fun _ u hu =>
      Flow.andThen_state _ _ (hsend _ _ (hiv u _ hu)) fun _ v hv => hst v _ hv

end

/-! ### The effects of the decoder -/

section
variable (hread : ∀ t, P t → P t.readBit.state)

include hiv hread

theorem renormD_keeps (n : Nat) {s : State} (hs : P s) : P (renormD n s).state := by
  induction n generalizing s with
  | zero => exact hs
  | succ n ih =>
    unfold renormD
    split
    · exact Flow.andThen_state _ _ (hread _ (hiv s _ hs)) fun _ t ht => ih (hiv t _ ht)
    · split
      · exact Flow.andThen_state _ _ (hread _ (hiv s _ hs)) fun _ t ht => ih (hiv t _ ht)
      · exact hs

theorem fillCode_keeps (n : Nat) {s : State} (hs : P s) : P (fillCode n s).state := by
  induction n generalizing s with
  | zero => exact hs
  | succ n ih => exact Flow.andThen_state _ _ (hread s hs) fun _ t ht => ih (hiv t _ ht)

include hst

theorem State.decodeFrom_keeps {s : State} (hs : P s) : P s.decodeFrom.state :=
  Flow.andThen_state _ _ (renormD_keeps hiv hread _ hs) fun _ t ht => hst t _ ht

theorem State.beginDecode_keeps {s : State} (hs : P s) : P s.beginDecode.state :=
  Flow.andThen_state _ _ (fillCode_keeps hiv hread _ (hiv s _ hs)) fun _ t ht => hst t _ ht

end
end

/-! ### The two channels -/

/-- The bit-out channel is as it was: the events made and the answers to come. -/
def State.sameSink (s t : State) : Prop :=
  t.chan.events = s.chan.events ∧ t.chan.sinkAnswers = s.chan.sinkAnswers

/-- The bit-in channel is as it was: the answers to come. -/
def State.sameSource (s t : State) : Prop := t.chan.sourceAnswers = s.chan.sourceAnswers

theorem State.sendOut_sameSource (s : State) (e : OutEvent) : s.sameSource (s.sendOut e).state := by
  unfold State.sendOut
  split <;> rfl

theorem State.readBit_sameSink (s : State) : s.sameSink s.readBit.state := by
  unfold State.readBit
  split
  · exact ⟨rfl, rfl⟩
  · exact ⟨rfl, rfl⟩
  · exact ⟨rfl, rfl⟩
  · split <;> exact ⟨rfl, rfl⟩

theorem State.sameSource_trans {s t u : State} (h : s.sameSource t) (h' : t.sameSource u) :
    s.sameSource u := Eq.trans h' h

theorem State.sameSink_trans {s t u : State} (h : s.sameSink t) (h' : t.sameSink u) : s.sameSink u :=
  ⟨h'.1.trans h.1, h'.2.trans h.2⟩

/-- Of the effects, only the decoder's use the bit-in channel. -/
theorem State.effect_sameSource {s : State} {i : Instr} {x : Flow Unit} (h : s.effect i = some x)
    (hb : i ≠ .dbegin) (hd : i ≠ .dsym) : s.sameSource x.state := by
  have hsend (t : State) (e : OutEvent) (ht : s.sameSource t) : s.sameSource (t.sendOut e).state :=
    State.sameSource_trans ht (t.sendOut_sameSource e)
  rcases State.effect_eq_some_cases h with rfl | rfl | rfl | rfl
  · obtain ⟨b, -, rfl⟩ := Option.map_eq_some_iff.mp h
    exact State.encodeFrom_keeps (fun _ _ ht => ht) (fun _ _ ht => ht) hsend rfl
  · cases h
    exact State.finishRun_keeps (fun _ _ ht => ht) (fun _ _ ht => ht) hsend rfl
  · exact absurd rfl hb
  · exact absurd rfl hd

/-- Of the effects, only the encoder's use the bit-out channel. -/
theorem State.effect_sameSink {s : State} {i : Instr} {x : Flow Unit} (h : s.effect i = some x)
    (he : i ≠ .esym) (hf : i ≠ .efinish) : s.sameSink x.state := by
  have hread (t : State) (ht : s.sameSink t) : s.sameSink t.readBit.state :=
    State.sameSink_trans ht t.readBit_sameSink
  rcases State.effect_eq_some_cases h with rfl | rfl | rfl | rfl
  · exact absurd rfl he
  · exact absurd rfl hf
  · cases h
    exact State.beginDecode_keeps (fun _ _ ht => ht) (fun _ _ ht => ht) hread ⟨rfl, rfl⟩
  · simp only [State.effect] at h
    split at h
    · cases h
    · obtain ⟨b, -, rfl⟩ := Option.map_eq_some_iff.mp h
      exact State.decodeFrom_keeps (fun _ _ ht => ht) (fun _ _ ht => ht) hread ⟨rfl, rfl⟩

/-- The end of a command changes the channels by its response alone (R90). -/
theorem finish_chan {i : Instr} {d : Word} {x : Flow Unit} {t : State} (h : finish i d x = .next t) :
    ∃ r, t.chan = { x.state.chan with responses := r } := by
  rcases finish_next h with ⟨u, rfl, rfl⟩ | ⟨k, u, rfl, rfl⟩ | rfl
  · exact ⟨_, rfl⟩
  · exact ⟨_, rfl⟩
  · exact ⟨_, rfl⟩

/-- Settles O54: a command without a channel request moves the responses alone, and an effect uses the
channel of its own unit. -/
theorem channelUse : Obligations.ChannelUse := by
  intro i s t h
  cases exec_cases h with
  | illegal h => simp [h]
  | pre k hl hk h => simp [h]
  | quiet hw hl h =>
    obtain ⟨d, hc⟩ := h.answered
    simp [hc]
  | effect hl x hx h =>
    obtain ⟨r, hc⟩ := finish_chan h
    rw [hc]
    exact ⟨State.effect_sameSink hx, State.effect_sameSource hx⟩

end Sys2Proof.Machine
end

section
/-! The requests that the encoder's effects send, and what becomes of them when the sink fails or falls
silent (R70, R71, R143, R145, R146). -/

namespace Sys2Proof.Machine

/-! ### A part that sends a list of events -/

/-- From the channels `c` on, the part `x` requests the events `es` one by one and then goes on; the first
request that the sink does not take with `ok` ends it (R70, R71). -/
inductive Flow.Sends : Channels → List OutEvent → Flow Unit → Prop where
  | done {c : Channels} {t : State} (ht : t.chan = c) : Sends c [] (.goesOn () t)
  | ok {c : Channels} {e : OutEvent} {es : List OutEvent} {x : Flow Unit} {rest : List SinkAnswer}
      (h : c.sinkAnswers = .ok :: rest)
      (hx : Sends { c with sinkAnswers := rest, events := c.events ++ [e] } es x) : Sends c (e :: es) x
  | fail {c : Channels} {e : OutEvent} {t : State} {rest : List SinkAnswer} (es : List OutEvent)
      (h : c.sinkAnswers = .fail :: rest) (ht : t.chan = { c with sinkAnswers := rest }) :
      Sends c (e :: es) (.raises .ioError t)
  | silent {c : Channels} {e : OutEvent} {t : State} (es : List OutEvent) (h : c.sinkAnswers = [])
      (ht : t.chan = { c with waiting := some (.out e) }) : Sends c (e :: es) (.waits t)

theorem Flow.Sends.andThen {c : Channels} {es es' : List OutEvent} {x : Flow Unit}
    {f : Unit → State → Flow Unit} (hx : x.Sends c es)
    (hf : ∀ t, x = .goesOn () t → (f () t).Sends t.chan es') : (x.andThen f).Sends c (es ++ es') := by
  induction hx with
  | done ht => exact ht ▸ hf _ rfl
  | ok h _ ih => exact .ok h (ih hf)
  | fail es h ht => exact .fail _ h ht
  | silent es h ht => exact .silent _ h ht

/-- What a part writes outside the channels after its last request sends nothing. -/
theorem Flow.Sends.andThen_goesOn {c : Channels} {es : List OutEvent} {x : Flow Unit}
    {g : State → State} (hx : x.Sends c es) (hg : ∀ t, (g t).chan = t.chan) :
    (x.andThen fun _ t => .goesOn () (g t)).Sends c es := by
  simpa using hx.andThen (f := fun _ t => .goesOn () (g t)) fun t _ => .done (hg t)

/-- The request that fails is not made and ends the part; those before it stay made (R70, R223). -/
theorem Flow.Sends.raises_of_fail {c : Channels} {es : List OutEvent} {x : Flow Unit} {k : Nat}
    {rest : List SinkAnswer} (hx : x.Sends c es) (hk : k < es.length)
    (h : c.sinkAnswers = List.replicate k .ok ++ .fail :: rest) :
    ∃ t, x = .raises .ioError t ∧
      t.chan = { c with sinkAnswers := rest, events := c.events ++ es.take k } := by
  induction hx generalizing k with
  | done ht => cases hk
  | @ok c e es x _ hc _ ih =>
    cases k with
    | zero => simp [hc] at h
    | succ k =>
      obtain rfl : _ = List.replicate k .ok ++ .fail :: rest := by
        simpa [hc, List.replicate_succ] using h
      simpa using ih (Nat.lt_of_succ_lt_succ hk) rfl
  | fail es hc ht =>
    cases k with
    | zero =>
      obtain rfl : _ = rest := by simpa [hc] using h
      exact ⟨_, rfl, by simpa using ht⟩
    | succ k => simp [hc, List.replicate_succ] at h
  | silent es hc ht => simp [hc] at h

/-- The request without an answer holds the part; those before it stay made (R70). -/
theorem Flow.Sends.waits_of_silent {c : Channels} {es : List OutEvent} {x : Flow Unit} {k : Nat}
    (hx : x.Sends c es) (hk : k < es.length) (h : c.sinkAnswers = List.replicate k .ok) :
    ∃ t, x = .waits t ∧
      t.chan =
        { c with
          sinkAnswers := []
          events := c.events ++ es.take k
          waiting := some (.out es[k]) } := by
  induction hx generalizing k with
  | done ht => cases hk
  | @ok c e es x _ hc _ ih =>
    cases k with
    | zero => simp [hc] at h
    | succ k =>
      obtain rfl : _ = List.replicate k SinkAnswer.ok := by simpa [hc, List.replicate_succ] using h
      simpa using ih (Nat.lt_of_succ_lt_succ hk) rfl
  | fail es hc ht => cases k <;> simp [hc, List.replicate_succ] at h
  | silent es hc ht =>
    cases k with
    | zero => exact ⟨_, rfl, by simpa [hc] using ht⟩
    | succ k => simp [hc, List.replicate_succ] at h

/-! ### What the encoder's effects send -/

theorem State.sendOut_sends (s : State) (e : OutEvent) : (s.sendOut e).Sends s.chan [e] := by
  unfold State.sendOut
  split
  · next h => exact .silent [] h rfl
  · next h => exact .ok h (.done rfl)
  · next h => exact .fail [] h rfl

theorem State.emitTimes_sends (n : Nat) (b : Bool) (s : State) :
    (State.emitTimes n b s).Sends s.chan (List.replicate n (.emit b)) := by
  induction n generalizing s with
  | zero => exact .done rfl
  | succ n ih => exact (s.sendOut_sends _).andThen fun t _ => ih t

/-- The bit that `LOW` and `HIGH` share, then the pending complements (R143). -/
theorem State.emitTop_sends (s : State) :
    s.emitTop.Sends s.chan
      ((s.iv.low.getLsbD 15 :: List.replicate s.iv.pend.toNat (!s.iv.low.getLsbD 15)).map .emit) := by
  rw [List.map_cons, List.map_replicate]
  exact (s.sendOut_sends _).andThen fun t _ =>
    (State.emitTimes_sends _ _ t).andThen_goesOn fun _ => rfl

/-- With room in `PEND` an E3 step sends nothing (R143). -/
theorem State.deferBit_of_room {s : State} (h : s.iv.pend.toNat + 1 < 2 ^ 32) :
    s.deferBit = .goesOn () (s.setIv { s.iv.widen with pend := s.iv.pend + 1#32 }) := by
  have hne : s.iv.pend ≠ Config.maxPending := by
    intro he
    simp [he, Config.maxPending] at h
  simp [State.deferBit, hne]

theorem Interval.deferred_setPend (n : Nat) (v : Interval) (p : Word) :
    Interval.deferred n { v with pend := p } = Interval.deferred n v := by
  induction n generalizing v with
  | zero => rfl
  | succ n ih =>
    exact if_congr Iff.rfl rfl (if_congr Iff.rfl (congrArg Nat.succ (ih v.widen)) rfl)

/-- With room in `PEND` the encoder's loop sends the bits of its steps (R143). -/
theorem renormE_sends (n : Nat) (s : State) (hn : n < 2 ^ 32)
    (hp : s.iv.pend.toNat + Interval.deferred n s.iv < 2 ^ 32) :
    (renormE n s).Sends s.chan ((Interval.emitted n s.iv).map .emit) := by
  induction n generalizing s with
  | zero => exact .done rfl
  | succ n ih =>
    unfold renormE Interval.emitted
    unfold Interval.deferred at hp
    split
    · rw [List.map_append]
      refine s.emitTop_sends.andThen fun t ht => ?_
      have hiv : t.iv = { s.iv.shift with pend := 0#32 } := by
        simpa [ht, Flow.ensures] using s.emitTop_ensures
      have hpend : t.iv.pend.toNat = 0 := by rw [hiv]; rfl
      have hdef := (Interval.deferred_le_steps n t.iv).trans (Interval.steps_le n t.iv)
      rw [← hiv]
      exact ih t (by omega) (by omega)
    · split
      · next h12 h3 =>
        rw [if_neg h12, if_pos h3] at hp
        rw [State.deferBit_of_room (by omega), Flow.andThen_goesOn]
        refine ih (s.setIv { s.iv.widen with pend := s.iv.pend + 1#32 }) (by omega) ?_
        have hpend : (s.iv.pend + 1#32).toNat = s.iv.pend.toNat + 1 := by
          simp only [BitVec.toNat_add, BitVec.toNat_ofNat]
          omega
        rw [State.setIv_iv, Interval.deferred_setPend, hpend]
        omega
      · exact .done rfl

theorem State.encodeFrom_sends {s : State}
    (hp : s.iv.pend.toNat + Interval.deferred Config.width s.iv < 2 ^ 32) :
    s.encodeFrom.Sends s.chan ((Interval.emitted Config.width s.iv).map .emit) :=
  (renormE_sends Config.width s (by decide) hp).andThen_goesOn fun _ => rfl

theorem State.finishRun_sends (s : State) : s.finishRun.Sends s.chan s.finishEvents := by
  refine ((s.setSt .encFlush).sendOut_sends _).andThen
    (es' := List.replicate (s.iv.pend.toNat + 1) (.emit (!s.iv.low.getLsbD 14)) ++ [.flush])
    fun t _ => ?_
  refine (State.emitTimes_sends _ _ t).andThen fun u _ => ?_
  exact ((u.setIv { u.iv with pend := 0#32 }).sendOut_sends .flush).andThen_goesOn fun _ => rfl

theorem State.finishEvents_length (s : State) : s.finishEvents.length = s.iv.pend.toNat + 3 := by
  simp [State.finishEvents]

/-! ### Commands whose effect sends -/

/-- A command with channel requests that is legal and passes its own tests is its effect (R8). -/
theorem exec_of_effect {i : Instr} {s : State} {x : Flow Unit} (hl : s.legal i = true)
    (hx : s.effect i = some x) : exec i s = finish i 0 x := by
  rcases State.effect_eq_some_cases hx with rfl | rfl | rfl | rfl
  · obtain ⟨b, hb, rfl⟩ := Option.map_eq_some_iff.mp hx
    exact (guarded_legal _ _ _ rfl hl).trans (by rw [hb])
  · cases hx
    exact guarded_legal _ _ _ rfl hl
  · cases hx
    exact guarded_legal _ _ _ rfl hl
  · simp only [State.effect] at hx
    split at hx
    · cases hx
    · next he =>
      obtain ⟨b, hb, rfl⟩ := Option.map_eq_some_iff.mp hx
      exact (guarded_legal _ _ _ rfl hl).trans (by rw [if_neg he, hb])

/-- A fault raised in a run of a command's effect, as the statements describe it (R230, R232). -/
theorem State.raiseMid_faultedMid {s u : State} (k : FaultKind) (w : Word) (h : s.sameRun u)
    (hw : u.chan.waiting = s.chan.waiting) : s.faultedMid (u.raiseMid k w) k w := by
  obtain ⟨hlatch, hmodel, hfaults, -, hin, hresp⟩ := h
  refine ⟨hlatch, hmodel, rfl, ?_, ?_, hin, hw⟩
  · rw [State.raiseMid_faults, hfaults]
    exact s.faults.record_afterRaise k w
  · rw [State.raiseMid_chan, hresp]
    rfl

section
variable {i : Instr} {s : State} {x : Flow Unit} {es : List OutEvent} {k : Nat}
  (hl : s.legal i = true) (hx : s.effect i = some x) (hes : x.Sends s.chan es) (hk : k < es.length)

include hl hx hes hk

/-- R223, R232: a sink that fails a request of a command raises `IOError` in mid-command. -/
theorem exec_of_sink_fail {rest : List SinkAnswer}
    (h : s.chan.sinkAnswers = List.replicate k .ok ++ .fail :: rest) :
    ∃ t, exec i s = .next t ∧ s.faultedMid t .ioError (encode i) ∧ t.chan.sinkAnswers = rest ∧
      t.chan.sourceAnswers = s.chan.sourceAnswers ∧ t.chan.events = s.chan.events ++ es.take k := by
  obtain ⟨u, rfl, hu⟩ := hes.raises_of_fail hk h
  refine ⟨u.raiseMid .ioError (encode i), exec_of_effect hl hx,
    State.raiseMid_faultedMid _ _ (State.effect_sameRun hx) ?_, ?_, ?_, ?_⟩ <;> simp [hu]

/-- R70, R71: a sink that does not answer a request of a command holds the core. -/
theorem exec_of_sink_silent (h : s.chan.sinkAnswers = List.replicate k .ok) :
    ∃ t e, exec i s = .next t ∧ t.chan.waiting = some (.out e) ∧
      t.chan.responses = s.chan.responses ∧
      t.chan.events ++ [e] = s.chan.events ++ es.take (k + 1) ∧
      ∀ (w : Word) (ins : List HostInput), t.chan.inputs = .command w :: ins → step t = .next t := by
  obtain ⟨t, rfl, ht⟩ := hes.waits_of_silent hk h
  have hwait : t.chan.waiting = some (.out es[k]) := by simp [ht]
  refine ⟨t, es[k], exec_of_effect hl hx, hwait, by simp [ht], by simp [ht], fun w ins hin => ?_⟩
  exact step_of_waiting hin (fun _ _ => nofun) (hwait ▸ Option.some_ne_none _)

end

theorem State.effect_esym {s : State} {nl nh : Bound} (hn : s.narrowed = some (nl, nh)) :
    s.effect .esym = some (s.setBounds nl nh).encodeFrom := by
  simp [State.effect, hn]

/-- Settles O42: `EFINISH` sends its events and `ESYM` the bits of its steps, and a request that fails ends
either. -/
theorem sinkFailureIsIoError : Obligations.SinkFailureIsIoError := by
  refine ⟨fun s k rest hst hk h => ?_, fun s nl nh k rest hst hn hp hk h => ?_⟩
  · exact exec_of_sink_fail (by simp [State.legal, hst]) rfl s.finishRun_sends
      (s.finishEvents_length ▸ hk) h
  · rw [List.map_take]
    exact exec_of_sink_fail (by simp [State.legal, hst]) (State.effect_esym hn)
      (State.encodeFrom_sends (s := s.setBounds nl nh) hp) (hk.trans_eq (List.length_map _).symm) h

/-- Settles O43: as for O42, and a request without an answer holds either. -/
theorem silentSinkHoldsTheCore : Obligations.SilentSinkHoldsTheCore := by
  refine ⟨fun s k hst hk h => ?_, fun s nl nh k hst hn hp hk h => ?_⟩
  · exact exec_of_sink_silent (by simp [State.legal, hst]) rfl s.finishRun_sends
      (s.finishEvents_length ▸ hk) h
  · rw [List.map_take]
    exact exec_of_sink_silent (by simp [State.legal, hst]) (State.effect_esym hn)
      (State.encodeFrom_sends (s := s.setBounds nl nh) hp) (hk.trans_eq (List.length_map _).symm) h

end Sys2Proof.Machine
end

section
/-! SUPPORT. The decoder on the word of a command (R81 to R89): it reads each field that the encoder
wrote. With `encode_of_decode` a command that meets its operand constraint has exactly one word. -/

namespace Sys2Proof

theorem opField_encode (i : Instr) : opField (encode i) = i.opcode.toNat :=
  congrArg BitVec.toNat (Laws.OpcodeField.of_append i.opcode i.operandBits)

/-- A field below the opcode is a field of the operand bits. -/
theorem extract_encode (i : Instr) {start len : Nat} (h : start + len ≤ 28) :
    (encode i).extractLsb' start len = i.operandBits.extractLsb' start len :=
  BitVec.extractLsb'_append_eq_of_add_le h

/-- Format S (R84). -/
theorem decodeS_encode {mk : Symbol → Instr} {x : Symbol} (hb : (mk x).operandBits = 0#19 ++ x)
    (hx : symbolOk x = true) : decodeS (encode (mk x)) mk = .instr (mk x) := by
  have hz : (encode (mk x)).extractLsb' 9 19 = 0#19 := by
    rw [extract_encode _ (by decide), hb]
    exact BitVec.extractLsb'_append_eq_left
  have hf : symbolField (encode (mk x)) = x := by
    rw [symbolField, extract_encode _ (by decide), hb]
    exact BitVec.extractLsb'_append_eq_right
  rw [decodeS_eq_instr, hf]
  exact ⟨hz, hx, rfl⟩

/-- Format V (R85): every count decodes. -/
theorem decodeV_encode {x : Symbol} (v : Count) (hx : symbolOk x = true) :
    decodeV (encode (.ldcnt x v)) = .instr (.ldcnt x v) := by
  have hz : (encode (.ldcnt x v)).extractLsb' 24 4 = 0#4 := by
    rw [extract_encode _ (by decide), Instr.operandBits, BitVec.extractLsb'_append_eq_of_le (by decide)]
    exact BitVec.extractLsb'_append_eq_left
  have hs : symbolField (encode (.ldcnt x v)) = x := by
    rw [symbolField, extract_encode _ (by decide)]
    exact BitVec.extractLsb'_append_eq_right
  have hv : countField (encode (.ldcnt x v)) = v := by
    rw [countField, extract_encode _ (by decide), Instr.operandBits,
      BitVec.extractLsb'_append_eq_of_le (by decide)]
    exact BitVec.extractLsb'_append_eq_right
  rw [decodeV_eq_instr, hs, hv]
  exact ⟨hz, hx, rfl⟩

/-- Format R (R86). -/
theorem decodeR_encode {r : RegNo} (hr : registerOk r = true) :
    decodeR (encode (.rdreg r)) = .instr (.rdreg r) := by
  have hz : (encode (.rdreg r)).extractLsb' 5 23 = 0#23 := by
    rw [extract_encode _ (by decide)]
    exact BitVec.extractLsb'_append_eq_left
  have hf : registerField (encode (.rdreg r)) = r := by
    rw [registerField, extract_encode _ (by decide)]
    exact BitVec.extractLsb'_append_eq_right
  rw [decodeR_eq_instr, hf]
  exact ⟨hz, hr, rfl⟩

theorem decode_encode {i : Instr} (hi : i.wellFormed = true) : decode (encode i) = .instr i := by
  unfold decode
  rw [opField_encode]
  cases i with
  | nop | reset | getsym | ebegin | esym | efinish | dbegin | getcnt | dsym => rfl
  | minit m => cases m <;> rfl
  | ldcnt x v => exact decodeV_encode v hi
  | rdcnt x | getprob x | update x => exact decodeS_encode rfl hi
  | rdreg r => exact decodeR_encode hi

theorem decode_eq_instr_iff {w : Word} {i : Instr} :
    decode w = .instr i ↔ encode i = w ∧ i.wellFormed = true := by
  refine ⟨fun h => ⟨encode_of_decode h, decode_wellFormed h⟩, ?_⟩
  rintro ⟨rfl, hi⟩
  exact decode_encode hi

/-- Settles O1: the decoder reads the fields that the encoder wrote, and a word is made of its fields. -/
theorem decodeOfEncode : Obligations.DecodeOfEncode :=
  ⟨fun _ => decode_encode, fun _ _ h => ⟨decode_wellFormed h, encode_of_decode h⟩⟩

end Sys2Proof
end

section
/-! SUPPORT. The opcode map (R88): a test of a word under a mask that keeps its high bits says what those
bits are, so a row's mask, match and operand fields fix the word. -/

namespace Sys2Proof

/-- A mask of the `v` high bits keeps exactly the part above bit `n`. -/
theorem and_highMask_eq_iff {v n : Nat} {hi : BitVec v} {w : BitVec (v + n)} :
    w &&& (BitVec.allOnes v ++ 0#n) = hi ++ 0#n ↔ hi = w.extractLsb' n v := by
  have hw : w &&& (BitVec.allOnes v ++ 0#n) = w.extractLsb' n v ++ 0#n := by
    conv_lhs => rw [← BitVec.extractLsb'_append_extractLsb' (x := w)]
    rw [BitVec.and_append, BitVec.and_allOnes, BitVec.and_zero]
  rw [hw, BitVec.append_left_inj, eq_comm]

/-- Two parts make the word exactly when they are its fields. -/
theorem append_eq_iff_extract {v n : Nat} {hi : BitVec v} {lo : BitVec n} {w : BitVec (v + n)} :
    hi ++ lo = w ↔ hi = w.extractLsb' n v ∧ w.extractLsb' 0 n = lo := by
  constructor
  · rintro rfl
    exact ⟨BitVec.extractLsb'_append_eq_left.symm, BitVec.extractLsb'_append_eq_right⟩
  · rintro ⟨rfl, rfl⟩
    exact BitVec.extractLsb'_append_extractLsb'

theorem append_eq_iff_highMask {v n : Nat} {hi : BitVec v} {lo : BitVec n} {w : BitVec (v + n)} :
    hi ++ lo = w ↔ w &&& (BitVec.allOnes v ++ 0#n) = hi ++ 0#n ∧ w.extractLsb' 0 n = lo := by
  rw [append_eq_iff_extract, and_highMask_eq_iff]

/-- A row without an operand: the mask keeps the whole word. -/
theorem decode_eq_iff_whole {w : Word} {i : Instr} (hi : i.wellFormed = true) :
    decode w = .instr i ↔ w &&& 0xFFFFFFFF#32 = encode i := by
  have hw : w &&& 0xFFFFFFFF#32 = w := BitVec.and_allOnes
  rw [decode_eq_instr_iff, hw, eq_comm]
  exact and_iff_left hi

/-- A row with a symbol operand (R84). -/
theorem decode_eq_iff_symbolRow {w : Word} {mk : Symbol → Instr} {s : Symbol} {op : BitVec 4}
    (he : encode (mk s) = op ++ (0#19 ++ s)) (hs : (mk s).wellFormed = symbolOk s) :
    decode w = .instr (mk s) ↔
      w &&& 0xFFFFFE00#32 = (op ++ 0#19) ++ 0#9 ∧ w.extractLsb' 0 9 = s ∧ s.toNat ≤ 256 := by
  have hw : encode (mk s) = w ↔
      w &&& 0xFFFFFE00#32 = (op ++ 0#19) ++ 0#9 ∧ w.extractLsb' 0 9 = s := by
    rw [he, BitVec.append_assoc']
    exact append_eq_iff_highMask (v := 23) (n := 9)
  rw [decode_eq_instr_iff, hw, hs, symbolOk, decide_eq_true_iff, and_assoc]

theorem decode_eq_minit_iff {w : Word} {m : Mode} :
    decode w = .instr (.minit m) ↔
      w &&& 0xFFFFFFFE#32 = 0x20000000#32 ∧ w.extractLsb' 0 1 = m.bit := by
  have he : encode (.minit m) = (0x2#4 ++ 0#27) ++ m.bit := BitVec.append_assoc'
  have hw : encode (.minit m) = w ↔
      w &&& 0xFFFFFFFE#32 = 0x20000000#32 ∧ w.extractLsb' 0 1 = m.bit := by
    rw [he]
    exact append_eq_iff_highMask (v := 31) (n := 1)
  rw [decode_eq_instr_iff, hw]
  exact and_iff_left rfl

theorem decode_eq_rdreg_iff {w : Word} {r : RegNo} :
    decode w = .instr (.rdreg r) ↔
      w &&& 0xFFFFFFE0#32 = 0xE0000000#32 ∧ w.extractLsb' 0 5 = r ∧ r.toNat ≤ 14 := by
  have he : encode (.rdreg r) = (0xE#4 ++ 0#23) ++ r := BitVec.append_assoc'
  have hw : encode (.rdreg r) = w ↔
      w &&& 0xFFFFFFE0#32 = 0xE0000000#32 ∧ w.extractLsb' 0 5 = r := by
    rw [he]
    exact append_eq_iff_highMask (v := 27) (n := 5)
  rw [decode_eq_instr_iff, hw, Instr.wellFormed, registerOk, decide_eq_true_iff, and_assoc]

theorem decode_eq_ldcnt_iff {w : Word} {s : Symbol} {v : Count} :
    decode w = .instr (.ldcnt s v) ↔
      w &&& 0xFF000000#32 = 0x30000000#32 ∧ w.extractLsb' 0 9 = s ∧ w.extractLsb' 9 15 = v ∧
        s.toNat ≤ 256 := by
  have he : encode (.ldcnt s v) = (0x3#4 ++ 0#4) ++ (v ++ s) := by
    rw [encode, Instr.operandBits, BitVec.append_assoc]
    exact BitVec.append_assoc'
  have hw : encode (.ldcnt s v) = w ↔ w &&& 0xFF000000#32 = 0x30000000#32 ∧
      w.extractLsb' 0 9 = s ∧ w.extractLsb' 9 15 = v := by
    rw [he]
    refine (append_eq_iff_highMask (v := 8) (n := 24)).trans (and_congr_right fun _ => ?_)
    rw [eq_comm, append_eq_iff_extract, ← operandBits_eq_append (a := 15) (b := 9),
      BitVec.extractLsb'_append_eq_left, BitVec.extractLsb'_append_eq_right, eq_comm, and_comm]
  rw [decode_eq_instr_iff, hw, Instr.wellFormed, symbolOk, decide_eq_true_iff, and_assoc, and_assoc]

end Sys2Proof

namespace Sys2Proof.Machine

/-- Settles O2: each row from the shape of its operand, and a word of no row from what a word can do. -/
theorem opcodeMapSelectsRow : Obligations.OpcodeMapSelectsRow := fun w =>
  ⟨decode_eq_iff_whole rfl, decode_eq_iff_whole rfl, fun _ => decode_eq_minit_iff,
    fun _ _ => decode_eq_ldcnt_iff,
    fun _ => decode_eq_iff_symbolRow (mk := .rdcnt) (op := 0x4#4) rfl rfl,
    fun _ => decode_eq_iff_symbolRow (mk := .getprob) (op := 0x5#4) rfl rfl, decode_eq_iff_whole rfl,
    fun _ => decode_eq_iff_symbolRow (mk := .update) (op := 0x7#4) rfl rfl, decode_eq_iff_whole rfl,
    decode_eq_iff_whole rfl, decode_eq_iff_whole rfl, decode_eq_iff_whole rfl,
    decode_eq_iff_whole rfl, decode_eq_iff_whole rfl, fun _ => decode_eq_rdreg_iff,
    fun hno s => (runWord_command_or_faultedPre w s).resolve_left fun ⟨i, _, hd, _⟩ => hno i hd⟩

end Sys2Proof.Machine
end

section
/-! SUPPORT. The illegal words (R93), format by format, and the refusal of a count by its value. -/

namespace Sys2Proof

theorem decodeN_illegal_iff {w : Word} {i : Instr} :
    (∃ why, decodeN w i = .illegal why) ↔ w.extractLsb' 0 28 ≠ 0#28 := by
  unfold decodeN
  split <;> simp [*]

theorem decodeM_illegal_iff {w : Word} :
    (∃ why, decodeM w = .illegal why) ↔ w.extractLsb' 1 27 ≠ 0#27 := by
  unfold decodeM
  split <;> simp [*]

theorem decodeS_illegal_iff {w : Word} {mk : Symbol → Instr} :
    (∃ why, decodeS w mk = .illegal why) ↔
      w.extractLsb' 9 19 ≠ 0#19 ∨ 256 < (w.extractLsb' 0 9).toNat := by
  rw [← not_le, ← decide_eq_true_iff (p := _ ≤ 256)]
  unfold decodeS symbolOk symbolField
  split
  · simp [*]
  · split <;> simp_all

theorem decodeV_illegal_iff {w : Word} :
    (∃ why, decodeV w = .illegal why) ↔
      w.extractLsb' 24 4 ≠ 0#4 ∨ 256 < (w.extractLsb' 0 9).toNat := by
  rw [← not_le, ← decide_eq_true_iff (p := _ ≤ 256)]
  unfold decodeV symbolOk symbolField
  split
  · simp [*]
  · split <;> simp_all

theorem decodeR_illegal_iff {w : Word} :
    (∃ why, decodeR w = .illegal why) ↔
      w.extractLsb' 5 23 ≠ 0#23 ∨ 14 < (w.extractLsb' 0 5).toNat := by
  rw [← not_le, ← decide_eq_true_iff (p := _ ≤ 14)]
  unfold decodeR registerOk registerField
  split
  · simp [*]
  · split <;> simp_all

theorem decode_illegal_iff {w : Word} :
    (∃ why, decode w = .illegal why) ↔
      (opField w = 0xF ∨
        (opField w ∈ [0x0, 0x1, 0x6, 0x8, 0x9, 0xA, 0xB, 0xC, 0xD] ∧ w.extractLsb' 0 28 ≠ 0#28) ∨
        (opField w = 0x2 ∧ w.extractLsb' 1 27 ≠ 0#27) ∨
        (opField w = 0x3 ∧ (w.extractLsb' 24 4 ≠ 0#4 ∨ 256 < (w.extractLsb' 0 9).toNat)) ∨
        (opField w ∈ [0x4, 0x5, 0x7] ∧
          (w.extractLsb' 9 19 ≠ 0#19 ∨ 256 < (w.extractLsb' 0 9).toNat)) ∨
        (opField w = 0xE ∧ (w.extractLsb' 5 23 ≠ 0#23 ∨ 14 < (w.extractLsb' 0 5).toNat))) := by
  unfold decode
  split
  case h_1 ho | h_2 ho | h_7 ho | h_9 ho | h_10 ho | h_11 ho | h_12 ho | h_13 ho | h_14 ho =>
    rw [decodeN_illegal_iff, ho]
    simp
  case h_3 ho =>
    rw [decodeM_illegal_iff, ho]
    simp
  case h_4 ho =>
    rw [decodeV_illegal_iff, ho]
    simp
  case h_5 ho | h_6 ho | h_8 ho =>
    rw [decodeS_illegal_iff, ho]
    simp
  case h_15 ho =>
    rw [decodeR_illegal_iff, ho]
    simp
  case h_16 =>
    have hlt : opField w < 16 := (w.extractLsb' 28 4).isLt
    simp only [imp_false] at *
    have ho : opField w = 0xF := by omega
    simp [ho]

end Sys2Proof

namespace Sys2Proof.Machine

/-- `LDCNT` refuses a count of 0 and one above the ceiling by its value alone (R112, R228). -/
theorem exec_ldcnt_of_count_refused {x : Symbol} {v : Count} {s : State}
    (hx : (Instr.ldcnt x v).wellFormed = true) (hl : s.legal (.ldcnt x v) = true)
    (hv : v = 0#15 ∨ Config.ceiling < v.toNat) :
    exec (.ldcnt x v) s = .next (s.raise .modelError (encode (.ldcnt x v))) := by
  refine (guarded_legal _ _ _ hx hl).trans ?_
  split
  · rfl
  · next h0 => rw [if_pos (hv.resolve_left h0), faultPre]

/-- Settles O3: the decoder's refusals are those of the five formats and the reserved opcode, and a refused
word raises in whatever state it meets. -/
theorem illegalWordsFault : Obligations.IllegalWordsFault := by
  refine ⟨fun w => decode_illegal_iff, ?_, fun s v hs => decode_encode (decide_eq_true hs), ?_⟩
  · rintro w s rest ⟨why, hd⟩ hin hready
    exact ⟨_, (step_of_command hin hready).trans (runWord_of_illegal _ hd), State.raise_faultedPre _ _ _⟩
  · intro x v s hx hst hvalid hmode hv
    have hw : (Instr.ldcnt x v).wellFormed = true := decide_eq_true hx
    have hl : s.legal (.ldcnt x v) = true := by simp [State.legal, hst, hvalid, hmode]
    exact ⟨_, (runWord_of_instr s (decode_encode hw)).trans (exec_ldcnt_of_count_refused hw hl hv),
      s.raise_faultedPre _ _⟩

/-- Settles O4: the decoder runs on the words of the table. -/
theorem workedEncodings : Obligations.WorkedEncodings := by
  unfold Obligations.WorkedEncodings
  decide

end Sys2Proof.Machine
end

section
/-! One response for each command (R90). The state shows a wait exactly where a part of a command waits
(R70, R72), so a command ends with its response or in a wait without one. -/

namespace Sys2Proof.Machine

/-! ### A wait shows in the state -/

/-- The state in which the part ends shows a request exactly if the part waits (log 4). -/
def Flow.showsWait {α : Type} : Flow α → Prop
  | .goesOn _ s => s.chan.waiting = none
  | .raises _ s => s.chan.waiting = none
  | .waits s => s.chan.waiting ≠ none

theorem Flow.showsWait_andThen {α β : Type} {x : Flow α} {f : α → State → Flow β} (hx : x.showsWait)
    (hf : ∀ a s, s.chan.waiting = none → (f a s).showsWait) : (x.andThen f).showsWait := by
  cases x with
  | goesOn a s => exact hf a s hx
  | raises k s => exact hx
  | waits s => exact hx

theorem State.sendOut_showsWait {s : State} (hs : s.chan.waiting = none) (e : OutEvent) :
    (s.sendOut e).showsWait := by
  unfold State.sendOut
  split
  · exact Option.some_ne_none _
  · exact hs
  · exact hs

theorem State.readBit_showsWait {s : State} (hs : s.chan.waiting = none) : s.readBit.showsWait := by
  unfold State.readBit
  split
  · exact Option.some_ne_none _
  · exact hs
  · exact hs
  · split <;> exact hs

theorem State.emitTimes_showsWait (n : Nat) (b : Bool) {s : State} (hs : s.chan.waiting = none) :
    (State.emitTimes n b s).showsWait := by
  induction n generalizing s with
  | zero => exact hs
  | succ n ih => exact Flow.showsWait_andThen (State.sendOut_showsWait hs _) fun _ _ ht => ih ht

theorem State.emitTop_showsWait {s : State} (hs : s.chan.waiting = none) : s.emitTop.showsWait :=
  Flow.showsWait_andThen (State.sendOut_showsWait hs _) fun _ _ ht =>
    Flow.showsWait_andThen (State.emitTimes_showsWait _ _ ht) fun _ _ hu => hu

theorem State.deferBit_showsWait {s : State} (hs : s.chan.waiting = none) : s.deferBit.showsWait := by
  unfold State.deferBit
  split <;> exact hs

theorem renormE_showsWait (n : Nat) {s : State} (hs : s.chan.waiting = none) :
    (renormE n s).showsWait := by
  induction n generalizing s with
  | zero => exact hs
  | succ n ih =>
    unfold renormE
    split
    · exact Flow.showsWait_andThen (State.emitTop_showsWait hs) fun _ _ ht => ih ht
    · split
      · exact Flow.showsWait_andThen (State.deferBit_showsWait hs) fun _ _ ht => ih ht
      · exact hs

theorem renormD_showsWait (n : Nat) {s : State} (hs : s.chan.waiting = none) :
    (renormD n s).showsWait := by
  induction n generalizing s with
  | zero => exact hs
  | succ n ih =>
    unfold renormD
    split
    · exact Flow.showsWait_andThen (State.readBit_showsWait hs) fun _ _ ht => ih ht
    · split
      · exact Flow.showsWait_andThen (State.readBit_showsWait hs) fun _ _ ht => ih ht
      · exact hs

theorem fillCode_showsWait (n : Nat) {s : State} (hs : s.chan.waiting = none) :
    (fillCode n s).showsWait := by
  induction n generalizing s with
  | zero => exact hs
  | succ n ih => exact Flow.showsWait_andThen (State.readBit_showsWait hs) fun _ _ ht => ih ht

theorem State.finishRun_showsWait {s : State} (hs : s.chan.waiting = none) : s.finishRun.showsWait :=
  Flow.showsWait_andThen (State.sendOut_showsWait (s := s.setSt .encFlush) hs _) fun _ _ ht =>
    Flow.showsWait_andThen (State.emitTimes_showsWait _ _ ht) fun _ u hu =>
      Flow.showsWait_andThen
        (State.sendOut_showsWait (s := u.setIv { u.iv with pend := 0#32 }) hu _) fun _ _ hv => hv

theorem State.effect_showsWait {s : State} {i : Instr} {x : Flow Unit} (hs : s.chan.waiting = none)
    (h : s.effect i = some x) : x.showsWait := by
  rcases State.effect_eq_some_cases h with rfl | rfl | rfl | rfl
  · obtain ⟨b, -, rfl⟩ := Option.map_eq_some_iff.mp h
    exact Flow.showsWait_andThen (renormE_showsWait _ hs) fun _ _ ht => ht
  · cases h
    exact State.finishRun_showsWait hs
  · cases h
    exact Flow.showsWait_andThen (fillCode_showsWait _ hs) fun _ _ ht => ht
  · simp only [State.effect] at h
    split at h
    · cases h
    · obtain ⟨b, -, rfl⟩ := Option.map_eq_some_iff.mp h
      exact Flow.showsWait_andThen (renormD_showsWait _ hs) fun _ _ ht => ht

/-! ### The response of a command -/

/-- From `s` to `t` the core has given exactly one response, or it waits and has given none; the host's
actions to come are the same (R90, R70). -/
def State.answersOnce (s t : State) : Prop :=
  t.chan.inputs = s.chan.inputs ∧
    ((t.chan.waiting = none ∧ ∃ r, t.chan.responses = s.chan.responses ++ [r]) ∨
      (t.chan.waiting ≠ none ∧ t.chan.responses = s.chan.responses))

theorem State.answersOnce_of_responded {s t : State} {r : Response} (hs : s.chan.waiting = none)
    (ht : t.chan = { s.chan with responses := s.chan.responses ++ [r] }) : s.answersOnce t := by
  rw [State.answersOnce, ht]
  exact ⟨rfl, .inl ⟨hs, r, rfl⟩⟩

/-- The end of an effect gives the one response, or a wait that shows. -/
theorem finish_answersOnce {i : Instr} {d : Word} {x : Flow Unit} {s t : State}
    (hx : s.sameRun x.state) (hwait : x.showsWait) (h : finish i d x = .next t) : s.answersOnce t := by
  obtain ⟨-, -, -, -, hin, hresp⟩ := hx
  rcases finish_next h with ⟨u, rfl, rfl⟩ | ⟨k, u, rfl, rfl⟩ | rfl
  · exact ⟨hin, .inl ⟨hwait, _, congrArg (· ++ [_]) hresp⟩⟩
  · exact ⟨hin, .inl ⟨hwait, _, congrArg (· ++ [_]) hresp⟩⟩
  · exact ⟨hin, .inr ⟨hwait, hresp⟩⟩

theorem exec_answersOnce {i : Instr} {s t : State} (hs : s.chan.waiting = none)
    (h : exec i s = .next t) : s.answersOnce t := by
  cases exec_cases h with
  | illegal h => exact State.answersOnce_of_responded hs (congrArg State.chan h)
  | pre k hl hk h => exact State.answersOnce_of_responded hs (congrArg State.chan h)
  | quiet hw hl h =>
    obtain ⟨d, hc⟩ := h.answered
    exact State.answersOnce_of_responded hs hc
  | effect hl x hx h =>
    exact finish_answersOnce (State.effect_sameRun hx) (State.effect_showsWait hs hx) h

theorem runWord_answersOnce {w : Word} {s t : State} (hs : s.chan.waiting = none)
    (h : runWord w s = .next t) : s.answersOnce t := by
  rcases runWord_cases h with ⟨why, -, ht⟩ | ⟨i, -, h⟩
  · exact State.answersOnce_of_responded hs (congrArg State.chan ht)
  · exact exec_answersOnce hs h

/-! ### A response that the host does not take -/

/-- A response never taken leaves the command's state, with the response offered instead of given (R9, U5);
a command that waits for a collaborator has none to offer. -/
theorem step_of_untaken_next {w : Word} {s t : State} {rest : List HostInput}
    (hin : s.chan.inputs = .untaken w :: rest) (hs : s.chan.waiting = none)
    (h : runWord w (s.setInputs rest) = .next t) :
    step s = .next (if t.chan.waiting.isSome then t else t.offerResponse s.chan.responses) :=
  (step_of_untaken hin hs).trans (runUntaken_of_next h)

/-- Settles O8: a command ends with its response or in a wait that shows, and a response that the host does
not take is the one just given. -/
theorem oneResponsePerCommand : Obligations.OneResponsePerCommand := by
  refine ⟨fun i s t => exec_answersOnce, fun w s t rest hin hs h => ⟨fun hw => ?_, fun hw => ?_⟩⟩
  · rw [step_of_untaken_next hin hs h, if_pos (Option.isSome_iff_ne_none.mpr hw)]
  · obtain ⟨-, hend⟩ := runWord_answersOnce (s := s.setInputs rest) hs h
    obtain ⟨-, r, hr⟩ := hend.resolve_right fun hwait => hwait.1 hw
    refine ⟨r, hr, ?_⟩
    rw [step_of_untaken_next hin hs h, hw, if_neg nofun, t.offerResponse_append s.chan.responses r hr]
    rfl

end Sys2Proof.Machine
end

section
/-! Which command can raise which fault kind (R123, R223, R226, R227): a flag rises only by a fault of its
own kind, and each command raises the kinds of its row in R229. -/

namespace Sys2Proof.Machine

/-- The sticky flag of a fault kind (R35). -/
def FaultRegs.flag (f : FaultRegs) : FaultKind → Bool
  | .ioError => f.eIo
  | .modelError => f.eModel
  | .precisionError => f.ePrec
  | .corruptStreamError => f.eCorrupt
  | .illegalCommand => f.eIll

/-- A fault sets the flag of its own kind and keeps the others (R230). -/
theorem FaultRegs.flag_record (f : FaultRegs) (k j : FaultKind) (w : Word) :
    (f.record k w).flag j = (f.flag j || decide (k = j)) := by
  obtain ⟨hio, hmodel, hprec, hcorrupt, hill, -⟩ := f.record_afterRaise k w
  cases j with
  | ioError => exact hio
  | modelError => exact hmodel
  | precisionError => exact hprec
  | corruptStreamError => exact hcorrupt
  | illegalCommand => exact hill

theorem FaultRegs.flag_zero (k : FaultKind) : FaultRegs.zero.flag k = false := by cases k <;> rfl

/-- The kinds that a command can raise (R229). -/
def mayRaise (i : Instr) (k : FaultKind) : Prop :=
  k = .illegalCommand ∨ preKind i k ∨ midKind i k

/-- What a command does to the fault registers: `RESET` clears them, any other leaves them or records a
fault of a kind that it can raise. -/
theorem exec_faults_kind {i : Instr} {s t : State} (h : exec i s = .next t) :
    t.faults = .zero ∨ t.faults = s.faults ∨
      ∃ k, mayRaise i k ∧ t.faults = s.faults.record k (encode i) := by
  cases exec_cases h with
  | illegal h => exact .inr (.inr ⟨_, .inl rfl, congrArg State.faults h⟩)
  | pre k hl hk h => exact .inr (.inr ⟨k, .inr (.inl hk), congrArg State.faults h⟩)
  | quiet hw hl hq =>
    by_cases hi : i = .reset
    · subst hi
      exact .inl (congrArg State.faults (next_eq h))
    · exact .inr (.inl (hq.faults hi))
  | effect hl x hx h =>
    obtain ⟨-, -, hf, -⟩ := State.effect_sameRun hx
    rcases finish_next h with ⟨u, rfl, rfl⟩ | ⟨k, u, rfl, rfl⟩ | rfl
    · exact .inr (.inl hf)
    · exact .inr (.inr ⟨k, .inr (.inr (State.effect_onlyRaises hx)),
        congrArg (FaultRegs.record · k (encode i)) hf⟩)
    · exact .inr (.inl hf)

/-- A flag rises only in a command that can raise its kind. -/
theorem mayRaise_of_flag_rises {i : Instr} {s t : State} (h : exec i s = .next t) {k : FaultKind}
    (ht : t.faults.flag k = true) (hs : s.faults.flag k = false) : mayRaise i k := by
  rcases exec_faults_kind h with hf | hf | ⟨j, hj, hf⟩
  · rw [hf, FaultRegs.flag_zero] at ht
    cases ht
  · rw [hf, hs] at ht
    cases ht
  · rw [hf, FaultRegs.flag_record, hs, Bool.false_or, decide_eq_true_iff] at ht
    exact ht ▸ hj

theorem mayRaise_modelError {i : Instr} :
    mayRaise i .modelError ↔ (∃ x v, i = .ldcnt x v) ∨ ∃ x, i = .getprob x := by
  simp [mayRaise, preKind, midKind]

theorem mayRaise_precisionError {i : Instr} :
    mayRaise i .precisionError ↔ i = .esym ∨ i = .dsym := by
  simp +contextual [mayRaise, preKind, midKind]

theorem mayRaise_corruptStreamError {i : Instr} :
    mayRaise i .corruptStreamError ↔ i = .getcnt ∨ i = .getsym ∨ i = .dbegin ∨ i = .dsym := by
  simp [mayRaise, preKind, midKind, or_assoc]

theorem mayRaise_ioError {i : Instr} :
    mayRaise i .ioError ↔ i = .esym ∨ i = .efinish ∨ i = .dbegin ∨ i = .dsym := by
  simp [mayRaise, preKind, midKind]

/-- Settles O19: a flag that rises names a kind that the command can raise, and each kind has its
commands. -/
theorem faultKindSources : Obligations.FaultKindSources := fun _ _ _ h =>
  ⟨fun ht hs => mayRaise_modelError.mp (mayRaise_of_flag_rises h ht hs),
    fun ht hs => mayRaise_precisionError.mp (mayRaise_of_flag_rises h ht hs),
    fun ht hs => mayRaise_corruptStreamError.mp (mayRaise_of_flag_rises h ht hs),
    fun ht hs => mayRaise_ioError.mp (mayRaise_of_flag_rises h ht hs)⟩

end Sys2Proof.Machine
end

section
/-! A sound model in numbers (R44, R119 to R121): the cumulative ranges of its symbols, and what an
`UPDATE` makes of its counts and its total. -/

namespace Sys2Proof.Machine

/-! ### The ranges of the symbols (R45, R121) -/

theorem Model.sound.cum_lt_succ {m : Model} (hm : m.sound) {k : Nat} (hk : k ≤ 256) :
    CountTable.cum m.cnt k < CountTable.cum m.cnt (k + 1) := by
  obtain ⟨hpos, -⟩ := hm
  exact Nat.lt_add_of_pos_right (hpos k (Nat.lt_succ_of_le hk))

theorem Model.sound.cum_le_tot {m : Model} (hm : m.sound) {k : Nat} (hk : k ≤ 257) :
    CountTable.cum m.cnt k ≤ m.tot.toNat := by
  obtain ⟨-, htot, -⟩ := hm
  exact htot ▸ CountTable.cum_mono m.cnt hk

theorem Model.sound.tot_le {m : Model} (hm : m.sound) : m.tot.toNat ≤ 16384 := by
  obtain ⟨-, -, hle, -⟩ := hm
  exact hle

theorem Model.sound.read_le_tot {m : Model} (hm : m.sound) {k : Nat} (hk : k ≤ 256) :
    (CountTable.read m.cnt k).toNat ≤ m.tot.toNat :=
  (CountTable.read_le_cum m.cnt (Nat.lt_succ_of_le hk)).trans (hm.cum_le_tot le_rfl)

/-- Every symbol counts at least once (R44). -/
theorem Model.sound.le_cum {m : Model} (hm : m.sound) {k : Nat} (hk : k ≤ 257) :
    k ≤ CountTable.cum m.cnt k := by
  induction k with
  | zero => exact Nat.zero_le _
  | succ k ih => exact (ih (by omega)).trans_lt (hm.cum_lt_succ (by omega))

theorem Model.sound.le_tot {m : Model} (hm : m.sound) : 257 ≤ m.tot.toNat :=
  (hm.le_cum le_rfl).trans (hm.cum_le_tot le_rfl)

/-- The search of `GETSYM` finds the symbol of every value below the total (R116). -/
theorem Model.sound.exists_symbolAt {m : Model} (hm : m.sound) {v : Nat} (hv : v < m.tot.toNat) :
    ∃ k, CountTable.symbolAt m.cnt v = some k ∧ k ≤ 256 ∧ CountTable.cum m.cnt k ≤ v ∧
      v < CountTable.cum m.cnt (k + 1) := by
  obtain ⟨-, htot, -⟩ := hm
  cases hk : CountTable.symbolAt m.cnt v with
  | none =>
    have := CountTable.symbolAt_none m.cnt v hk
    omega
  | some k =>
    obtain ⟨hlt, hlo, hhi⟩ := CountTable.symbolAt_some m.cnt v k hk
    exact ⟨k, rfl, Nat.le_of_lt_succ hlt, hlo, hhi⟩

/-- Settles O31: positive counts make the ranges nonempty, the search finds the range that holds a value,
and rising sums make it the only one. -/
theorem rangesPartitionTotal : Obligations.RangesPartitionTotal := by
  refine fun m hm => ⟨fun k hk => ⟨hm.cum_lt_succ hk, hm.cum_le_tot (by omega)⟩, fun v hv => ?_⟩
  obtain ⟨k, -, hk, hlo, hhi⟩ := hm.exists_symbolAt hv
  exact ⟨k, ⟨hk, hlo, hhi⟩, fun j _ hjlo hjhi =>
    CountTable.range_unique m.cnt ⟨hjlo, hjhi⟩ ⟨hlo, hhi⟩⟩

/-! ### One more count, and the halving (R117 to R120) -/

theorem Model.increment_tot {m : Model} (x : Symbol) (h : m.tot.toNat < 16384) :
    (m.increment x).tot.toNat = m.tot.toNat + 1 :=
  countOf_toNat (by omega)

theorem Model.sound.read_increment {m : Model} (hm : m.sound) {x : Symbol} (hx : x.toNat ≤ 256)
    (k : Nat) :
    (CountTable.read (m.increment x).cnt k).toNat =
      (CountTable.read m.cnt k).toNat + (if k = x.toNat then 1 else 0) := by
  rw [Model.increment]
  by_cases hk : k = x.toNat
  · have hle := hm.read_le_tot hx
    have htot := hm.tot_le
    rw [hk, CountTable.read_write_same, countOf_toNat (by omega), if_pos rfl]
  · rw [CountTable.read_write_other _ _ (Ne.symm hk), if_neg hk, Nat.add_zero]

/-- Below the ceiling an `UPDATE` only counts (R117). -/
theorem Model.update_of_lt {m : Model} (x : Symbol) (h : m.tot.toNat + 1 < 16384) :
    m.update x = m.increment x :=
  if_neg (by rw [m.increment_tot x (by omega)]; exact Nat.not_le.mpr h)

/-- At the ceiling it halves too (R117, R118). -/
theorem Model.update_of_eq {m : Model} (x : Symbol) (h : m.tot.toNat + 1 = 16384) :
    m.update x = (m.increment x).rescale :=
  if_pos (by rw [m.increment_tot x (by omega)]; exact Nat.le_of_eq h.symm)

theorem Model.read_rescale (m : Model) {k : Nat} (hk : k ≤ 256) :
    (CountTable.read m.rescale.cnt k).toNat = max 1 ((CountTable.read m.cnt k).toNat / 2) := by
  rw [← halved_toNat, ← CountTable.read_halve m.cnt (Nat.lt_succ_of_le hk)]
  rfl

/-- The total after a halving: at most half the ceiling, and half of one per symbol for its floor
(R119). -/
theorem Model.rescale_tot_le {m : Model} (hm : m.counted) : m.rescale.tot.toNat ≤ 8320 := by
  obtain ⟨-, hsum, -⟩ := Model.sound_rescale hm
  obtain ⟨hpos, htot, hle⟩ := hm
  have hhalf : 2 * CountTable.cum m.rescale.cnt 257 ≤ CountTable.cum m.cnt 257 + 257 :=
    CountTable.cum_halve_le hpos le_rfl
  simp only [Config.ceiling, Config.numSymbols] at hsum htot hle
  omega

/-- Settles O30: the halved model is sound, so its total is at least 257; the floor costs at most a half
per symbol; and the halving of one count is monotone. -/
theorem rescaleBoundsAndOrder : Obligations.RescaleBoundsAndOrder := by
  intro m x hx hm hmode htot
  have hxlt : x.toNat < Config.numSymbols := Nat.lt_succ_of_le hx
  have hsound := Model.sound_update hm hmode hxlt
  refine ⟨hsound.le_tot, ?_, fun j k hj hk hjk => ?_⟩
  · rw [Model.update_of_eq x htot]
    exact Model.rescale_tot_le (Model.counted_increment hm hmode hxlt)
  · rw [Model.update_of_eq x htot, Model.read_rescale _ hj, Model.read_rescale _ hk]
    exact max_le_max le_rfl (Nat.div_le_div_right hjk)

end Sys2Proof.Machine
end

section
/-! The commands of the model unit (`spec/40_model.md`): for each, when it runs (R31, R88), and what it
answers then. -/

namespace Sys2Proof.Machine

/-! ### When a command runs -/

/-- The command passes the decode and the legality test (R8 steps 1 and 2). -/
def State.admits (s : State) (i : Instr) : Prop := i.wellFormed = true ∧ s.legal i = true

theorem guarded_of_admits {i : Instr} {s : State} (h : s.admits i) (body : Result) :
    guarded i s body = body := by
  obtain ⟨hw, hl⟩ := h
  exact guarded_legal i s body hw hl

/-- One that does not raises `IllegalCommand` and changes nothing else (R225, R231). -/
theorem exec_of_not_admits {i : Instr} {s : State} (h : ¬s.admits i) :
    ∃ t, exec i s = .next t ∧ s.faultedPre t .illegalCommand (encode i) := by
  rw [State.admits, not_and_or, Bool.not_eq_true, Bool.not_eq_true] at h
  exact ⟨_, exec_of_illegal h, s.raise_faultedPre _ _⟩

theorem State.admits_minit {s : State} {m : Mode} :
    s.admits (.minit m) ↔ s.st = .idle ∨ s.st = .done := by
  simp [State.admits, Instr.wellFormed, State.legal]

theorem State.admits_ldcnt {s : State} {x : Symbol} {v : Count} :
    s.admits (.ldcnt x v) ↔
      x.toNat ≤ 256 ∧ s.st = .idle ∧ s.model.mvalid = true ∧ s.model.mode = .static := by
  simp [State.admits, Instr.wellFormed, symbolOk, State.legal, and_assoc]

theorem State.admits_rdcnt {s : State} {x : Symbol} :
    s.admits (.rdcnt x) ↔ x.toNat ≤ 256 ∧ s.model.mvalid = true := by
  simp [State.admits, Instr.wellFormed, symbolOk, State.legal]

theorem State.admits_getprob {s : State} {x : Symbol} :
    s.admits (.getprob x) ↔ x.toNat ≤ 256 ∧ s.st = .encReady := by
  simp [State.admits, Instr.wellFormed, symbolOk, State.legal]

theorem State.admits_getsym {s : State} : s.admits .getsym ↔ s.st = .decCount := by
  simp [State.admits, Instr.wellFormed, State.legal]

theorem State.admits_update {s : State} {x : Symbol} :
    s.admits (.update x) ↔
      x.toNat ≤ 256 ∧ (s.st = .encReady ∨ s.st = .decReady) ∧ s.model.mode = .adaptive := by
  simp [State.admits, Instr.wellFormed, symbolOk, State.legal]

/-- A count register's value as a response datum (R90): a number that fits is zero-extended. -/
theorem setWidth_ofNat_count {n : Nat} (h : n ≤ 16384) :
    (BitVec.ofNat 15 n).setWidth 32 = BitVec.ofNat 32 n := by
  apply BitVec.eq_of_toNat_eq
  simp only [BitVec.toNat_setWidth, BitVec.toNat_ofNat]
  omega

/-! ### `MINIT` (R110) and `RDCNT` (R113) -/

/-- Settles O24: the entry of the uniform model. -/
theorem minitBuildsUniformModel : Obligations.MinitBuildsUniformModel := by
  refine fun m s => ⟨fun hst => ?_, fun hst => exec_of_not_admits (mt State.admits_minit.mp hst)⟩
  refine ⟨_, guarded_of_admits (State.admits_minit.mpr hst) _, fun k hk => ?_, ?_⟩
  · rw [State.respondOk_model, State.setSt_model, State.setModel_model,
      CountTable.read_ofFn _ (Nat.lt_succ_of_le hk)]
  · simp [State.answered]

/-- Settles O26: a read changes nothing but the responses. -/
theorem rdcntReadsCount : Obligations.RdcntReadsCount := by
  refine fun x s => ⟨fun hx hv => ?_, fun h => exec_of_not_admits (mt State.admits_rdcnt.mp h)⟩
  exact ⟨_, guarded_of_admits (State.admits_rdcnt.mpr ⟨hx, hv⟩) _, rfl, rfl, rfl, rfl, rfl, rfl, rfl⟩

/-! ### `LDCNT` (R112) -/

theorem exec_ldcnt_of_count_ok {x : Symbol} {v : Count} {s : State} {n : Nat}
    (h : s.admits (.ldcnt x v)) (hv0 : v ≠ 0#15) (hv : ¬Config.ceiling < v.toNat)
    (hn : s.loadSum x v = some n) :
    exec (.ldcnt x v) s =
      if Config.ceiling < n then .next (s.raise .modelError (encode (.ldcnt x v)))
      else
        .next <|
          (s.setModel
            { s.model with cnt := CountTable.write s.model.cnt x.toNat v, tot := BitVec.ofNat 15 n }
            ).respondOk (BitVec.ofNat 32 n) := by
  refine (guarded_of_admits h _).trans ?_
  rw [if_neg hv0, if_neg hv, hn]
  rfl

theorem State.loadSum_of_le {s : State} {x : Symbol} {v : Count}
    (h : (CountTable.read s.model.cnt x.toNat).toNat ≤ s.model.tot.toNat + v.toNat) :
    s.loadSum x v =
      some (s.model.tot.toNat + v.toNat - (CountTable.read s.model.cnt x.toNat).toNat) :=
  if_neg (Nat.not_lt.mpr h)

/-- Each of the three refusals of R112, in the order in which `LDCNT` tests them (R228). -/
theorem exec_ldcnt_refused {x : Symbol} {v : Count} {s : State} (h : s.admits (.ldcnt x v))
    (hv : v.toNat = 0 ∨ 16384 < v.toNat ∨
      16384 < s.model.tot.toNat + v.toNat - (CountTable.read s.model.cnt x.toNat).toNat) :
    exec (.ldcnt x v) s = .next (s.raise .modelError (encode (.ldcnt x v))) := by
  by_cases hc : v = 0#15 ∨ Config.ceiling < v.toNat
  · obtain ⟨hw, hl⟩ := h
    exact exec_ldcnt_of_count_refused hw hl hc
  · obtain ⟨hv0, hvle⟩ := not_or.mp hc
    have hsum := (hv.resolve_left fun h0 => hv0 (BitVec.eq_of_toNat_eq h0)).resolve_left hvle
    exact (exec_ldcnt_of_count_ok h hv0 hvle (State.loadSum_of_le (by omega))).trans (if_pos hsum)

/-- Settles O25: the total of a sound model covers the count that is replaced, so the new sum is exact;
the value tests refuse the three values of the rule. -/
theorem ldcntLoadsOrRefuses : Obligations.LdcntLoadsOrRefuses := by
  refine fun x v s => ⟨fun hx hst hmv hmode hm hv1 hv hsum => ?_, fun hx hst hmv hmode hv => ?_,
    fun h => exec_of_not_admits (mt State.admits_ldcnt.mp h)⟩
  · have hadm : s.admits (.ldcnt x v) := State.admits_ldcnt.mpr ⟨hx, hst, hmv, hmode⟩
    have hv0 : v ≠ 0#15 := by
      rintro rfl
      exact absurd hv1 (by decide)
    have hexec := exec_ldcnt_of_count_ok hadm hv0 (Nat.not_lt.mpr hv)
      (State.loadSum_of_le ((hm.read_le_tot hx).trans (Nat.le_add_right ..)))
    refine ⟨_, hexec.trans (if_neg (Nat.not_lt.mpr hsum)), CountTable.read_write_same .., fun k hk =>
      CountTable.read_write_other _ _ hk.symm, ?_, rfl, hmv, hst, rfl, rfl, rfl, rfl, ?_⟩
    · exact (BitVec.toNat_ofNat ..).trans (Nat.mod_eq_of_lt (by omega))
    · rw [State.answered, State.respondOk_model, State.setModel_model, setWidth_ofNat_count hsum]
      rfl
  · exact ⟨_, exec_ldcnt_refused (State.admits_ldcnt.mpr ⟨hx, hst, hmv, hmode⟩) hv,
      s.raise_faultedPre _ _⟩

/-! ### `GETPROB` (R114) and `GETSYM` (R115) -/

theorem State.rangeFits_of_sound {s : State} (hm : s.model.sound) {k : Nat} (hk : k ≤ 256) :
    s.rangeFits k = true := by
  have hcum := hm.cum_le_tot (k := k + 1) (by omega)
  have htot := hm.tot_le
  exact decide_eq_true (by rw [State.cum]; omega)

theorem exec_getprob_of_sound {x : Symbol} {s : State} (hx : x.toNat ≤ 256) (hst : s.st = .encReady)
    (hm : s.model.sound) :
    exec (.getprob x) s =
      .next (((s.setLatch (s.rangeLatch x.toNat)).setSt .encRange).respondOk 0) := by
  refine (guarded_of_admits (State.admits_getprob.mpr ⟨hx, hst⟩) _).trans (if_neg ?_)
  rw [State.rangeFits_of_sound hm hx, Bool.not_true, Bool.or_false, decide_eq_true_iff]
  exact Nat.not_lt.mpr hm.tot_le

theorem exec_getprob_of_tot_refused {x : Symbol} {s : State} (hx : x.toNat ≤ 256)
    (hst : s.st = .encReady) (htot : 16384 < s.model.tot.toNat) :
    exec (.getprob x) s = .next (s.raise .modelError (encode (.getprob x))) :=
  (guarded_of_admits (State.admits_getprob.mpr ⟨hx, hst⟩) _).trans
    (if_pos (by simp [Config.ceiling, htot]))

theorem exec_getsym_of_symbolAt {s : State} {k : Nat} (hst : s.st = .decCount) (hm : s.model.sound)
    (hsv : s.latch.sv.toNat < s.model.tot.toNat) (hk : k ≤ 256)
    (hat : CountTable.symbolAt s.model.cnt s.latch.sv.toNat = some k) :
    exec .getsym s =
      .next
        (((s.setLatch (s.rangeLatch k)).setSt .decRange).respondOk
          ((s.rangeLatch k).sym.setWidth 32)) := by
  refine (guarded_of_admits (State.admits_getsym.mpr hst) _).trans ?_
  rw [if_neg (Nat.not_le.mpr hsv), hat]
  exact if_pos (State.rangeFits_of_sound hm hk)

theorem exec_getsym_of_sv_refused {s : State} (hst : s.st = .decCount)
    (hsv : s.model.tot.toNat ≤ s.latch.sv.toNat) :
    exec .getsym s = .next (s.raise .corruptStreamError (encode .getsym)) :=
  (guarded_of_admits (State.admits_getsym.mpr hst) _).trans (if_pos hsv)

/-- The latch that holds the range of symbol `k` in a sound model is exact. -/
theorem State.rangeLatch_of_sound {s : State} (hm : s.model.sound) {k : Nat} (hk : k ≤ 256) :
    (s.rangeLatch k).sym.toNat = k ∧ (s.rangeLatch k).rl.toNat = CountTable.cum s.model.cnt k ∧
      (s.rangeLatch k).rh.toNat = CountTable.cum s.model.cnt (k + 1) :=
  State.rangeLatch_toNat (Nat.lt_succ_of_le hk) (State.rangeFits_of_sound hm hk)

/-- Settles O27: the latch is exact, and its order is that of the ranges of a sound model. -/
theorem getprobLatchesRange : Obligations.GetprobLatchesRange := by
  refine fun x s => ⟨fun hx hst hm => ?_, fun hx hst htot => ?_,
    fun h => exec_of_not_admits (mt State.admits_getprob.mp h)⟩
  · obtain ⟨hsym, hrl, hrh⟩ := State.rangeLatch_of_sound hm hx
    exact ⟨_, exec_getprob_of_sound hx hst hm, hrl, hrh, rfl, BitVec.eq_of_toNat_eq hsym, rfl,
      hrl.trans_lt ((hm.cum_lt_succ hx).trans_eq hrh.symm),
      hrh.trans_le (hm.cum_le_tot (Nat.succ_le_succ hx)), hm.le_tot, hm.tot_le, rfl, rfl, rfl, rfl, rfl,
      rfl⟩
  · exact ⟨_, exec_getprob_of_tot_refused hx hst htot, s.raise_faultedPre _ _⟩

/-- Settles O28: the search finds the symbol, and its latch is exact. -/
theorem getsymFindsSymbol : Obligations.GetsymFindsSymbol := by
  refine fun s => ⟨fun hst hm hsv => ?_, fun hst hsv => ?_,
    fun h => exec_of_not_admits (mt State.admits_getsym.mp h)⟩
  · obtain ⟨k, hat, hk, hlo, hhi⟩ := hm.exists_symbolAt hsv
    obtain ⟨hsym, hrl, hrh⟩ := State.rangeLatch_of_sound hm hk
    exact ⟨_, k, exec_getsym_of_symbolAt hst hm hsv hk hat, hk, hlo, hhi, hsym, hrl, hrh, rfl, rfl, rfl,
      rfl, rfl, rfl, rfl, rfl⟩
  · exact ⟨_, exec_getsym_of_sv_refused hst hsv, s.raise_faultedPre _ _⟩

/-- Settles O32: both commands latch the exact range of a symbol, and `SV` lies in the range of one symbol
only. -/
theorem getprobAndGetsymAgree : Obligations.GetprobAndGetsymAgree := by
  intro d e t u x hx hd he hmodel hm hsv ht hu
  have hme : e.model.sound := hmodel ▸ hm
  obtain ⟨k, hat, hk, hlo, hhi⟩ := hm.exists_symbolAt hsv
  obtain rfl := next_eq ((exec_getsym_of_symbolAt hd hm hsv hk hat).symm.trans ht)
  obtain rfl := next_eq ((exec_getprob_of_sound hx he hme).symm.trans hu)
  obtain ⟨hsym, -⟩ := State.rangeLatch_of_sound hm hk
  obtain ⟨-, hrl, hrh⟩ := State.rangeLatch_of_sound hme hx
  rw [hmodel] at hrl hrh
  simp only [State.respondOk_latch, State.setSt_latch, State.setLatch_latch, hrl, hrh]
  constructor
  · rintro ⟨rfl, -⟩
    rw [hsym]
    exact ⟨hlo, hhi⟩
  · intro hrange
    obtain rfl := CountTable.range_unique d.model.cnt ⟨hlo, hhi⟩ hrange
    simp [State.rangeLatch, State.cum, hmodel]

/-! ### `UPDATE` (R117, R118) -/

/-- Settles O29: what the update makes of the counts and of the total, below the ceiling and at it. -/
theorem updateCountsAndRescales : Obligations.UpdateCountsAndRescales := by
  refine fun x s => ⟨fun hx hst hmode hm => ?_,
    fun h => exec_of_not_admits (mt State.admits_update.mp h)⟩
  obtain ⟨hmode', hvalid'⟩ := s.model.update_flags x
  refine ⟨_, guarded_of_admits (State.admits_update.mpr ⟨hx, hst, hmode⟩) _, hmode', hvalid', rfl, rfl,
    rfl, rfl, rfl, rfl, fun hlt => ?_, fun heq => ?_⟩
  · rw [State.respondOk_model, State.setModel_model, Model.update_of_lt x hlt]
    exact ⟨Model.increment_tot x (by omega), fun k _ => hm.read_increment hx k⟩
  · obtain ⟨-, hsum, -⟩ := Model.sound_update hm hmode (Nat.lt_succ_of_le hx)
    rw [State.respondOk_model, State.setModel_model]
    refine ⟨hsum, fun k hk => ?_⟩
    rw [Model.update_of_eq x heq, Model.read_rescale _ hk, hm.read_increment hx]

end Sys2Proof.Machine
end

section
/-! The narrowing and the steps of the interval unit, by bits and by numbers (R141 to R144). -/

namespace Sys2Proof.Machine

/-! ### The narrowing (R141) -/

theorem narrow_eq_none {lo hi : Bound} {rl rh rt : Count}
    (h : (hi.toNat + 1 - lo.toNat) * rh.toNat / rt.toNat ≤
      (hi.toNat + 1 - lo.toNat) * rl.toNat / rt.toNat) : narrow lo hi rl rh rt = none :=
  if_pos h

/-- On the inputs of R141 only an empty interval is refused, and the upper bound does not rise. -/
theorem narrow_eq_some {lo hi : Bound} {rl rh rt : Count} (hle : lo.toNat ≤ hi.toNat)
    (hrh : rh.toNat ≤ rt.toNat)
    (h : (hi.toNat + 1 - lo.toNat) * rl.toNat / rt.toNat <
      (hi.toNat + 1 - lo.toNat) * rh.toNat / rt.toNat) :
    ∃ nl nh, narrow lo hi rl rh rt = some (nl, nh) ∧ nh.toNat ≤ hi.toNat := by
  have hb : (hi.toNat + 1 - lo.toNat) * rh.toNat / rt.toNat ≤ hi.toNat + 1 - lo.toNat :=
    Nat.div_le_of_le_mul ((Nat.mul_le_mul_left _ hrh).trans_eq (Nat.mul_comm ..))
  have hhi := hi.isLt
  have hmax : Config.maxBound.toNat = 65535 := rfl
  have hsome : (narrow lo hi rl rh rt).isSome := by
    simp only [narrow]
    rw [if_neg (Nat.not_le.mpr h), if_neg (by omega)]
    rfl
  obtain ⟨⟨nl, nh⟩, hn⟩ := Option.isSome_iff_exists.mp hsome
  obtain ⟨-, hnh, -⟩ := narrow_some hn
  exact ⟨nl, nh, hn, by omega⟩

/-- Settles O33: a nonempty interval is accepted, its bounds are those of `narrow_some`, and the upper
count at most the total keeps it inside. -/
theorem narrowStaysInside : Obligations.NarrowStaysInside := by
  intro lo hi rl rh rt hle hlt hrh
  have hrange : hi.toNat - lo.toNat + 1 = hi.toNat + 1 - lo.toNat := by omega
  simp only [hrange]
  refine ⟨narrow_eq_none, fun h => ?_⟩
  obtain ⟨nl, nh, hn, hhi⟩ := narrow_eq_some hle hrh h
  obtain ⟨hnl, hnh, hnle⟩ := narrow_some hn
  exact ⟨nl, nh, hn, hnl, by omega, (Nat.le_add_right _ _).trans_eq hnl.symm, hnle, hhi⟩

/-! ### The conditions (R142) -/

theorem Interval.e1_iff_bits (v : Interval) :
    v.e1 = true ↔ v.low.getLsbD 15 = false ∧ v.high.getLsbD 15 = false := by
  simp [Interval.e1]

theorem Interval.e2_iff_bits (v : Interval) :
    v.e2 = true ↔ v.low.getLsbD 15 = true ∧ v.high.getLsbD 15 = true := by
  simp [Interval.e2]

theorem Interval.e3_iff_bits (v : Interval) :
    v.e3 = true ↔ v.low.getLsbD 15 = false ∧ v.high.getLsbD 15 = true ∧ v.low.getLsbD 14 = true ∧
      v.high.getLsbD 14 = false := by
  simp [Interval.e3, and_assoc]

theorem Interval.e1_iff {v : Interval} (hle : v.low.toNat ≤ v.high.toNat) :
    v.e1 = true ↔ v.high.toNat < 32768 := by
  simp only [v.e1_iff_bits, bit15_eq, decide_eq_false_iff_not]
  omega

theorem Interval.e2_iff {v : Interval} (hle : v.low.toNat ≤ v.high.toNat) :
    v.e2 = true ↔ 32768 ≤ v.low.toNat := by
  simp only [v.e2_iff_bits, bit15_eq, decide_eq_true_eq]
  omega

/-- Settles O34: each condition is read from its bits, the top bits say on which side of the middle the
bounds lie, and the ranges exclude one another. -/
theorem renormConditions : Obligations.RenormConditions := by
  refine fun v hle => ⟨v.e1_iff_bits, Interval.e1_iff hle, v.e2_iff_bits, Interval.e2_iff hle,
    v.e3_iff_bits, v.e3_iff, ?_, ?_⟩ <;>
    simp only [Bool.eq_false_iff, ne_eq, Interval.e1_iff hle, Interval.e2_iff hle, v.e3_iff] <;> omega

/-! ### The steps in numbers (R144) -/

theorem Interval.shift_toNat (v : Interval) :
    v.shift.low.toNat = 2 * (v.low.toNat % 32768) ∧
      v.shift.high.toNat = 2 * (v.high.toNat % 32768) + 1 :=
  ⟨shiftIn_toNat _ _, shiftIn_toNat _ _⟩

theorem Interval.widen_toNat {v : Interval} (h : v.e3 = true) :
    v.widen.low.toNat = 2 * (v.low.toNat - 16384) ∧
      v.widen.high.toNat = 2 * (v.high.toNat - 16384) + 1 := by
  obtain ⟨h1, h2, h3, h4⟩ := v.e3_iff.mp h
  simp only [Interval.widen, shiftIn_toNat, clear14_mod, set14_mod, Bool.toNat_false, Bool.toNat_true]
  omega

/-- The size as the statements write it. -/
theorem Interval.size_eq_sub_add_one {v : Interval} (hle : v.low.toNat ≤ v.high.toNat) :
    v.high.toNat - v.low.toNat + 1 = v.size := by
  unfold Interval.size
  omega

theorem Interval.Doubles.sub_add_one {v w : Interval} {f : Bound → Bool → Bound} (h : v.Doubles w f)
    (hle : v.low.toNat ≤ v.high.toNat) :
    w.high.toNat - w.low.toNat + 1 = 2 * (v.high.toNat - v.low.toNat + 1) := by
  rw [Interval.size_eq_sub_add_one (h.low_le_high hle), Interval.size_eq_sub_add_one hle, h.size_eq]

/-- Settles O35: the steps in numbers, from the ranges of their conditions; a step doubles every position
about one point, so also the size. -/
theorem stepsDoubleTheInterval : Obligations.StepsDoubleTheInterval := by
  intro v hle
  obtain ⟨hlow, hhigh⟩ := v.shift_toNat
  have hlow16 := v.low.isLt
  have hhigh16 := v.high.isLt
  refine ⟨fun h => ?_, fun h => ?_, Interval.widen_toNat, fun h => ?_, fun h => ?_⟩
  · have hlt := (Interval.e1_iff hle).mp h
    omega
  · have hge := (Interval.e2_iff hle).mp h
    omega
  · exact (Interval.shift_doubles ((Bool.or_eq_true _ _).mpr h) hle).sub_add_one hle
  · exact (Interval.widen_doubles h).sub_add_one hle

end Sys2Proof.Machine
end

section
/-! The two renormalization loops (R143, R173): what each does in a step, and the induction over the
doubling of the interval by which 16 steps suffice (R148). -/

namespace Sys2Proof.Machine

/-! ### The loops, a step at a time -/

theorem Interval.e12_iff_bits (v : Interval) :
    (v.e1 || v.e2) = true ↔ v.low.getLsbD 15 = v.high.getLsbD 15 := by
  rw [Bool.or_eq_true, v.e1_iff_bits, v.e2_iff_bits]
  cases v.low.getLsbD 15 <;> cases v.high.getLsbD 15 <;> decide

/-- Unequal top bits are those of a lower half and an upper half (R142). -/
theorem Interval.top_bits_of_ne {v : Interval} (hle : v.low.toNat ≤ v.high.toNat)
    (h : v.low.getLsbD 15 ≠ v.high.getLsbD 15) :
    v.low.getLsbD 15 = false ∧ v.high.getLsbD 15 = true := by
  simp only [bit15_eq, ne_eq, decide_eq_decide, decide_eq_false_iff_not, decide_eq_true_eq] at h ⊢
  omega

theorem Interval.not_e12_of_e3 {v : Interval} (h : v.e3 = true) : ¬(v.e1 || v.e2) = true := by
  obtain ⟨-, h2, h3, -⟩ := v.e3_iff.mp h
  rw [v.e12_iff]
  omega

/-- No step applies to a settled interval (R25, R142). -/
theorem Interval.settled.no_step {v : Interval} (h : v.settled) :
    ¬(v.e1 || v.e2) = true ∧ ¬v.e3 = true := by
  rw [v.e12_iff, v.e3_iff]
  unfold Interval.settled Config.half Config.quarter Config.threeQuarters at h
  omega

theorem renormE_of_e12 {s : State} (h : (s.iv.e1 || s.iv.e2) = true) (n : Nat) :
    renormE (n + 1) s = s.emitTop.andThen fun _ t => renormE n t := by
  rw [renormE, if_pos h]

theorem renormE_of_e3 {s : State} (h : s.iv.e3 = true) (n : Nat) :
    renormE (n + 1) s = s.deferBit.andThen fun _ t => renormE n t := by
  rw [renormE, if_neg (Interval.not_e12_of_e3 h), if_pos h]

theorem renormE_of_settled {s : State} (h : s.iv.settled) (n : Nat) : renormE n s = .goesOn () s := by
  obtain ⟨h12, h3⟩ := h.no_step
  cases n with
  | zero => rfl
  | succ n => rw [renormE, if_neg h12, if_neg h3]

theorem renormD_of_e12 {s : State} (h : (s.iv.e1 || s.iv.e2) = true) (n : Nat) :
    renormD (n + 1) s =
      (s.setIv s.iv.shift).readBit.andThen fun b t => renormD n (t.setIv (t.iv.shiftCode b)) := by
  rw [renormD, if_pos h]

theorem renormD_of_e3 {s : State} (h : s.iv.e3 = true) (n : Nat) :
    renormD (n + 1) s =
      (s.setIv s.iv.widen).readBit.andThen fun b t => renormD n (t.setIv (t.iv.widenCode b)) := by
  rw [renormD, if_neg (Interval.not_e12_of_e3 h), if_pos h]

theorem renormD_of_settled {s : State} (h : s.iv.settled) (n : Nat) : renormD n s = .goesOn () s := by
  obtain ⟨h12, h3⟩ := h.no_step
  cases n with
  | zero => rfl
  | succ n => rw [renormD, if_neg h12, if_neg h3]

/-- The encoder's E1/E2 step with a sink that answers `ok` to each bit (R143). -/
theorem State.emitTop_ok {s : State} {rest : List SinkAnswer}
    (h : s.chan.sinkAnswers = List.replicate (1 + s.iv.pend.toNat) .ok ++ rest) :
    s.emitTop = .goesOn () ((s.setIv { s.iv.shift with pend := 0#32 }).setChan
      { s.chan with
        sinkAnswers := rest
        events := s.chan.events ++
          (.emit (s.iv.low.getLsbD 15) ::
            List.replicate s.iv.pend.toNat (.emit (!s.iv.low.getLsbD 15))) }) := by
  rw [Nat.add_comm, List.replicate_succ, List.cons_append] at h
  rw [State.emitTop, State.emit, State.sendOut_ok s _ _ h, Flow.andThen_goesOn,
    State.emitTimes_ok _ _ _ rest rfl]
  simp [State.setChan, State.setIv]

theorem State.deferBit_of_max {s : State} (h : s.iv.pend = Config.maxPending) :
    s.deferBit = .raises .precisionError s :=
  if_pos h

/-- Settles O36: equal top bits are E1 or E2, and with `LOW <= HIGH` unequal ones leave E3 or the exit. -/
theorem encoderRenormSteps : Obligations.EncoderRenormSteps := by
  intro s n rest hle
  have he3 (hne : s.iv.low.getLsbD 15 ≠ s.iv.high.getLsbD 15) :
      s.iv.e3 = true ↔ s.iv.low.getLsbD 14 = true ∧ s.iv.high.getLsbD 14 = false := by
    obtain ⟨hl, hh⟩ := Interval.top_bits_of_ne hle hne
    rw [s.iv.e3_iff_bits, and_iff_right hl, and_iff_right hh]
  refine ⟨fun heq h => ?_, fun hne hl hh hp => ?_, fun hne hl hh hp => ?_, fun hne hno => ?_⟩
  · rw [renormE_of_e12 (s.iv.e12_iff_bits.mpr heq), State.emitTop_ok h, Flow.andThen_goesOn]
    simp [State.setIv, State.setChan, Interval.shift, shiftIn]
  · have h3 := (he3 hne).mpr ⟨hl, hh⟩
    obtain ⟨hlow, hhigh⟩ := Interval.widen_toNat h3
    have hroom : s.iv.pend.toNat + 1 < 2 ^ 32 := by bv_omega
    refine ⟨{ s.iv.widen with pend := s.iv.pend + 1#32 }, hlow, hhigh, ?_, rfl, rfl, ?_⟩
    · bv_omega
    · rw [renormE_of_e3 h3, State.deferBit_of_room hroom]
      rfl
  · rw [renormE_of_e3 ((he3 hne).mpr ⟨hl, hh⟩), State.deferBit_of_max hp]
    rfl
  · rw [renormE, if_neg (mt s.iv.e12_iff_bits.mp hne), if_neg (mt (he3 hne).mp hno)]

/-! ### The induction over the doublings -/

/-- The induction by which both loops are reasoned about: every step doubles the interval, so that after
`n` of them, if `n` doublings make it whole, it is settled (R144, R148). -/
theorem renorm_induction {P : Nat → State → Prop} (settled : ∀ n s, s.iv.settled → P n s)
    (shift : ∀ n s, (s.iv.e1 || s.iv.e2) = true →
      (∀ t, t.iv.low = s.iv.shift.low → t.iv.high = s.iv.shift.high → P n t) → P (n + 1) s)
    (widen : ∀ n s, s.iv.e3 = true →
      (∀ t, t.iv.low = s.iv.widen.low → t.iv.high = s.iv.widen.high → P n t) → P (n + 1) s)
    (n : Nat) (s : State) (hle : s.iv.low.toNat ≤ s.iv.high.toNat)
    (hn : 2 ^ 16 ≤ s.iv.size * 2 ^ n) : P n s := by
  induction n generalizing s with
  | zero => exact settled 0 s (Interval.settled_of_size (by omega))
  | succ n ih =>
    have hstep {w : Interval} {f : Bound → Bool → Bound} (hd : s.iv.Doubles w f) (t : State)
        (hlow : t.iv.low = w.low) (hhigh : t.iv.high = w.high) : P n t := by
      refine ih t ?_ ?_
      · rw [hlow, hhigh]
        exact hd.low_le_high hle
      · rw [Interval.size, hlow, hhigh]
        exact hn.trans_eq (hd.size_mul_pow n).symm
    by_cases h12 : (s.iv.e1 || s.iv.e2) = true
    · exact shift n s h12 (hstep (Interval.shift_doubles h12 hle))
    · by_cases h3 : s.iv.e3 = true
      · exact widen n s h3 (hstep (Interval.widen_doubles h3))
      · exact settled _ s (Interval.settled_of_no_step hle h12 h3)

/-! ### The end of the loops (R148, R149) -/

theorem Flow.andThen_congr {α β : Type} {Q : α → State → Prop} {x : Flow α} {f g : α → State → Flow β}
    (hx : x.ensures Q) (h : ∀ a t, Q a t → f a t = g a t) : x.andThen f = x.andThen g := by
  cases x with
  | goesOn a t => exact h a t hx
  | raises k t => rfl
  | waits t => rfl

theorem Flow.ensures.of_goesOn {α : Type} {Q : α → State → Prop} {x : Flow α} {a : α} {t : State}
    (hx : x.ensures Q) (h : x = .goesOn a t) : Q a t := by
  rw [h] at hx
  exact hx

/-- `ReadBit` leaves the bounds. -/
theorem State.readBit_ensures_bounds (s : State) :
    s.readBit.ensures fun _ t => t.iv.low = s.iv.low ∧ t.iv.high = s.iv.high :=
  s.readBit_ensures.mono fun _ _ ⟨_, ht, _⟩ => by simp [ht]

/-- The encoder's loop ends settled, and more steps change nothing. -/
theorem renormE_ends {n : Nat} {s : State} (hle : s.iv.low.toNat ≤ s.iv.high.toNat)
    (hn : 2 ^ 16 ≤ s.iv.size * 2 ^ n) :
    (∀ k, renormE (n + k) s = renormE n s) ∧ (renormE n s).ensures fun _ t => t.iv.settled := by
  refine renorm_induction
    (P := fun n s =>
      (∀ k, renormE (n + k) s = renormE n s) ∧ (renormE n s).ensures fun _ t => t.iv.settled)
    (fun n s h => ?settled) (fun n s h ih => ?shift) (fun n s h ih => ?widen) n s hle hn
  case settled => exact ⟨fun k => by simp only [renormE_of_settled h], renormE_of_settled h n ▸ h⟩
  case shift =>
    simp only [Nat.add_right_comm, renormE_of_e12 h]
    have ih (t : State) (ht : t.iv = { s.iv.shift with pend := 0#32 }) := ih t (by rw [ht]) (by rw [ht])
    exact ⟨fun k => Flow.andThen_congr s.emitTop_ensures fun _ t ht => (ih t ht).1 k,
      Flow.ensures_andThen s.emitTop_ensures fun _ t ht => (ih t ht).2⟩
  case widen =>
    simp only [Nat.add_right_comm, renormE_of_e3 h]
    have ih (t : State) (ht : t.iv = { s.iv.widen with pend := s.iv.pend + 1#32 }) :=
      ih t (by rw [ht]) (by rw [ht])
    exact ⟨fun k => Flow.andThen_congr s.deferBit_ensures fun _ t ht => (ih t ht).1 k,
      Flow.ensures_andThen s.deferBit_ensures fun _ t ht => (ih t ht).2⟩

/-- So does the decoder's. -/
theorem renormD_ends {n : Nat} {s : State} (hle : s.iv.low.toNat ≤ s.iv.high.toNat)
    (hn : 2 ^ 16 ≤ s.iv.size * 2 ^ n) :
    (∀ k, renormD (n + k) s = renormD n s) ∧ (renormD n s).ensures fun _ t => t.iv.settled := by
  refine renorm_induction
    (P := fun n s =>
      (∀ k, renormD (n + k) s = renormD n s) ∧ (renormD n s).ensures fun _ t => t.iv.settled)
    (fun n s h => ?settled) (fun n s h ih => ?shift) (fun n s h ih => ?widen) n s hle hn
  case settled => exact ⟨fun k => by simp only [renormD_of_settled h], renormD_of_settled h n ▸ h⟩
  case shift =>
    simp only [Nat.add_right_comm, renormD_of_e12 h]
    have hbounds := (s.setIv s.iv.shift).readBit_ensures_bounds
    exact ⟨fun k => Flow.andThen_congr hbounds fun b t ⟨hl, hh⟩ =>
        (ih (t.setIv (t.iv.shiftCode b)) hl hh).1 k,
      Flow.ensures_andThen hbounds fun b t ⟨hl, hh⟩ =>
        (ih (t.setIv (t.iv.shiftCode b)) hl hh).2⟩
  case widen =>
    simp only [Nat.add_right_comm, renormD_of_e3 h]
    have hbounds := (s.setIv s.iv.widen).readBit_ensures_bounds
    exact ⟨fun k => Flow.andThen_congr hbounds fun b t ⟨hl, hh⟩ =>
        (ih (t.setIv (t.iv.widenCode b)) hl hh).1 k,
      Flow.ensures_andThen hbounds fun b t ⟨hl, hh⟩ =>
        (ih (t.setIv (t.iv.widenCode b)) hl hh).2⟩

/-- Settles O37: 16 doublings make any interval whole, and a settled interval is in order. -/
theorem renormEndsInSixteenSteps : Obligations.RenormEndsInSixteenSteps := by
  intro s hle
  have hn : 2 ^ 16 ≤ s.iv.size * 2 ^ 16 := width_steps_suffice hle
  obtain ⟨hsameE, hsetE⟩ := renormE_ends hle hn
  obtain ⟨hsameD, hsetD⟩ := renormD_ends hle hn
  refine ⟨fun n => ⟨hsameE n, hsameD n⟩, fun t h => ?_⟩
  have hset : t.iv.settled := h.elim hsetE.of_goesOn hsetD.of_goesOn
  exact ⟨hset, hset.low_le_high⟩

end Sys2Proof.Machine
end

section
/-! The commands of the encoder (`spec/41_encoder.md`): what each answers when it is legal and the sink
answers `ok`, and when its narrowing fails. -/

namespace Sys2Proof.Machine

theorem State.admits_ebegin {s : State} :
    s.admits .ebegin ↔ s.st = .idle ∧ s.model.mvalid = true := by
  simp [State.admits, Instr.wellFormed, State.legal]

theorem State.legal_esym {s : State} (h : s.st = .encRange) : s.legal .esym = true := by
  simp [State.legal, h]

theorem State.legal_efinish {s : State} (h : s.st = .encEos) : s.legal .efinish = true := by
  simp [State.legal, h]

theorem State.legal_dsym {s : State} (h : s.st = .decRange) : s.legal .dsym = true := by
  simp [State.legal, h]

/-- Settles O38: in `IDLE` with a valid model the command is admitted, and its effect is a fixed interval. -/
theorem ebeginStartsRun : Obligations.EbeginStartsRun := by
  refine fun s => ⟨fun hst hv => ?_, fun h => exec_of_not_admits (mt State.admits_ebegin.mp h)⟩
  exact ⟨_, guarded_of_admits (State.admits_ebegin.mpr ⟨hst, hv⟩) _, rfl, rfl, rfl, rfl, rfl, rfl, rfl,
    rfl, rfl, rfl, rfl⟩

/-! ### The narrowing of `ESYM` and `DSYM` (R145, R147, R175) -/

theorem exec_esym_of_empty {s : State} (hl : s.legal .esym = true) (hn : s.narrowed = none) :
    exec .esym s = .next (s.raise .precisionError (encode .esym)) :=
  (guarded_legal _ _ _ rfl hl).trans (by rw [hn]; rfl)

theorem exec_dsym_of_empty {s : State} (hl : s.legal .dsym = true) (hsym : s.latch.sym ≠ Config.eos)
    (hn : s.narrowed = none) : exec .dsym s = .next (s.raise .precisionError (encode .dsym)) :=
  (guarded_legal _ _ _ rfl hl).trans (by rw [if_neg hsym, hn]; rfl)

theorem exec_dsym_of_eos {s : State} (hsym : s.latch.sym = Config.eos) (hl : s.legal .dsym = true) :
    exec .dsym s = .next ((s.setSt .done).respondOk 0) :=
  (guarded_legal _ _ _ rfl hl).trans (if_pos hsym)

theorem State.effect_dsym {s : State} {nl nh : Bound} (hsym : s.latch.sym ≠ Config.eos)
    (hn : s.narrowed = some (nl, nh)) : s.effect .dsym = some (s.setBounds nl nh).decodeFrom := by
  simp [State.effect, hsym, hn]

/-- Settles O40: both commands raise before their first write. -/
theorem emptyIntervalIsPrecisionError : Obligations.EmptyIntervalIsPrecisionError := fun s hn =>
  ⟨fun hst => ⟨_, exec_esym_of_empty (State.legal_esym hst) hn, s.raise_faultedPre _ _⟩,
    fun hst hsym => ⟨_, exec_dsym_of_empty (State.legal_dsym hst) hsym hn, s.raise_faultedPre _ _⟩⟩

/-- A settled interval is wider than the ceiling of the counts (R147). -/
theorem Interval.settled.ceiling_lt_size {v : Interval} (h : v.settled) : Config.ceiling < v.size := by
  unfold Interval.settled Config.half Config.quarter Config.threeQuarters at h
  unfold Config.ceiling Interval.size
  omega

/-- Where the interval has a position for each count, different counts scale to different positions. -/
theorem scaled_lt_scaled {size rl rh rt : Nat} (hrt : 0 < rt) (hsize : rt ≤ size) (h : rl < rh) :
    size * rl / rt < size * rh / rt := by
  have hstep : size * rl + rt ≤ size * rh :=
    calc size * rl + rt ≤ size * rl + size := Nat.add_le_add_left hsize _
      _ = size * (rl + 1) := (Nat.mul_succ ..).symm
      _ ≤ size * rh := Nat.mul_le_mul_left _ h
  calc size * rl / rt < size * rl / rt + 1 := Nat.lt_succ_self _
    _ = (size * rl + rt) / rt := (Nat.add_div_right _ hrt).symm
    _ ≤ size * rh / rt := Nat.div_le_div_right hstep

theorem State.LatchInv.of_range {s : State} (h : s.LatchInv)
    (hst : s.st = .encRange ∨ s.st = .decRange) : s.rangeLatched := by
  obtain ⟨-, -, hr, -⟩ := h
  exact hr hst

/-- The states in which the narrowing runs have a settled interval (R25). -/
theorem State.IntervalInv.settled_of_range {s : State} (h : s.IntervalInv)
    (hst : s.st = .encRange ∨ s.st = .decRange) : s.iv.settled := by
  rcases hst with hst | hst
  · exact (h.encodes (by rw [hst]; rfl)).1
  · exact (h.decodes (by rw [hst]; rfl)).1

/-- Settles O44: the interval of a run is wider than the total, and the range of a symbol of a sound model
is nonempty. -/
theorem narrowingSucceedsInARun : Obligations.NarrowingSucceedsInARun := by
  rintro s ⟨-, ⟨hsound, -⟩, hiv, hlatch, ⟨-, hvalid⟩, -⟩ hst
  have hm : s.model.sound := hsound (hvalid (by rcases hst with h | h <;> simp [h])
    (by rcases hst with h | h <;> simp [h]))
  have hset := hiv.settled_of_range hst
  obtain ⟨hrl, hrh, hrt⟩ := hlatch.of_range hst
  have hlt : s.latch.rl.toNat < s.latch.rh.toNat := by
    rw [hrl, hrh]
    exact hm.cum_lt_succ hlatch.sym_le
  have hle : s.latch.rh.toNat ≤ s.latch.rt.toNat := by
    rw [hrh, hrt]
    exact hm.cum_le_tot (Nat.succ_le_succ hlatch.sym_le)
  have hsize : s.latch.rt.toNat ≤ s.iv.size := by
    rw [hrt]
    exact hm.tot_le.trans hset.ceiling_lt_size.le
  obtain ⟨nl, nh, hn, -⟩ :=
    narrow_eq_some hset.low_le_high hle (scaled_lt_scaled (hrt ▸ hm.tot_pos) hsize hlt)
  rw [hn]
  exact Option.some_ne_none _

/-! ### Commands whose requests are all taken (R70, R71) -/

theorem Flow.Sends.goesOn_of_ok {c : Channels} {es : List OutEvent} {x : Flow Unit}
    {rest : List SinkAnswer} (hx : x.Sends c es)
    (h : c.sinkAnswers = List.replicate es.length .ok ++ rest) :
    ∃ t, x = .goesOn () t ∧ t.chan = { c with sinkAnswers := rest, events := c.events ++ es } := by
  induction hx with
  | done ht =>
    obtain rfl : _ = rest := h
    exact ⟨_, rfl, by simpa using ht⟩
  | ok hc _ ih =>
    obtain rfl : _ = List.replicate _ .ok ++ rest := by simpa [hc, List.replicate_succ] using h
    simpa using ih rfl
  | fail es hc ht => simp [hc, List.replicate_succ] at h
  | silent es hc ht => simp [hc, List.replicate_succ] at h

/-- A command with channel requests whose requests are all taken ends with its effect and the answer
`(OK, 0)`: the events are made in order, and only the interval and `ST` differ beside them. -/
theorem exec_of_sink_ok {i : Instr} {s : State} {x : Flow Unit} {es : List OutEvent}
    {rest : List SinkAnswer} (hl : s.legal i = true) (hx : s.effect i = some x)
    (hes : x.Sends s.chan es) (h : s.chan.sinkAnswers = List.replicate es.length .ok ++ rest) :
    ∃ u : State, x = .goesOn () u ∧ exec i s = .next (u.respondOk 0) ∧
      (u.respondOk 0).chan =
        { s.chan with
          sinkAnswers := rest
          events := s.chan.events ++ es
          responses := s.chan.responses ++ [{ status := 0#4, data := 0#32 }] } ∧
      u.st = s.stAfter i ∧ u.latch = s.latch ∧ u.model = s.model ∧ u.faults = s.faults ∧
      u.draws = s.draws := by
  obtain ⟨u, rfl, hu⟩ := hes.goesOn_of_ok h
  obtain ⟨hlatch, hmodel, hfaults, hdraws, -⟩ := State.effect_sameRun hx
  exact ⟨u, rfl, exec_of_effect hl hx, by simp [hu], State.effect_st hx, hlatch, hmodel, hfaults, hdraws⟩

/-! ### `EFINISH` (R146) -/

theorem State.finishRun_ensures_iv (s : State) :
    s.finishRun.ensures fun _ t => t.iv = { s.iv with pend := 0#32 } := by
  refine Flow.ensures_andThen ((s.setSt .encFlush).sendOut_ensures _) fun _ t ht => ?_
  refine Flow.ensures_andThen (State.emitTimes_ensures _ _ t) fun _ u hu => ?_
  refine Flow.ensures_andThen (State.sendOut_ensures _ _) fun _ v hv => ?_
  show v.iv = _
  rw [hv, State.setIv_iv, hu, ht, State.setSt_iv]

/-- Settles O41: the events are those that the effect sends, and of the interval it writes `PEND` alone. -/
theorem efinishEndsRun : Obligations.EfinishEndsRun := by
  intro s rest hst h
  rw [← s.finishEvents_length] at h
  obtain ⟨u, hu, hexec, hchan, hst', hlatch, hmodel, hfaults, hdraws⟩ :=
    exec_of_sink_ok (State.legal_efinish hst) rfl s.finishRun_sends h
  have hiv : u.iv = { s.iv with pend := 0#32 } := s.finishRun_ensures_iv.of_goesOn hu
  refine ⟨_, hexec, hst', ?_, ?_, ?_, ?_, ?_, hchan, hlatch, hmodel, hfaults, hdraws⟩ <;>
    rw [State.respondOk_iv, hiv]

/-! ### `ESYM` (R143, R145, R154) -/

/-- `w` is what the steps from `v`, at most `n`, make of it: each doubles the size, and each emits or defers
one bit (R143, R154). -/
structure Interval.RenormedTo (n : Nat) (v w : Interval) : Prop where
  low_le_high : w.low.toNat ≤ w.high.toNat
  size_eq : w.size = 2 ^ Interval.steps n v * v.size
  bits_eq : (Interval.emitted n v).length + w.pend.toNat = v.pend.toNat + Interval.steps n v
  code_eq : w.code = v.code
  eoscnt_eq : w.eoscnt = v.eoscnt

theorem Interval.steps_setPend (n : Nat) (v : Interval) (p : Word) :
    Interval.steps n { v with pend := p } = Interval.steps n v := by
  induction n generalizing v with
  | zero => rfl
  | succ n ih =>
    exact if_congr Iff.rfl (congrArg Nat.succ (ih v.shift))
      (if_congr Iff.rfl (congrArg Nat.succ (ih v.widen)) rfl)

/-- The loop exits where no step applies. -/
theorem Interval.RenormedTo.exit {n : Nat} {v : Interval} (hle : v.low.toNat ≤ v.high.toNat)
    (hsteps : Interval.steps n v = 0) (hemitted : Interval.emitted n v = []) : v.RenormedTo n v where
  low_le_high := hle
  size_eq := by rw [hsteps, Nat.pow_zero, Nat.one_mul]
  bits_eq := by rw [hsteps, hemitted, List.length_nil, Nat.zero_add, Nat.add_zero]
  code_eq := rfl
  eoscnt_eq := rfl

/-- A step from `v` to `u` before the others: one more doubling, and one more bit emitted or pending. -/
theorem Interval.RenormedTo.step {n : Nat} {v u w : Interval} {f : Bound → Bool → Bound}
    (hd : v.Doubles u f) (hcode : u.code = v.code) (heos : u.eoscnt = v.eoscnt)
    (hsteps : Interval.steps (n + 1) v = Interval.steps n u + 1)
    (hbits : (Interval.emitted (n + 1) v).length + u.pend.toNat =
      v.pend.toNat + 1 + (Interval.emitted n u).length)
    (h : u.RenormedTo n w) : v.RenormedTo (n + 1) w where
  low_le_high := h.low_le_high
  size_eq := by rw [h.size_eq, hd.size_eq, hsteps, Nat.pow_succ, Nat.mul_assoc]
  bits_eq := by
    have := h.bits_eq
    omega
  code_eq := h.code_eq.trans hcode
  eoscnt_eq := h.eoscnt_eq.trans heos

theorem Interval.RenormedTo.shift {n : Nat} {v w : Interval} (h12 : (v.e1 || v.e2) = true)
    (hle : v.low.toNat ≤ v.high.toNat)
    (h : Interval.RenormedTo n { v.shift with pend := 0#32 } w) : v.RenormedTo (n + 1) w := by
  refine .step (u := { v.shift with pend := 0#32 }) (Interval.shift_doubles h12 hle) rfl rfl ?_ ?_ h
  · rw [Interval.steps, if_pos h12]
    exact congrArg Nat.succ (Interval.steps_setPend n v.shift _).symm
  · rw [Interval.emitted, if_pos h12]
    simp only [List.length_append, List.length_cons, List.length_replicate, BitVec.toNat_ofNat]
    omega

theorem Interval.RenormedTo.widen {n : Nat} {v w : Interval} (h3 : v.e3 = true)
    (hroom : v.pend.toNat + 1 < 2 ^ 32)
    (h : Interval.RenormedTo n { v.widen with pend := v.pend + 1#32 } w) : v.RenormedTo (n + 1) w := by
  have h12 := Interval.not_e12_of_e3 h3
  refine .step (u := { v.widen with pend := v.pend + 1#32 }) (Interval.widen_doubles h3) rfl rfl ?_ ?_ h
  · rw [Interval.steps, if_neg h12, if_pos h3]
    exact congrArg Nat.succ (Interval.steps_setPend n v.widen _).symm
  · rw [Interval.emitted, if_neg h12, if_pos h3]
    simp only [BitVec.toNat_add, BitVec.toNat_ofNat]
    omega

/-- `PEND` can take the E3 steps before the first E1/E2 step (R226). -/
def Interval.hasRoom (n : Nat) (v : Interval) : Prop := v.pend.toNat + Interval.deferred n v < 2 ^ 32

/-- After an E1/E2 step `PEND` is clear, and a loop has few steps. -/
theorem Interval.hasRoom_shift {n : Nat} (hn : n < 2 ^ 32) (v : Interval) :
    Interval.hasRoom n { v.shift with pend := 0#32 } := by
  rw [Interval.hasRoom, Interval.deferred_setPend]
  have hdef := (Interval.deferred_le_steps n v.shift).trans (Interval.steps_le n _)
  simp only [BitVec.toNat_ofNat]
  omega

theorem Interval.hasRoom_widen {n : Nat} {v : Interval} (h3 : v.e3 = true)
    (hpend : v.pend.toNat + 1 < 2 ^ 32) :
    Interval.hasRoom n { v.widen with pend := v.pend + 1#32 } ↔ Interval.hasRoom (n + 1) v := by
  have hp : (v.pend + 1#32).toNat = v.pend.toNat + 1 := by bv_omega
  simp only [Interval.hasRoom, Interval.deferred_setPend, Interval.deferred, hp,
    if_neg (Interval.not_e12_of_e3 h3), if_pos h3]
  omega

theorem Interval.pend_lt_of_hasRoom {n : Nat} {v : Interval} (h3 : v.e3 = true)
    (h : v.hasRoom (n + 1)) : v.pend.toNat + 1 < 2 ^ 32 := by
  simp only [Interval.hasRoom, Interval.deferred, if_neg (Interval.not_e12_of_e3 h3), if_pos h3] at h
  omega

theorem renormE_ensures_renormedTo (n : Nat) (s : State) (hn : n < 2 ^ 32)
    (hle : s.iv.low.toNat ≤ s.iv.high.toNat) (hroom : s.iv.hasRoom n) :
    (renormE n s).ensures fun _ t => s.iv.RenormedTo n t.iv := by
  induction n generalizing s with
  | zero => exact .exit hle rfl rfl
  | succ n ih =>
    by_cases h12 : (s.iv.e1 || s.iv.e2) = true
    · rw [renormE_of_e12 h12]
      refine Flow.ensures_andThen s.emitTop_ensures fun _ t ht => ?_
      refine (ih t (by omega) ?_ ?_).mono fun _ w hw => .shift h12 hle (ht ▸ hw) <;> rw [ht]
      · exact (Interval.shift_doubles h12 hle).low_le_high hle
      · exact Interval.hasRoom_shift (by omega) _
    · by_cases h3 : s.iv.e3 = true
      · have hpend := Interval.pend_lt_of_hasRoom h3 hroom
        rw [renormE_of_e3 h3]
        refine Flow.ensures_andThen s.deferBit_ensures fun _ t ht => ?_
        refine (ih t (by omega) ?_ ?_).mono fun _ w hw => .widen h3 hpend (ht ▸ hw) <;> rw [ht]
        · exact (Interval.widen_doubles h3).low_le_high hle
        · exact (Interval.hasRoom_widen h3 hpend).mpr hroom
      · rw [renormE, if_neg h12, if_neg h3]
        exact .exit hle (by rw [Interval.steps, if_neg h12, if_neg h3])
          (by rw [Interval.emitted, if_neg h12, if_neg h3])

/-- Without that room the loop raises `PrecisionError`, and has sent nothing (R143, R226). -/
theorem renormE_raises_of_no_room (n : Nat) (s : State) (h : ¬s.iv.hasRoom n) :
    ∃ u, renormE n s = .raises .precisionError u ∧ u.chan = s.chan := by
  have hpend := s.iv.pend.isLt
  induction n generalizing s with
  | zero => exact absurd hpend h
  | succ n ih =>
    by_cases h12 : (s.iv.e1 || s.iv.e2) = true
    · simp only [Interval.hasRoom, Interval.deferred, if_pos h12] at h
      exact absurd hpend h
    · by_cases h3 : s.iv.e3 = true
      · rw [renormE_of_e3 h3]
        by_cases hmax : s.iv.pend = Config.maxPending
        · exact ⟨s, by rw [State.deferBit_of_max hmax, Flow.andThen_raises], rfl⟩
        · have hroom : s.iv.pend.toNat + 1 < 2 ^ 32 := by
            unfold Config.maxPending at hmax
            bv_omega
          rw [State.deferBit_of_room hroom, Flow.andThen_goesOn]
          exact ih _ (mt (Interval.hasRoom_widen h3 hroom).mp h) (BitVec.isLt _)
      · simp only [Interval.hasRoom, Interval.deferred, if_neg h12, if_neg h3] at h
        exact absurd hpend h

theorem State.encodeFrom_ensures_renormedTo {s : State} (hle : s.iv.low.toNat ≤ s.iv.high.toNat)
    (hroom : s.iv.hasRoom Config.width) :
    s.encodeFrom.ensures fun _ t => s.iv.RenormedTo Config.width t.iv :=
  Flow.ensures_andThen (renormE_ensures_renormedTo _ s (by decide) hle hroom) fun _ _ ht => ht

theorem State.encodeFrom_ensures_settled {s : State} (hle : s.iv.low.toNat ≤ s.iv.high.toNat) :
    s.encodeFrom.ensures fun _ t => t.iv.settled :=
  Flow.ensures_andThen (renormE_ends hle (width_steps_suffice hle)).2 fun _ _ ht => ht

/-- Settles O39: with room in `PEND` the loop sends the bits of its steps and ends settled, without it the
loop raises before it sends. -/
theorem esymCompletes : Obligations.EsymCompletes := by
  intro s nl nh rest hst hn v
  have hl := State.legal_esym hst
  have hx := State.effect_esym hn
  obtain ⟨-, -, hle⟩ := narrow_some hn
  refine ⟨fun hroom h => ?_, fun hover => ?_⟩
  · obtain ⟨u, hu, hexec, hchan, hst', hlatch, hmodel, hfaults, hdraws⟩ :=
      exec_of_sink_ok (rest := rest) hl hx (State.encodeFrom_sends (s := s.setBounds nl nh) hroom)
        (by rwa [List.length_map])
    have hto : v.RenormedTo 16 u.iv :=
      (State.encodeFrom_ensures_renormedTo (s := s.setBounds nl nh) hle hroom).of_goesOn hu
    have hset : u.iv.settled :=
      (State.encodeFrom_ensures_settled (s := s.setBounds nl nh) hle).of_goesOn hu
    refine ⟨_, hexec, ?_, Interval.steps_le 16 v, hset, hto.low_le_high, hto.bits_eq, hchan, hst',
      hto.code_eq, hto.eoscnt_eq, hlatch, hmodel, hfaults, hdraws⟩
    rw [State.respondOk_iv, Interval.size_eq_sub_add_one hto.low_le_high, hto.size_eq,
      ← Interval.size_eq_sub_add_one (v := v) hle]
  · obtain ⟨u, hu, hchan⟩ :=
      renormE_raises_of_no_room Config.width (s.setBounds nl nh) (Nat.not_lt.mpr hover)
    have hraise : (s.setBounds nl nh).encodeFrom = .raises .precisionError u := by
      rw [State.encodeFrom, hu, Flow.andThen_raises]
    rw [hraise] at hx
    refine ⟨_, exec_of_effect hl hx, State.raiseMid_faultedMid _ _ (State.effect_sameRun hx) ?_, ?_, ?_,
      ?_⟩ <;> simp [hchan, State.setBounds]

end Sys2Proof.Machine
end

section
/-! The micro-steps refine the command rules (R150 to R152). A sequencer performs a part of a command if it
comes back to `RN_IDLE` in the state in which the command ends after that part; the phases are put
together request by request, as the part is. -/

namespace Sys2Proof.Machine

theorem Flow.andThen_assoc {α β γ : Type} (x : Flow α) (f : α → State → Flow β)
    (g : β → State → Flow γ) : (x.andThen f).andThen g = x.andThen fun a s => (f a s).andThen g := by
  cases x <;> rfl

/-! ### Coming back to `RN_IDLE` -/

/-- Some number of micro-steps from `m` ends in `RN_IDLE` with the state `t`. -/
def Micro.reaches (m : Micro) (t : State) : Prop :=
  ∃ n, (microRun n m).phase = .idle ∧ (microRun n m).st = t

theorem Micro.reaches_of_idle {m : Micro} (h : m.phase = .idle) : m.reaches m.st := ⟨0, h, rfl⟩

theorem Micro.reaches_of_step {m : Micro} {t : State} (h : (microStep m).reaches t) : m.reaches t := by
  obtain ⟨n, hphase, hst⟩ := h
  exact ⟨n + 1, hphase, hst⟩

/-- From `m` the micro-steps end as the command does after its part `x`, unless it waits. -/
def Micro.performs (m : Micro) (x : Flow Unit) : Prop :=
  ∀ t, finish m.instr 0 x = .next t → t.chan.waiting = none → m.reaches t

theorem Micro.performs_of_step {m m' : Micro} {x : Flow Unit} (hm : microStep m = m')
    (hi : m'.instr = m.instr) (h : m'.performs x) : m.performs x := by
  intro t ht hw
  refine Micro.reaches_of_step (hm ▸ h t ?_ hw)
  rwa [hi]

/-- A command that is at its end has its answer (R151). -/
theorem Micro.performs_of_answered {m : Micro} {u : State} (hp : m.phase = .idle)
    (hst : m.st = u.respondOk 0) : m.performs (.goesOn () u) := by
  rintro t ht -
  obtain rfl := next_eq ht
  exact hst ▸ Micro.reaches_of_idle hp

/-! ### A phase that makes a request (R151) -/

theorem Micro.performs_request {α : Type} {m : Micro} {x : Flow α} {next : α → State → Micro}
    {f : α → State → Flow Unit} {Q : α → State → Prop} (hm : microStep m = m.request x next)
    (hx : x.ensures Q) (hi : ∀ a s, (next a s).instr = m.instr)
    (hf : ∀ a s, Q a s → (next a s).performs (f a s)) : m.performs (x.andThen f) := by
  cases x with
  | goesOn a s => exact Micro.performs_of_step hm (hi a s) (hf a s hx)
  | raises k s =>
    rintro t ht -
    obtain rfl := next_eq ht
    exact Micro.reaches_of_step (hm ▸ Micro.reaches_of_idle rfl)
  | waits s =>
    intro t ht hw
    obtain rfl := next_eq ht
    exact absurd hw hx

/-- A bit-out request of a sequencer whose interval may already differ from the command's: `PEND` counts
down in it. A fault leaves the same state, for it frees the interval (R232). -/
theorem Micro.performs_send {m : Micro} {u : State} {e : OutEvent} {next : Unit → State → Micro}
    {f : Unit → State → Flow Unit} (hm : microStep m = m.request (m.st.sendOut e) next)
    (hst : m.st = u.setIv m.st.iv) (hi : ∀ a s, (next a s).instr = m.instr)
    (hf : ∀ c, (next () ((u.setChan c).setIv m.st.iv)).performs (f () (u.setChan c))) :
    m.performs ((u.sendOut e).andThen f) := by
  have hchan : m.st.chan = u.chan := by rw [hst]; rfl
  cases ha : u.chan.sinkAnswers with
  | nil =>
    rw [State.sendOut_silent u e ha]
    intro t ht hw
    obtain rfl := next_eq ht
    cases hw
  | cons a rest =>
    cases a with
    | ok =>
      rw [State.sendOut_ok m.st e rest (by rw [hchan, ha]), hst] at hm
      rw [State.sendOut_ok u e rest ha]
      exact Micro.performs_of_step hm (hi _ _) (hf _)
    | fail =>
      rw [State.sendOut_fail m.st e rest (by rw [hchan, ha]), hst] at hm
      rw [State.sendOut_fail u e rest ha]
      rintro t ht -
      obtain rfl := next_eq ht
      exact Micro.reaches_of_step (hm ▸ Micro.reaches_of_idle rfl)

/-- The sequencer with `p` complement bits to come: in the phase `more` until there is none, then in
`last`. -/
def Micro.counting (m : Micro) (more last : Phase) (u : State) (p : Word) : Micro :=
  { m with st := u.setIv { u.iv with pend := p }, phase := if p = 0#32 then last else more }

/-- The phases `RN_FOLLOW` and `RN_FIN3`: one bit a micro-step while `PEND` counts down. -/
theorem Micro.performs_emitTimes {m : Micro} {more last : Phase} {b : Bool} {s : State}
    {f : Unit → State → Flow Unit}
    (hstep : ∀ c p, p ≠ 0#32 →
      microStep (m.counting more last (s.setChan c) p) =
        (m.counting more last (s.setChan c) p).request
          ((m.counting more last (s.setChan c) p).st.sendOut (.emit b))
          fun _ t => m.counting more last t (t.iv.pend - 1#32))
    (hlast : ∀ c, (m.counting more last (s.setChan c) 0#32).performs (f () (s.setChan c)))
    (n : Nat) (c : Channels) (p : Word) (hp : p.toNat = n) :
    (m.counting more last (s.setChan c) p).performs
      ((State.emitTimes n b (s.setChan c)).andThen f) := by
  induction n generalizing c p with
  | zero =>
    obtain rfl : p = 0#32 := by bv_omega
    exact hlast c
  | succ n ih =>
    rw [State.emitTimes, Flow.andThen_assoc]
    refine Micro.performs_send (hstep c p (by bv_omega)) rfl (fun _ _ => rfl) fun c' => ?_
    exact ih c' (p - 1#32) (by bv_omega)

/-! ### The phases of the loops -/

/-- The sequencer in the phase `p` with the state `s`. -/
def Micro.inPhase (m : Micro) (p : Phase) (s : State) : Micro := { m with st := s, phase := p }

theorem Micro.test_of_e12 {m : Micro} {s : State} (h : (s.iv.e1 || s.iv.e2) = true) :
    microStep (m.inPhase .test s) = m.inPhase (if m.encodes then .emit else .shift) s :=
  if_pos h

theorem Micro.test_of_e3 {m : Micro} {s : State} (h : s.iv.e3 = true) :
    microStep (m.inPhase .test s) = m.inPhase .under s :=
  (if_neg (Interval.not_e12_of_e3 h)).trans (if_pos h)

theorem Micro.test_of_settled {m : Micro} {s : State} (h : s.iv.settled) :
    microStep (m.inPhase .test s) =
      if m.encodes then m.finished s (if s.latch.sym = Config.eos then .encEos else .encReady)
      else m.finished s .decReady := by
  obtain ⟨h12, h3⟩ := h.no_step
  exact (if_neg h12).trans (if_neg h3)

theorem Micro.encodes_of_esym {m : Micro} (h : m.instr = .esym) : m.encodes = true := by
  simp [Micro.encodes, h]

theorem Micro.encodes_of_dsym {m : Micro} (h : m.instr = .dsym) : m.encodes = false := by
  simp [Micro.encodes, h]

/-! ### `RenormE` (R143) -/

/-- The E3 step writes the interval alone. -/
theorem State.deferBit_ensures_eq (s : State) :
    s.deferBit.ensures fun _ t => t = s.setIv { s.iv.widen with pend := s.iv.pend + 1#32 } := by
  unfold State.deferBit
  split
  · trivial
  · rfl

section
variable {m : Micro} (hm : m.instr = .esym)

include hm

/-- The E1/E2 step of the encoder: `RN_EMIT`, `RN_FOLLOW`, `RN_SHIFT`. -/
theorem Micro.performs_emitTop {s : State} {f : Unit → State → Flow Unit}
    (hf : ∀ c, (m.inPhase .test ((s.setIv { s.iv.shift with pend := 0#32 }).setChan c)).performs
      (f () ((s.setIv { s.iv.shift with pend := 0#32 }).setChan c))) :
    (m.inPhase .emit s).performs (s.emitTop.andThen f) := by
  rw [State.emitTop, Flow.andThen_assoc]
  refine Micro.performs_send rfl rfl (fun _ _ => rfl) fun c => ?_
  rw [Flow.andThen_assoc]
  refine Micro.performs_emitTimes (m := m) (more := .follow) (last := .shift) (s := s)
    (fun c p hp => ?follow) (fun c => ?shift) _ c s.iv.pend rfl
  case follow => simp [microStep, Micro.counting, hp, Micro.followStep, State.emit]
  case shift => exact Micro.performs_of_step (if_pos (Micro.encodes_of_esym hm)) rfl (hf c)

/-- The E3 step of the encoder: `RN_UNDER`. -/
theorem Micro.performs_deferBit {s : State} {f : Unit → State → Flow Unit}
    (hf : (m.inPhase .test (s.setIv { s.iv.widen with pend := s.iv.pend + 1#32 })).performs
      (f () (s.setIv { s.iv.widen with pend := s.iv.pend + 1#32 }))) :
    (m.inPhase .under s).performs (s.deferBit.andThen f) :=
  Micro.performs_request (if_pos (Micro.encodes_of_esym hm)) s.deferBit_ensures_eq
    (fun _ _ => rfl) fun _ _ ht => ht ▸ hf

theorem Micro.performs_renormE {n : Nat} {s : State} {q : Seq}
    (hq : q = if s.latch.sym = Config.eos then .encEos else .encReady)
    (hle : s.iv.low.toNat ≤ s.iv.high.toNat) (hn : 2 ^ 16 ≤ s.iv.size * 2 ^ n) :
    (m.inPhase .test s).performs ((renormE n s).andThen fun _ t => .goesOn () (t.setSt q)) := by
  have henc := Micro.encodes_of_esym hm
  refine renorm_induction
    (P := fun n s => q = (if s.latch.sym = Config.eos then .encEos else .encReady) →
      (m.inPhase .test s).performs ((renormE n s).andThen fun _ t => .goesOn () (t.setSt q)))
    (fun n s h hq => ?settled) (fun n s h ih hq => ?shift) (fun n s h ih hq => ?widen) n s hle hn hq
  case settled =>
    have hstep := (Micro.test_of_settled (m := m) h).trans (if_pos henc)
    rw [renormE_of_settled h, Flow.andThen_goesOn, hq]
    exact Micro.performs_of_step hstep rfl (Micro.performs_of_answered rfl rfl)
  case shift =>
    have hstep : microStep (m.inPhase .test s) = m.inPhase .emit s := by
      rw [Micro.test_of_e12 h, if_pos henc]
    rw [renormE_of_e12 h, Flow.andThen_assoc]
    exact Micro.performs_of_step hstep rfl (Micro.performs_emitTop hm fun c => ih _ rfl rfl hq)
  case widen =>
    rw [renormE_of_e3 h, Flow.andThen_assoc]
    exact Micro.performs_of_step (Micro.test_of_e3 h) rfl
      (Micro.performs_deferBit hm (ih _ rfl rfl hq))

end

/-! ### `RenormD` (R173) and the fill of `CODE` (R170) -/

theorem Micro.performs_renormD {m : Micro} (hm : m.instr = .dsym) {n : Nat} {s : State}
    (hle : s.iv.low.toNat ≤ s.iv.high.toNat) (hn : 2 ^ 16 ≤ s.iv.size * 2 ^ n) :
    (m.inPhase .test s).performs ((renormD n s).andThen fun _ t => .goesOn () (t.setSt .decReady)) := by
  have henc : ¬m.encodes = true := by simp [Micro.encodes_of_dsym hm]
  refine renorm_induction
    (P := fun n s => (m.inPhase .test s).performs
      ((renormD n s).andThen fun _ t => .goesOn () (t.setSt .decReady)))
    (fun n s h => ?settled) (fun n s h ih => ?shift) (fun n s h ih => ?widen) n s hle hn
  case settled =>
    have hstep := (Micro.test_of_settled (m := m) h).trans (if_neg henc)
    rw [renormD_of_settled h, Flow.andThen_goesOn]
    exact Micro.performs_of_step hstep rfl (Micro.performs_of_answered rfl rfl)
  case shift =>
    have hstep : microStep (m.inPhase .test s) = m.inPhase .shift s := by
      rw [Micro.test_of_e12 h, if_neg henc]
    rw [renormD_of_e12 h, Flow.andThen_assoc]
    exact Micro.performs_of_step hstep rfl
      (Micro.performs_request (if_neg henc) (State.readBit_ensures_bounds _) (fun _ _ => rfl)
        fun b t ⟨hl, hh⟩ => ih (t.setIv (t.iv.shiftCode b)) hl hh)
  case widen =>
    rw [renormD_of_e3 h, Flow.andThen_assoc]
    exact Micro.performs_of_step (Micro.test_of_e3 h) rfl
      (Micro.performs_request (if_neg henc) (State.readBit_ensures_bounds _) (fun _ _ => rfl)
        fun b t ⟨hl, hh⟩ => ih (t.setIv (t.iv.widenCode b)) hl hh)

/-- `RN_FILL` reads the bits that are left of the first W. -/
theorem Micro.performs_fillCode {m : Micro} (hm : m.phase = .fill) (n : Nat)
    (hn : m.filled + (n + 1) = Config.width) :
    m.performs ((fillCode (n + 1) m.st).andThen fun _ t => .goesOn () (t.setSt .decReady)) := by
  have hstep : microStep m = m.fillStep := by simp only [microStep, hm]
  induction n generalizing m with
  | zero =>
    rw [fillCode, Flow.andThen_assoc]
    refine Micro.performs_request hstep m.st.readBit_ensures (fun b t => by split <;> rfl) fun b t _ => ?_
    rw [if_pos hn]
    exact Micro.performs_of_answered rfl rfl
  | succ n ih =>
    rw [fillCode, Flow.andThen_assoc]
    refine Micro.performs_request hstep m.st.readBit_ensures (fun b t => by split <;> rfl) fun b t _ => ?_
    have hleft : m.filled + 1 + (n + 1) = Config.width := by omega
    rw [if_neg (by omega)]
    exact ih hm hleft (by simp only [microStep, hm])

/-! ### `EFINISH` (R146): `RN_FIN1`, `RN_FIN2`, `RN_FIN3`, `RN_FLUSH` -/

theorem Micro.performs_finishRun {m : Micro} {s : State} (hp : m.phase = .fin1)
    (hst : m.st = s.setSt .encFlush) : m.performs s.finishRun := by
  obtain ⟨st, i, p, k, fb⟩ := m
  obtain rfl : st = s.setSt .encFlush := hst
  obtain rfl : p = .fin1 := hp
  refine Micro.performs_send rfl rfl (fun _ _ => rfl) fun c => ?_
  rw [State.emitTimes, Flow.andThen_assoc]
  refine Micro.performs_send (u := (s.setSt .encFlush).setChan c) rfl rfl (fun _ _ => rfl) fun c' => ?_
  refine Micro.performs_emitTimes (more := .fin3) (last := .flush) (s := s.setSt .encFlush)
    (m := { st := s.setSt .encFlush, instr := i, phase := .fin1, filled := k, fb := s.iv.low.getLsbD 14 })
    (fun d p hp => ?fin3) (fun d => ?flush) _ c' s.iv.pend rfl
  case fin3 => simp [microStep, Micro.counting, hp, Micro.fin3Step, State.emit]
  case flush =>
    exact Micro.performs_send rfl rfl (fun _ _ => rfl) fun _ => Micro.performs_of_answered rfl rfl

/-! ### From acceptance on (R151, R152) -/

/-- `RN_NARROW`: the command ends with `PrecisionError`, or the loop runs from the narrowed bounds. -/
theorem Micro.reaches_of_narrow {m : Micro} {t : State} (hp : m.phase = .narrow)
    (hw : t.chan.waiting = none)
    (hnone : m.st.narrowed = none → t = m.st.raise .precisionError (encode m.instr))
    (hsome : ∀ nl nh, m.st.narrowed = some (nl, nh) →
      ∃ x, finish m.instr 0 x = .next t ∧ (m.inPhase .test (m.st.setBounds nl nh)).performs x) :
    m.reaches t := by
  have hstep : microStep m = m.narrowStep := by simp only [microStep, hp]
  refine Micro.reaches_of_step ?_
  rw [hstep, Micro.narrowStep]
  split
  · next hn => exact hnone hn ▸ Micro.reaches_of_idle rfl
  · next nl nh hn =>
    obtain ⟨x, hx, hperforms⟩ := hsome nl nh hn
    exact hperforms t hx hw

theorem Micro.reaches_exec_esym {m : Micro} {t : State} (hp : m.phase = .narrow) (hi : m.instr = .esym)
    (hl : m.st.legal .esym = true) (ht : exec .esym m.st = .next t) (hw : t.chan.waiting = none) :
    m.reaches t := by
  refine Micro.reaches_of_narrow hp hw (fun hn => ?_) fun nl nh hn =>
    ⟨(m.st.setBounds nl nh).encodeFrom, ?_, ?loop⟩
  · rw [hi]
    exact next_eq ((exec_esym_of_empty hl hn).symm.trans ht)
  · rw [hi, ← exec_of_effect hl (State.effect_esym hn)]
    exact ht
  case loop =>
    obtain ⟨-, -, hle⟩ := narrow_some hn
    exact Micro.performs_renormE hi rfl hle (width_steps_suffice hle)

theorem Micro.reaches_exec_dsym {m : Micro} {t : State} (hp : m.phase = .narrow) (hi : m.instr = .dsym)
    (hsym : m.st.latch.sym ≠ Config.eos) (hl : m.st.legal .dsym = true)
    (ht : exec .dsym m.st = .next t) (hw : t.chan.waiting = none) : m.reaches t := by
  refine Micro.reaches_of_narrow hp hw (fun hn => ?_) fun nl nh hn =>
    ⟨(m.st.setBounds nl nh).decodeFrom, ?_, ?loop⟩
  · rw [hi]
    exact next_eq ((exec_dsym_of_empty hl hsym hn).symm.trans ht)
  · rw [hi, ← exec_of_effect hl (State.effect_dsym hsym hn)]
    exact ht
  case loop =>
    obtain ⟨-, -, hle⟩ := narrow_some hn
    exact Micro.performs_renormD hi hle (width_steps_suffice hle)

/-- Settles O60: from acceptance the sequencer performs the effect of its command, or stops with it where
its narrowing fails. -/
theorem microStepsRefineCommands : Obligations.MicroStepsRefineCommands := by
  intro i s t m hl _ hm ht hw
  cases i <;> simp only [accept, Option.some.injEq, reduceCtorEq] at hm
  case esym =>
    subst hm
    exact Micro.reaches_exec_esym rfl rfl hl ht hw
  case efinish =>
    subst hm
    exact Micro.performs_finishRun rfl rfl t ((exec_of_effect hl rfl).symm.trans ht) hw
  case dbegin =>
    subst hm
    exact Micro.performs_fillCode rfl 15 rfl t ((exec_of_effect hl rfl).symm.trans ht) hw
  case dsym =>
    split at hm
    · next hsym =>
      cases hm
      obtain rfl := next_eq ((exec_dsym_of_eos hsym hl).symm.trans ht)
      exact Micro.reaches_of_idle rfl
    · next hsym =>
      cases hm
      exact Micro.reaches_exec_dsym rfl rfl hsym hl ht hw

end Sys2Proof.Machine
end

section
/-! The scaled value of `GETCNT`, and the decoder's narrowing in numbers (R171, R172, R180): one equivalence
turns each test of a position into a test of a count. -/

namespace Sys2Proof.Machine

/-! ### The scaled value (R171) -/

/-- The number that `GETCNT` computes from the bounds, the code and the total, where it computes one. -/
def scaledValue (lo hi code : Bound) (tot : Nat) : Nat :=
  ((code.toNat - lo.toNat + 1) * tot - 1) / (hi.toNat - lo.toNat + 1)

/-- It is the largest count that scales to a position not above the code's (R180). -/
theorem le_scaledValue_iff {lo hi code : Bound} {tot : Nat} (htot : 0 < tot) (r : Nat) :
    r ≤ scaledValue lo hi code tot ↔
      (hi.toNat - lo.toNat + 1) * r / tot ≤ code.toNat - lo.toNat := by
  have hpos : 0 < (code.toNat - lo.toNat + 1) * tot := Nat.mul_pos (Nat.succ_pos _) htot
  rw [scaledValue, Nat.le_div_iff_mul_le (Nat.succ_pos _), Nat.le_sub_one_iff_lt hpos,
    ← Nat.lt_succ_iff (m := (hi.toNat - lo.toNat + 1) * r / tot), Nat.div_lt_iff_lt_mul htot,
    Nat.mul_comm r]

/-- R172: it reaches the total exactly if the code is above `HIGH`. -/
theorem tot_le_scaledValue_iff {lo hi code : Bound} {tot : Nat} (htot : 0 < tot)
    (hle : lo.toNat ≤ hi.toNat) : tot ≤ scaledValue lo hi code tot ↔ hi.toNat < code.toNat := by
  rw [le_scaledValue_iff htot, Nat.mul_div_cancel _ htot]
  omega

/-! ### `GETCNT` (R171, R172) -/

theorem State.admits_getcnt {s : State} : s.admits .getcnt ↔ s.st = .decReady := by
  simp [State.admits, Instr.wellFormed, State.legal]

theorem State.scaled_of_code_lt {s : State} (h : s.iv.code.toNat < s.iv.low.toNat) : s.scaled = none :=
  if_pos h

/-- On an interval that is not empty, with the code at or above `LOW`, the value alone decides. -/
theorem State.scaled_of_low_le {s : State} (hle : s.iv.low.toNat ≤ s.iv.high.toNat)
    (hlow : s.iv.low.toNat ≤ s.iv.code.toNat) :
    s.scaled =
      if s.model.tot.toNat ≤ scaledValue s.iv.low s.iv.high s.iv.code s.model.tot.toNat then none
      else some (scaledValue s.iv.low s.iv.high s.iv.code s.model.tot.toNat) := by
  rw [State.scaled, if_neg (by omega), if_neg (by omega), Nat.sub_add_comm hle]
  rfl

theorem exec_getcnt_of_scaled {s : State} {n : Nat} (hst : s.st = .decReady) (hn : s.scaled = some n) :
    exec .getcnt s =
      .next (((s.setLatch { s.latch with sv := BitVec.ofNat 15 n }).setSt .decCount).respondOk
        (BitVec.ofNat 32 n)) :=
  (guarded_of_admits (State.admits_getcnt.mpr hst) _).trans (by rw [hn])

theorem exec_getcnt_of_no_scaled {s : State} (hst : s.st = .decReady) (hn : s.scaled = none) :
    ∃ t, exec .getcnt s = .next t ∧ s.faultedPre t .corruptStreamError (encode .getcnt) :=
  ⟨_, (guarded_of_admits (State.admits_getcnt.mpr hst) _).trans (by rw [hn]; rfl),
    s.raise_faultedPre _ _⟩

/-- Settles O48: inside the interval the value is below the total, above `HIGH` it is not, and below `LOW`
none is computed. -/
theorem getcntScales : Obligations.GetcntScales := by
  refine fun s => ⟨fun hst hlow hhigh htot => ?_, fun hst hle htot hbad => ?_,
    fun hst hle htot habove => ?_, fun hst => exec_of_not_admits (mt State.admits_getcnt.mp hst)⟩
  · have hle := hlow.trans hhigh
    have hin := mt (tot_le_scaledValue_iff htot hle).mp hhigh.not_gt
    have hlt := Nat.not_le.mp hin
    have hscaled := (State.scaled_of_low_le hle hlow).trans (if_neg hin)
    have hfit := hlt.trans s.model.tot.isLt
    have hsv := (BitVec.toNat_ofNat ..).trans (Nat.mod_eq_of_lt hfit)
    refine ⟨_, exec_getcnt_of_scaled hst hscaled, hsv, hsv.trans_lt hlt, rfl, rfl, rfl, rfl, rfl, rfl, rfl,
      rfl, rfl, ?_⟩
    rw [State.respondOk_latch, State.setSt_latch, State.setLatch_latch,
      BitVec.setWidth_ofNat_of_le_of_lt (by decide) hfit]
    rfl
  · by_cases hlow : s.iv.code.toNat < s.iv.low.toNat
    · exact exec_getcnt_of_no_scaled hst (State.scaled_of_code_lt hlow)
    · exact exec_getcnt_of_no_scaled hst ((State.scaled_of_low_le hle (Nat.not_lt.mp hlow)).trans
        (if_pos (hbad.resolve_left hlow)))
  · exact exec_getcnt_of_no_scaled hst ((State.scaled_of_low_le hle (hle.trans habove.le)).trans
      (if_pos ((tot_le_scaledValue_iff htot hle).mpr habove)))

/-! ### `DSYM` of the end-of-stream symbol (R175) -/

/-- Settles O49: only `ST` is written. -/
theorem dsymOfEosEndsRun : Obligations.DsymOfEosEndsRun := fun _ hst hsym =>
  ⟨_, exec_dsym_of_eos hsym (State.legal_dsym hst), rfl, rfl, rfl, rfl, rfl, rfl, rfl⟩

/-! ### In a run there is no `CorruptStreamError` in the scaling (R179) -/

theorem State.Boundary.sound_of_decoding {s : State} (h : s.Boundary) (hst : s.st.decoding = true) :
    s.model.sound := by
  obtain ⟨-, ⟨hsound, -⟩, -, -, ⟨-, hvalid⟩, -⟩ := h
  refine hsound (hvalid ?_ ?_) <;> intro h <;> rw [h] at hst <;> cases hst

/-- Settles O53: in a run the code is in the interval, and `SV` is below the total of a sound model. -/
theorem noCorruptionInScaling : Obligations.NoCorruptionInScaling := by
  intro s hs
  obtain ⟨-, -, hiv, ⟨-, hsv, -⟩, -⟩ := id hs
  refine ⟨fun hst => ?_, fun hst => ?_⟩
  · have hdec : s.st.decoding = true := by rw [hst]; rfl
    obtain ⟨-, hlow, hhigh, -⟩ := hiv.decodes hdec
    obtain ⟨hscales, -⟩ := getcntScales s
    obtain ⟨t, ht, -, -, -, -, -, -, hst', -⟩ :=
      hscales hst hlow hhigh (hs.sound_of_decoding hdec).tot_pos
    exact ⟨t, ht, hst'⟩
  · have hm := hs.sound_of_decoding (by rw [hst]; rfl)
    obtain ⟨k, hat, hk, -⟩ := hm.exists_symbolAt (hsv hst)
    exact ⟨_, exec_getsym_of_symbolAt hst hm (hsv hst) hk hat, rfl⟩

/-! ### The symbol that a code stands for (R180) -/

/-- The narrowed interval holds the code exactly when the range holds the scaled value. -/
theorem narrow_holds_iff {lo hi code nl nh : Bound} {rl rh rt : Count} (hrt : 0 < rt.toNat)
    (hlo : lo.toNat ≤ code.toNat) (hhi : code.toNat ≤ hi.toNat)
    (hn : narrow lo hi rl rh rt = some (nl, nh)) :
    nl.toNat ≤ code.toNat ∧ code.toNat ≤ nh.toNat ↔
      rl.toNat ≤ scaledValue lo hi code rt.toNat ∧ scaledValue lo hi code rt.toNat < rh.toNat := by
  obtain ⟨hnl, hnh, -⟩ := narrow_some hn
  rw [Nat.sub_add_comm (hlo.trans hhi)] at hnl hnh
  rw [le_scaledValue_iff hrt, ← Nat.not_le (a := rh.toNat), le_scaledValue_iff hrt]
  omega

/-- A range that holds the scaled value does not narrow to nothing. -/
theorem narrow_eq_some_of_scaledValue {lo hi code : Bound} {rl rh rt : Count} (hrt : 0 < rt.toNat)
    (hle : lo.toNat ≤ hi.toNat) (hrh : rh.toNat ≤ rt.toNat)
    (hl : rl.toNat ≤ scaledValue lo hi code rt.toNat)
    (hh : scaledValue lo hi code rt.toNat < rh.toNat) :
    ∃ nl nh, narrow lo hi rl rh rt = some (nl, nh) := by
  rw [le_scaledValue_iff hrt] at hl
  rw [← Nat.not_le, le_scaledValue_iff hrt] at hh
  obtain ⟨nl, nh, hn, -⟩ := narrow_eq_some hle hrh (by
    rw [Nat.sub_add_comm hle]
    exact hl.trans_lt (Nat.not_le.mp hh))
  exact ⟨nl, nh, hn⟩

/-- A cumulative count of a sound model fits the latch (R26). -/
theorem Model.sound.toNat_cum {m : Model} (hm : m.sound) {k : Nat} (hk : k ≤ 257) :
    (BitVec.ofNat 15 (CountTable.cum m.cnt k)).toNat = CountTable.cum m.cnt k := by
  have hcum := hm.cum_le_tot hk
  have htot := hm.tot_le
  exact (BitVec.toNat_ofNat ..).trans (Nat.mod_eq_of_lt (by omega))

/-- Settles O52: an interval holds the code exactly when its range holds the scaled value, and one range
does. -/
theorem symbolRecovery : Obligations.SymbolRecovery := by
  intro m lo hi code k hm hlo hhi hk hkl hkh j nl nh hj
  have htot := hm.tot_pos
  refine ⟨fun _ => ?_, fun hn hnl hnh => ?_⟩
  · have hl := hm.toNat_cum (k := k) (by omega)
    have hh := hm.toNat_cum (k := k + 1) (by omega)
    obtain ⟨l, h, hn⟩ := narrow_eq_some_of_scaledValue (code := code) htot (hlo.trans hhi)
      (hh.trans_le (hm.cum_le_tot (by omega))) (hl.trans_le hkl) (hkh.trans_eq hh.symm)
    exact ⟨l, h, hn, (narrow_holds_iff htot hlo hhi hn).mpr ⟨hl.trans_le hkl, hkh.trans_eq hh.symm⟩⟩
  · have hin := (narrow_holds_iff htot hlo hhi hn).mp ⟨hnl, hnh⟩
    rw [hm.toNat_cum (by omega), hm.toNat_cum (by omega)] at hin
    exact CountTable.range_unique m.cnt hin ⟨hkl, hkh⟩

end Sys2Proof.Machine
end

section
/-! The decoder's loop a step at a time (R173), by what its one request is answered (R72). -/

namespace Sys2Proof.Machine

/-- An answer that is taken gives its bit, and only the channel and `EOSCNT` move (R72). -/
theorem State.readBit_of_takenAs {s : State} {a : SourceAnswer} {b : Bool} {e : BitVec 4}
    {rest : List SourceAnswer} (h : s.chan.sourceAnswers = a :: rest)
    (ha : a.takenAs s.iv.eoscnt b e) :
    s.readBit =
      .goesOn b
        ((s.setChan { s.chan with sourceAnswers := rest }).setIv { s.iv with eoscnt := e }) := by
  rcases ha with ⟨rfl, rfl⟩ | ⟨rfl, rfl, hlt, he⟩
  · exact s.readBit_bit b rest h
  · obtain rfl : e = s.iv.eoscnt + 1#4 := by
      unfold Config.eosLimit at hlt
      bv_omega
    exact s.readBit_endOfStream rest h hlt

theorem Interval.e3_iff_of_top_ne {v : Interval} (hle : v.low.toNat ≤ v.high.toNat)
    (hne : v.low.getLsbD 15 ≠ v.high.getLsbD 15) :
    v.e3 = true ↔ v.low.getLsbD 14 = true ∧ v.high.getLsbD 14 = false := by
  obtain ⟨hl, hh⟩ := Interval.top_bits_of_ne hle hne
  rw [v.e3_iff_bits, and_iff_right hl, and_iff_right hh]

/-- The E3 step of `CODE` in numbers (R173). -/
theorem Interval.widenCode_toNat {v : Interval} (h3 : v.e3 = true)
    (hlow : v.low.toNat ≤ v.code.toNat) (hhigh : v.code.toNat ≤ v.high.toNat) (b : Bool) :
    (v.widenCode b).code.toNat = 2 * (v.code.toNat - 16384) + b.toNat := by
  obtain ⟨c, hc, -, hf⟩ := Interval.widen_doubles h3
  obtain ⟨hw, -⟩ := Interval.widen_toNat h3
  obtain ⟨hquarter, -⟩ := v.e3_iff.mp h3
  have hcode : (v.widenCode b).code.toNat + c = 2 * v.code.toNat + b.toNat := hf v.code b hlow hhigh
  omega

/-- Every step of the decoder's loop begins with a request, with the bounds already moved. -/
theorem renormD_requests {s : State} (h : (s.iv.e1 || s.iv.e2) = true ∨ s.iv.e3 = true) (n : Nat) :
    ∃ (w : Interval) (f : Bool → State → Flow Unit), w.eoscnt = s.iv.eoscnt ∧
      renormD (n + 1) s = (s.setIv w).readBit.andThen f := by
  rcases h with h12 | h3
  · exact ⟨s.iv.shift, _, rfl, renormD_of_e12 h12 n⟩
  · exact ⟨s.iv.widen, _, rfl, renormD_of_e3 h3 n⟩

/-- Settles O46: equal top bits are E1 or E2, and with `LOW <= HIGH` unequal ones leave E3 or the exit; a
request that is not taken ends the loop whichever step it stands in. -/
theorem decoderRenormSteps : Obligations.DecoderRenormSteps := by
  intro s n a b e rest hle
  refine ⟨fun heq h ha => ?shift, fun hne hl hh h ha => ?widen, fun hreq => ?request,
    fun hne hno => ?exit⟩
  case shift =>
    rw [renormD_of_e12 (s.iv.e12_iff_bits.mpr heq),
      State.readBit_of_takenAs (s := s.setIv s.iv.shift) h ha]
    simp [State.setIv, State.setChan, Interval.shift, Interval.shiftCode, shiftIn]
  case widen =>
    have h3 := (Interval.e3_iff_of_top_ne hle hne).mpr ⟨hl, hh⟩
    obtain ⟨hlow, hhigh⟩ := Interval.widen_toNat h3
    refine ⟨{ s.iv.widen with code := (s.iv.widenCode b).code, eoscnt := e }, hlow, hhigh, rfl,
      fun hcl hch => ?_, rfl, rfl, ?_⟩
    · refine (Interval.widenCode_toNat h3 hcl hch b).trans ?_
      cases b <;> rfl
    · rw [renormD_of_e3 h3, State.readBit_of_takenAs (s := s.setIv s.iv.widen) h ha]
      rfl
  case request =>
    have hstep : (s.iv.e1 || s.iv.e2) = true ∨ s.iv.e3 = true := by
      by_cases heq : s.iv.low.getLsbD 15 = s.iv.high.getLsbD 15
      · exact .inl (s.iv.e12_iff_bits.mpr heq)
      · exact .inr ((Interval.e3_iff_of_top_ne hle heq).mpr (hreq.resolve_left heq))
    obtain ⟨w, f, hw, hloop⟩ := renormD_requests hstep n
    rw [hloop]
    refine ⟨fun h => ?_, fun h he => ?_, fun h => ?_⟩
    · rw [State.readBit_fail (s.setIv w) rest h]
      exact ⟨_, rfl, rfl, rfl, rfl, rfl, rfl, rfl⟩
    · rw [State.readBit_endOfStream_of_limit (s.setIv w) rest h (by rw [State.setIv_iv, hw, he]; decide)]
      exact ⟨_, rfl, rfl, rfl, rfl, rfl, rfl, rfl⟩
    · rw [State.readBit_silent (s.setIv w) h]
      exact ⟨_, rfl, by simp [h], rfl, rfl, rfl, rfl⟩
  case exit =>
    rw [renormD, if_neg (mt s.iv.e12_iff_bits.mp hne),
      if_neg (mt (Interval.e3_iff_of_top_ne hle hne).mp hno)]

end Sys2Proof.Machine
end

section
/-! The bounds after a renormalization are a function of the bounds before it, and both loops compute it
(R143, R173, R177). -/

namespace Sys2Proof.Machine

/-- The bounds alone: the other interval registers cleared. -/
def Interval.bounds (v : Interval) : Interval := { Interval.zero with low := v.low, high := v.high }

theorem Interval.bounds_eq_iff {v w : Interval} :
    v.bounds = w.bounds ↔ v.low = w.low ∧ v.high = w.high := by
  simp [Interval.bounds]

/-- What at most `n` renormalization steps make of an interval (R143, R173). -/
def Interval.renormed : Nat → Interval → Interval
  | 0, v => v
  | n + 1, v =>
    if v.e1 || v.e2 then Interval.renormed n v.shift
    else if v.e3 then Interval.renormed n v.widen
    else v

theorem Interval.renormed_of_settled {v : Interval} (h : v.settled) (n : Nat) : v.renormed n = v := by
  obtain ⟨h12, h3⟩ := h.no_step
  cases n with
  | zero => rfl
  | succ n => rw [Interval.renormed, if_neg h12, if_neg h3]

theorem Interval.renormed_bounds_of_e12 {v w : Interval} (h : (v.e1 || v.e2) = true)
    (hlow : w.low = v.shift.low) (hhigh : w.high = v.shift.high) (n : Nat) :
    w.bounds.renormed n = v.bounds.renormed (n + 1) := by
  rw [Interval.bounds_eq_iff.mpr ⟨hlow, hhigh⟩]
  exact (if_pos h).symm

theorem Interval.renormed_bounds_of_e3 {v w : Interval} (h : v.e3 = true)
    (hlow : w.low = v.widen.low) (hhigh : w.high = v.widen.high) (n : Nat) :
    w.bounds.renormed n = v.bounds.renormed (n + 1) := by
  rw [Interval.bounds_eq_iff.mpr ⟨hlow, hhigh⟩]
  exact ((if_neg (Interval.not_e12_of_e3 h)).trans (if_pos h)).symm

/-- Each step doubles the size (R144). -/
theorem Interval.size_renormed (n : Nat) {v : Interval} (hle : v.low.toNat ≤ v.high.toNat) :
    (v.renormed n).size = 2 ^ Interval.steps n v * v.size := by
  induction n generalizing v with
  | zero => exact (Nat.one_mul _).symm
  | succ n ih =>
    have hstep {w : Interval} {f : Bound → Bool → Bound} (hd : v.Doubles w f) :
        (w.renormed n).size = 2 ^ (Interval.steps n w + 1) * v.size := by
      rw [ih (hd.low_le_high hle), hd.size_eq, Nat.pow_succ, Nat.mul_assoc]
    rw [Interval.renormed, Interval.steps]
    split
    · next h12 => exact hstep (Interval.shift_doubles h12 hle)
    · split
      · next h3 => exact hstep (Interval.widen_doubles h3)
      · exact (Nat.one_mul _).symm

/-- The number of steps depends on the bounds alone. -/
theorem Interval.steps_bounds (n : Nat) (v : Interval) :
    Interval.steps n v.bounds = Interval.steps n v := by
  induction n generalizing v with
  | zero => rfl
  | succ n ih =>
    exact if_congr Iff.rfl (congrArg Nat.succ (ih v.shift))
      (if_congr Iff.rfl (congrArg Nat.succ (ih v.widen)) rfl)

/-! ### The two loops -/

theorem State.emitTop_ensures_bounds (s : State) :
    s.emitTop.ensures fun _ t => t.iv.low = s.iv.shift.low ∧ t.iv.high = s.iv.shift.high :=
  s.emitTop_ensures.mono fun _ _ ht => by simp [ht]

theorem State.deferBit_ensures_bounds (s : State) :
    s.deferBit.ensures fun _ t => t.iv.low = s.iv.widen.low ∧ t.iv.high = s.iv.widen.high :=
  s.deferBit_ensures.mono fun _ _ ht => by simp [ht]

theorem renormE_ensures_bounds {n : Nat} {s : State} (hle : s.iv.low.toNat ≤ s.iv.high.toNat)
    (hn : 2 ^ 16 ≤ s.iv.size * 2 ^ n) :
    (renormE n s).ensures fun _ t => t.iv.bounds = s.iv.bounds.renormed n := by
  refine renorm_induction
    (P := fun n s => (renormE n s).ensures fun _ t => t.iv.bounds = s.iv.bounds.renormed n)
    (fun n s h => ?settled) (fun n s h ih => ?shift) (fun n s h ih => ?widen) n s hle hn
  case settled =>
    rw [renormE_of_settled h]
    exact (Interval.renormed_of_settled (v := s.iv.bounds) h n).symm
  case shift =>
    rw [renormE_of_e12 h]
    exact Flow.ensures_andThen s.emitTop_ensures_bounds fun _ t ⟨hlow, hhigh⟩ =>
      (ih t hlow hhigh).mono fun _ _ hu =>
        hu.trans (Interval.renormed_bounds_of_e12 h hlow hhigh n)
  case widen =>
    rw [renormE_of_e3 h]
    exact Flow.ensures_andThen s.deferBit_ensures_bounds fun _ t ⟨hlow, hhigh⟩ =>
      (ih t hlow hhigh).mono fun _ _ hu =>
        hu.trans (Interval.renormed_bounds_of_e3 h hlow hhigh n)

theorem renormD_ensures_bounds {n : Nat} {s : State} (hle : s.iv.low.toNat ≤ s.iv.high.toNat)
    (hn : 2 ^ 16 ≤ s.iv.size * 2 ^ n) :
    (renormD n s).ensures fun _ t => t.iv.bounds = s.iv.bounds.renormed n := by
  refine renorm_induction
    (P := fun n s => (renormD n s).ensures fun _ t => t.iv.bounds = s.iv.bounds.renormed n)
    (fun n s h => ?settled) (fun n s h ih => ?shift) (fun n s h ih => ?widen) n s hle hn
  case settled =>
    rw [renormD_of_settled h]
    exact (Interval.renormed_of_settled (v := s.iv.bounds) h n).symm
  case shift =>
    rw [renormD_of_e12 h]
    exact Flow.ensures_andThen (State.readBit_ensures_bounds _) fun b t ⟨hlow, hhigh⟩ =>
      (ih (t.setIv (t.iv.shiftCode b)) hlow hhigh).mono fun _ _ hu =>
        hu.trans (Interval.renormed_bounds_of_e12 h hlow hhigh n)
  case widen =>
    rw [renormD_of_e3 h]
    exact Flow.ensures_andThen (State.readBit_ensures_bounds _) fun b t ⟨hlow, hhigh⟩ =>
      (ih (t.setIv (t.iv.widenCode b)) hlow hhigh).mono fun _ _ hu =>
        hu.trans (Interval.renormed_bounds_of_e3 h hlow hhigh n)

/-! ### The two commands -/

theorem State.encodeFrom_ensures_bounds {s : State} (hle : s.iv.low.toNat ≤ s.iv.high.toNat) :
    s.encodeFrom.ensures fun _ t => t.iv.bounds = s.iv.bounds.renormed Config.width :=
  Flow.ensures_andThen (renormE_ensures_bounds hle (width_steps_suffice hle)) fun _ _ ht => ht

theorem State.decodeFrom_ensures_bounds {s : State} (hle : s.iv.low.toNat ≤ s.iv.high.toNat) :
    s.decodeFrom.ensures fun _ t => t.iv.bounds = s.iv.bounds.renormed Config.width :=
  Flow.ensures_andThen (renormD_ensures_bounds hle (width_steps_suffice hle)) fun _ _ ht => ht

/-- A command that narrows and then runs the part `F`, which renormalizes: if it ends without fault or wait,
the narrowing has succeeded, and the bounds are the renormalized ones of what it gave. -/
theorem exec_renormed_bounds {i : Instr} {s t : State} {F : State → Flow Unit}
    (hempty : s.narrowed = none → exec i s = .next (s.raise .precisionError (encode i)))
    (hrun : ∀ nl nh, s.narrowed = some (nl, nh) → exec i s = finish i 0 (F (s.setBounds nl nh)))
    (hF : ∀ u : State, u.iv.low.toNat ≤ u.iv.high.toNat →
      (F u).ensures fun _ v => v.iv.bounds = u.iv.bounds.renormed Config.width)
    (h : exec i s = .next t) (hst : t.st ≠ .fault) (hw : t.chan.waiting = none) :
    ∃ nl nh, s.narrowed = some (nl, nh) ∧
      t.iv.bounds = (s.setBounds nl nh).iv.bounds.renormed Config.width := by
  cases hn : s.narrowed with
  | none =>
    obtain rfl := next_eq ((hempty hn).symm.trans h)
    exact absurd rfl hst
  | some b =>
    obtain ⟨nl, nh⟩ := b
    obtain ⟨-, -, hle⟩ := narrow_some hn
    have hens := hF (s.setBounds nl nh) hle
    refine ⟨nl, nh, rfl, ?_⟩
    rcases finish_next ((hrun nl nh hn).symm.trans h) with ⟨u, hu, rfl⟩ | ⟨k, u, -, rfl⟩ | hu
    · rw [State.respondOk_iv]
      exact hens.of_goesOn hu
    · exact absurd rfl hst
    · rw [hu] at hens
      exact absurd hw hens

/-- Settles O51: equal bounds and ranges narrow alike, and the loops compute the same bounds. -/
theorem encoderAndDecoderInLockStep : Obligations.EncoderAndDecoderInLockStep := by
  intro e d e' d' he hd hsym hlow hhigh hrl hrh hrt hesym hdsym hef hdf hew hdw
  have hle := State.legal_esym he
  have hld := State.legal_dsym hd
  obtain ⟨nl, nh, hn, hbe⟩ := exec_renormed_bounds (exec_esym_of_empty hle)
    (fun _ _ hn => exec_of_effect hle (State.effect_esym hn))
    (fun _ => State.encodeFrom_ensures_bounds) hesym hef hew
  obtain ⟨ml, mh, hm, hbd⟩ := exec_renormed_bounds (exec_dsym_of_empty hld hsym)
    (fun _ _ hm => exec_of_effect hld (State.effect_dsym hsym hm))
    (fun _ => State.decodeFrom_ensures_bounds) hdsym hdf hdw
  have hnarrow : e.narrowed = d.narrowed := by
    rw [State.narrowed, State.narrowed, hlow, hhigh, hrl, hrh, hrt]
  obtain ⟨rfl, rfl⟩ : nl = ml ∧ nh = mh := by simpa [hn, hm] using hnarrow
  exact Interval.bounds_eq_iff.mp (hbe.trans hbd.symm)

end Sys2Proof.Machine
end

section
/-! The requests that the decoder's effects make of the bit source, and what becomes of them by its answers
(R72, R170, R173, R223, R227). -/

namespace Sys2Proof.Machine

/-- An answer is taken in one way only (R72). -/
theorem SourceAnswer.takenAs.eoscnt_unique {a : SourceAnswer} {n e e' : BitVec 4} {b b' : Bool}
    (h : a.takenAs n b e) (h' : a.takenAs n b' e') : e = e' := by
  cases a with
  | bit c =>
    rw [SourceAnswer.takenAs_bit] at h h'
    obtain ⟨-, he⟩ := h
    obtain ⟨-, he'⟩ := h'
    exact he.trans he'.symm
  | fail => simp at h
  | endOfStream =>
    rw [SourceAnswer.takenAs_endOfStream] at h h'
    obtain ⟨-, -, he⟩ := h
    obtain ⟨-, -, he'⟩ := h'
    exact BitVec.eq_of_toNat_eq (he.trans he'.symm)

theorem SourceAnswer.takenAs.eoscnt_eq {a : SourceAnswer} {n e : BitVec 4} {b : Bool}
    (h : a.takenAs n b e) : e.toNat = n.toNat + [a].count .endOfStream := by
  rcases h with ⟨rfl, rfl⟩ | ⟨rfl, -, -, he⟩
  · rfl
  · exact he

/-! ### A part that reads a number of answers -/

/-- From the channels `c` and `EOSCNT = e` on, the part `x` asks for `n` answers one by one and then goes on;
the first request that is not answered with a bit or an `EndOfStream` that counts as 0 ends it (R72). -/
inductive Flow.Reads : Channels → BitVec 4 → Nat → Flow Unit → Prop where
  | done {c : Channels} {e : BitVec 4} {t : State} (ht : t.chan = c) (he : t.iv.eoscnt = e) :
      Reads c e 0 (.goesOn () t)
  | taken {c : Channels} {e e' : BitVec 4} {n : Nat} {x : Flow Unit} {a : SourceAnswer} {b : Bool}
      {rest : List SourceAnswer} (h : c.sourceAnswers = a :: rest) (ha : a.takenAs e b e')
      (hx : Reads { c with sourceAnswers := rest } e' n x) : Reads c e (n + 1) x
  | fail {c : Channels} {e : BitVec 4} {n : Nat} {t : State} {rest : List SourceAnswer}
      (h : c.sourceAnswers = .fail :: rest) (ht : t.chan = { c with sourceAnswers := rest }) :
      Reads c e (n + 1) (.raises .ioError t)
  | limit {c : Channels} {e : BitVec 4} {n : Nat} {t : State} {rest : List SourceAnswer}
      (h : c.sourceAnswers = .endOfStream :: rest) (he : Config.eosLimit ≤ e.toNat)
      (ht : t.chan = { c with sourceAnswers := rest }) :
      Reads c e (n + 1) (.raises .corruptStreamError t)
  | silent {c : Channels} {e : BitVec 4} {n : Nat} {t : State} (h : c.sourceAnswers = [])
      (ht : t.chan = { c with waiting := some .readBit }) : Reads c e (n + 1) (.waits t)

/-- What a part writes outside the channels and `EOSCNT` after its last request asks for nothing. -/
theorem Flow.Reads.andThen_goesOn {c : Channels} {e : BitVec 4} {n : Nat} {x : Flow Unit}
    {g : State → State} (hx : x.Reads c e n) (hg : ∀ t, (g t).chan = t.chan)
    (hiv : ∀ t, (g t).iv = t.iv) : (x.andThen fun _ t => .goesOn () (g t)).Reads c e n := by
  induction hx with
  | done ht he => exact .done ((hg _).trans ht) ((congrArg Interval.eoscnt (hiv _)).trans he)
  | taken h ha _ ih => exact .taken h ha ih
  | fail h ht => exact .fail h ht
  | limit h he ht => exact .limit h he ht
  | silent h ht => exact .silent h ht

/-- A first answer that is taken leaves the others to be read. -/
theorem Flow.Reads.tail {c : Channels} {e e' : BitVec 4} {n : Nat} {x : Flow Unit} {a : SourceAnswer}
    {b : Bool} {rest : List SourceAnswer} (hx : x.Reads c e (n + 1)) (h : c.sourceAnswers = a :: rest)
    (ha : a.takenAs e b e') : x.Reads { c with sourceAnswers := rest } e' n := by
  cases hx with
  | taken h' ha' hx =>
    obtain ⟨rfl, rfl⟩ := List.cons_eq_cons.mp (h.symm.trans h')
    exact ha.eoscnt_unique ha' ▸ hx
  | fail h' ht =>
    obtain ⟨rfl, -⟩ := List.cons_eq_cons.mp (h.symm.trans h')
    exact absurd ha (SourceAnswer.takenAs_fail e b e')
  | limit h' he ht =>
    obtain ⟨rfl, -⟩ := List.cons_eq_cons.mp (h.symm.trans h')
    obtain ⟨-, hlt, -⟩ := (SourceAnswer.takenAs_endOfStream e b e').mp ha
    exact absurd he (Nat.not_le.mpr hlt)
  | silent h' ht => exact absurd (h.symm.trans h') (List.cons_ne_nil _ _)

/-- So do any answers that are taken, and `EOSCNT` has counted each `EndOfStream` among them. -/
theorem Flow.Reads.drop {c : Channels} {e : BitVec 4} {m : Nat} {x : Flow Unit}
    {as rest : List SourceAnswer} (hx : x.Reads c e (as.length + m)) (has : allTaken e as)
    (h : c.sourceAnswers = as ++ rest) :
    ∃ e', e'.toNat = e.toNat + as.count .endOfStream ∧
      x.Reads { c with sourceAnswers := rest } e' m := by
  induction as generalizing c e with
  | nil =>
    obtain rfl : _ = rest := h
    exact ⟨e, rfl, by simpa using hx⟩
  | cons a as ih =>
    obtain ⟨b, e₁, ha, has⟩ := (allTaken_cons e a as).mp has
    rw [List.length_cons, Nat.add_right_comm] at hx
    obtain ⟨e', he', hx⟩ := ih (hx.tail h ha) has rfl
    have he₁ := ha.eoscnt_eq
    refine ⟨e', ?_, hx⟩
    rw [← List.singleton_append, List.count_append]
    omega

section
variable {c : Channels} {e : BitVec 4} {n : Nat} {x : Flow Unit} {as rest : List SourceAnswer}
  (hx : x.Reads c e n) (has : allTaken e as)

include hx has

theorem Flow.Reads.goesOn_of_taken (hlen : as.length = n) (h : c.sourceAnswers = as ++ rest) :
    ∃ t, x = .goesOn () t ∧ t.chan = { c with sourceAnswers := rest } ∧
      t.iv.eoscnt.toNat = e.toNat + as.count .endOfStream := by
  subst hlen
  obtain ⟨e', he', hx⟩ := hx.drop (m := 0) has h
  cases hx with
  | done ht heos => exact ⟨_, rfl, ht, heos ▸ he'⟩

variable (hlt : as.length < n)

include hlt

theorem Flow.Reads.raises_of_fail (h : c.sourceAnswers = as ++ .fail :: rest) :
    ∃ t, x = .raises .ioError t ∧ t.chan = { c with sourceAnswers := rest } := by
  obtain ⟨m, rfl⟩ := Nat.exists_eq_add_of_lt hlt
  obtain ⟨e', -, hx⟩ := hx.drop (m := m + 1) has h
  cases hx with
  | taken h' ha hx =>
    cases h'
    exact absurd ha (SourceAnswer.takenAs_fail _ _ _)
  | fail h' ht =>
    cases h'
    exact ⟨_, rfl, ht⟩
  | limit h' he ht => cases h'
  | silent h' ht => cases h'

/-- The fifteenth `EndOfStream` (R227). -/
theorem Flow.Reads.raises_of_limit (hcount : e.toNat + as.count .endOfStream = 14)
    (h : c.sourceAnswers = as ++ .endOfStream :: rest) :
    ∃ t, x = .raises .corruptStreamError t ∧ t.chan = { c with sourceAnswers := rest } := by
  obtain ⟨m, rfl⟩ := Nat.exists_eq_add_of_lt hlt
  obtain ⟨e', he', hx⟩ := hx.drop (m := m + 1) has h
  cases hx with
  | taken h' ha hx =>
    cases h'
    obtain ⟨-, hroom, -⟩ := (SourceAnswer.takenAs_endOfStream ..).mp ha
    exact absurd hroom (Nat.not_lt.mpr (he'.trans hcount).ge)
  | fail h' ht => cases h'
  | limit h' he ht =>
    cases h'
    exact ⟨_, rfl, ht⟩
  | silent h' ht => cases h'

theorem Flow.Reads.waits_of_silent (h : c.sourceAnswers = as) :
    ∃ t, x = .waits t ∧ t.chan = { c with sourceAnswers := [], waiting := some .readBit } := by
  obtain ⟨m, rfl⟩ := Nat.exists_eq_add_of_lt hlt
  obtain ⟨e', -, hx⟩ := hx.drop (m := m + 1) (rest := []) has (h.trans (List.append_nil _).symm)
  cases hx with
  | taken h' ha hx => cases h'
  | fail h' ht => cases h'
  | limit h' he ht => cases h'
  | silent h' ht => exact ⟨_, rfl, ht⟩

end

/-! ### What the decoder's effects read -/

/-- A request, and then what is read with each answer that is taken. -/
theorem State.readBit_andThen_reads {s : State} {n : Nat} {f : Bool → State → Flow Unit}
    (hf : ∀ b t, t.iv.low = s.iv.low → t.iv.high = s.iv.high →
      (f b t).Reads t.chan t.iv.eoscnt n) :
    (s.readBit.andThen f).Reads s.chan s.iv.eoscnt (n + 1) := by
  cases h : s.chan.sourceAnswers with
  | nil =>
    rw [s.readBit_silent h]
    exact .silent h rfl
  | cons a rest =>
    have htaken {b : Bool} {e : BitVec 4} (ha : a.takenAs s.iv.eoscnt b e) :
        (s.readBit.andThen f).Reads s.chan s.iv.eoscnt (n + 1) := by
      have hrest := hf b
        ((s.setChan { s.chan with sourceAnswers := rest }).setIv { s.iv with eoscnt := e }) rfl rfl
      rw [State.readBit_of_takenAs h ha]
      exact .taken h ha hrest
    cases a with
    | bit b => exact htaken ((SourceAnswer.takenAs_bit ..).mpr ⟨rfl, rfl⟩)
    | fail =>
      rw [s.readBit_fail rest h]
      exact .fail h rfl
    | endOfStream =>
      by_cases he : Config.eosLimit ≤ s.iv.eoscnt.toNat
      · rw [s.readBit_endOfStream_of_limit rest h he]
        exact .limit h he rfl
      · have hone : allTaken s.iv.eoscnt [.endOfStream] := ⟨by simp, .inr (Nat.not_le.mp he)⟩
        obtain ⟨b, e, ha, -⟩ := (allTaken_cons ..).mp hone
        exact htaken ha

theorem fillCode_reads (n : Nat) (s : State) : (fillCode n s).Reads s.chan s.iv.eoscnt n := by
  induction n generalizing s with
  | zero => exact .done rfl rfl
  | succ n ih => exact State.readBit_andThen_reads fun b t _ _ => ih (t.setIv (t.iv.shiftCode b))

theorem State.beginDecode_reads (s : State) : s.beginDecode.Reads s.chan 0#4 Config.width :=
  (fillCode_reads Config.width (s.setIv .begin)).andThen_goesOn (fun _ => rfl) fun _ => rfl

/-- The decoder's loop reads one answer a step (R173). -/
theorem renormD_reads (n : Nat) (s : State) :
    (renormD n s).Reads s.chan s.iv.eoscnt (Interval.steps n s.iv) := by
  induction n generalizing s with
  | zero => exact .done rfl rfl
  | succ n ih =>
    have hnext {w : Interval} (t : State) (hlow : t.iv.low = w.low) (hhigh : t.iv.high = w.high) :
        (renormD n t).Reads t.chan t.iv.eoscnt (Interval.steps n w) := by
      rw [← w.steps_bounds, ← Interval.bounds_eq_iff.mpr ⟨hlow, hhigh⟩, Interval.steps_bounds]
      exact ih t
    rw [renormD, Interval.steps]
    split
    · exact State.readBit_andThen_reads (s := s.setIv s.iv.shift) fun b t hlow hhigh =>
        hnext (t.setIv (t.iv.shiftCode b)) hlow hhigh
    · split
      · exact State.readBit_andThen_reads (s := s.setIv s.iv.widen) fun b t hlow hhigh =>
          hnext (t.setIv (t.iv.widenCode b)) hlow hhigh
      · exact .done rfl rfl

theorem State.decodeFrom_reads (s : State) :
    s.decodeFrom.Reads s.chan s.iv.eoscnt (Interval.steps Config.width s.iv) :=
  (renormD_reads Config.width s).andThen_goesOn (fun _ => rfl) fun _ => rfl

/-! ### Commands whose effect reads -/

section
variable {i : Instr} {s : State} {x : Flow Unit} {e : BitVec 4} {n : Nat}
  {as rest : List SourceAnswer} (hl : s.legal i = true) (hx : s.effect i = some x)
  (hreads : x.Reads s.chan e n) (has : allTaken e as)

include hl hx

/-- A command whose effect raises with nothing but answers consumed ends in mid-command as the statements
describe it (R232). -/
theorem exec_of_raises {k : FaultKind} {u : State} (hu : x = .raises k u)
    (hc : u.chan = { s.chan with sourceAnswers := rest }) :
    ∃ t, exec i s = .next t ∧ s.readFaulted t k (encode i) rest := by
  subst hu
  refine ⟨u.raiseMid k (encode i), exec_of_effect hl hx,
    State.raiseMid_faultedMid _ _ (State.effect_sameRun hx) ?_, ?_, ?_, ?_⟩ <;> simp [hc]

include hreads has

/-- A command whose requests are all answered ends with its effect and the answer `(OK, 0)`. -/
theorem exec_of_source_taken (hlen : as.length = n) (h : s.chan.sourceAnswers = as ++ rest) :
    ∃ u : State, x = .goesOn () u ∧ exec i s = .next (u.respondOk 0) ∧
      (u.respondOk 0).chan =
        { s.chan with
          sourceAnswers := rest
          responses := s.chan.responses ++ [{ status := 0#4, data := 0#32 }] } ∧
      u.iv.eoscnt.toNat = e.toNat + as.count .endOfStream ∧ u.st = s.stAfter i ∧
      u.latch = s.latch ∧ u.model = s.model ∧ u.faults = s.faults ∧ u.draws = s.draws := by
  obtain ⟨u, rfl, hu, heos⟩ := hreads.goesOn_of_taken has hlen h
  obtain ⟨hlatch, hmodel, hfaults, hdraws, -⟩ := State.effect_sameRun hx
  exact ⟨u, rfl, exec_of_effect hl hx, by simp [hu], heos, State.effect_st hx, hlatch, hmodel, hfaults,
    hdraws⟩

variable (hlt : as.length < n)

include hlt

/-- R223: a `fail` among the answers. -/
theorem exec_of_source_fail (h : s.chan.sourceAnswers = as ++ .fail :: rest) :
    ∃ t, exec i s = .next t ∧ s.readFaulted t .ioError (encode i) rest := by
  obtain ⟨u, hu, hc⟩ := hreads.raises_of_fail has hlt h
  exact exec_of_raises hl hx hu hc

/-- R227 (c): the fifteenth `EndOfStream` among them. -/
theorem exec_of_source_limit (hcount : e.toNat + as.count .endOfStream = 14)
    (h : s.chan.sourceAnswers = as ++ .endOfStream :: rest) :
    ∃ t, exec i s = .next t ∧ s.readFaulted t .corruptStreamError (encode i) rest := by
  obtain ⟨u, hu, hc⟩ := hreads.raises_of_limit has hlt hcount h
  exact exec_of_raises hl hx hu hc

/-- R70, R72: no answer. -/
theorem exec_of_source_silent (h : s.chan.sourceAnswers = as) :
    ∃ t, exec i s = .next t ∧ s.readWaits t := by
  obtain ⟨u, rfl, hc⟩ := hreads.waits_of_silent has hlt h
  obtain ⟨hlatch, hmodel, hfaults, hdraws, -⟩ := State.effect_sameRun hx
  exact ⟨u, exec_of_effect hl hx, hc, hlatch, hmodel, hfaults, hdraws⟩

end

end Sys2Proof.Machine
end

section
/-! The commands `DBEGIN` and `DSYM` (`spec/42_decoder.md`): what they make of the bits read. -/

namespace Sys2Proof.Machine

/-! ### `DBEGIN` (R170) -/

theorem State.admits_dbegin {s : State} :
    s.admits .dbegin ↔ s.st = .idle ∧ s.model.mvalid = true := by
  simp [State.admits, Instr.wellFormed, State.legal]

theorem shiftIn_getLsbD_zero (v : Bound) (b : Bool) : (shiftIn v b).getLsbD 0 = b := by
  cases b <;> simp [shiftIn]

theorem shiftIn_getLsbD_succ (v : Bound) (b : Bool) {i : Nat} (h : i + 1 < 16) :
    (shiftIn v b).getLsbD (i + 1) = v.getLsbD i := by
  have hi : i < 16 := Nat.lt_of_succ_lt h
  cases b <;> simp [shiftIn, h, hi]

/-- The bit of an answer that `ReadBit` takes: `EndOfStream` counts as 0 (R72). -/
theorem State.readBit_ensures_bit {s : State} {a : SourceAnswer} {rest : List SourceAnswer}
    (h : s.chan.sourceAnswers = a :: rest) :
    s.readBit.ensures fun b t =>
      b = decide (a = .bit true) ∧ t.chan.sourceAnswers = rest ∧ t.iv.code = s.iv.code := by
  cases a with
  | bit b =>
    rw [s.readBit_bit b rest h]
    exact ⟨by simp, rfl, rfl⟩
  | fail =>
    rw [s.readBit_fail rest h]
    trivial
  | endOfStream =>
    by_cases he : Config.eosLimit ≤ s.iv.eoscnt.toNat
    · rw [s.readBit_endOfStream_of_limit rest h he]
      trivial
    · rw [s.readBit_endOfStream rest h (Nat.not_le.mp he)]
      exact ⟨by simp, rfl, rfl⟩

/-- The answers fill `CODE` from below, the last into bit 0, and move what was in it up (R170). -/
theorem fillCode_ensures_bits {s : State} {as rest : List SourceAnswer}
    (h : s.chan.sourceAnswers = as ++ rest) (hlen : as.length ≤ 16) :
    (fillCode as.length s).ensures fun _ t =>
      (∀ i, i + as.length < 16 → t.iv.code.getLsbD (i + as.length) = s.iv.code.getLsbD i) ∧
        ∀ j, j < as.length →
          t.iv.code.getLsbD (as.length - 1 - j) = decide (as[j]? = some (.bit true)) := by
  induction as generalizing s with
  | nil => exact ⟨fun _ _ => rfl, fun _ => nofun⟩
  | cons a as ih =>
    rw [List.length_cons] at hlen ⊢
    refine Flow.ensures_andThen (State.readBit_ensures_bit h) fun b t ⟨hb, ht, hcode⟩ => ?_
    refine (ih (s := t.setIv (t.iv.shiftCode b)) ht (by omega)).mono fun _ u ⟨hup, hnew⟩ => ⟨?_, ?_⟩
    · intro i hi
      rw [← Nat.add_assoc, Nat.add_right_comm, hup (i + 1) (by omega), ← hcode]
      exact shiftIn_getLsbD_succ _ _ (by omega)
    · intro j hj
      cases j with
      | zero =>
        have hfirst := hup 0 (by omega)
        rw [Nat.zero_add] at hfirst
        exact hfirst.trans ((shiftIn_getLsbD_zero _ _).trans (by simp [hb]))
      | succ j =>
        rw [List.getElem?_cons_succ, ← hnew j (by omega)]
        congr 1
        omega

/-- Of the interval registers the fill writes `CODE` and `EOSCNT` alone. -/
theorem fillCode_ensures_iv (n : Nat) (s : State) :
    (fillCode n s).ensures fun _ t => ∃ c e, t.iv = { s.iv with code := c, eoscnt := e } := by
  induction n generalizing s with
  | zero => exact ⟨_, _, rfl⟩
  | succ n ih =>
    refine Flow.ensures_andThen s.readBit_ensures fun b t ⟨e, ht, _⟩ => ?_
    refine (ih (t.setIv (t.iv.shiftCode b))).mono fun _ u ⟨c, e', hu⟩ => ⟨c, e', ?_⟩
    rw [hu, ht]
    rfl

theorem State.beginDecode_ensures_iv (s : State) :
    s.beginDecode.ensures fun _ t => ∃ c e, t.iv = { Interval.begin with code := c, eoscnt := e } :=
  Flow.ensures_andThen (fillCode_ensures_iv Config.width (s.setIv .begin)) fun _ _ ht => ht

/-- The first answer goes into bit 15 (R170). -/
theorem State.beginDecode_ensures_bits {s : State} {as rest : List SourceAnswer}
    (h : s.chan.sourceAnswers = as ++ rest) (hlen : as.length = Config.width) :
    s.beginDecode.ensures fun _ t =>
      ∀ j, j < 16 → (t.iv.code.getLsbD (15 - j) = true ↔ as[j]? = some (.bit true)) := by
  have hfill := fillCode_ensures_bits (s := s.setIv .begin) h hlen.le
  rw [hlen] at hfill
  refine Flow.ensures_andThen hfill fun _ t ⟨_, hbits⟩ j hj => ?_
  rw [State.setSt_iv, show 15 - j = Config.width - 1 - j from rfl, hbits j hj, decide_eq_true_iff]

/-- Settles O47: the command is its 16 requests, which fill `CODE` from bit 15 down. -/
theorem dbeginFillsCode : Obligations.DbeginFillsCode := by
  refine fun s as rest => ⟨fun hst hv has => ?_,
    fun h => exec_of_not_admits (mt State.admits_dbegin.mp h)⟩
  obtain ⟨-, hl⟩ := State.admits_dbegin.mpr ⟨hst, hv⟩
  have hx : s.effect .dbegin = some s.beginDecode := rfl
  have hreads := s.beginDecode_reads
  refine ⟨fun hlen h => ?_, fun hlt h => exec_of_source_fail hl hx hreads has hlt h,
    fun hlt hcount h => exec_of_source_limit hl hx hreads has hlt (by simpa using hcount) h,
    fun hlt h => exec_of_source_silent hl hx hreads has hlt h⟩
  obtain ⟨u, hu, hexec, hchan, heos, hst', hlatch, hmodel, hfaults, hdraws⟩ :=
    exec_of_source_taken hl hx hreads has hlen h
  obtain ⟨c, e, hiv⟩ := s.beginDecode_ensures_iv.of_goesOn hu
  have hbits := (State.beginDecode_ensures_bits h hlen).of_goesOn hu
  refine ⟨_, hexec, ?_, ?_, ?_, hbits, by simpa using heos, hst', hlatch, hmodel, hfaults, hdraws,
    hchan⟩ <;> rw [State.respondOk_iv, hiv] <;> rfl

/-! ### `DSYM` (R173, R175) -/

/-- The code lies between the bounds (R181). -/
def Interval.holdsCode (v : Interval) : Prop :=
  v.low.toNat ≤ v.code.toNat ∧ v.code.toNat ≤ v.high.toNat

/-- What the decoder's loop carries along: `PEND` as it was, and the code between the bounds if it was. -/
def Interval.carriedTo (v w : Interval) : Prop := w.pend = v.pend ∧ (v.holdsCode → w.holdsCode)

theorem Interval.carriedTo.trans {v w u : Interval} (h : v.carriedTo w) (h' : w.carriedTo u) :
    v.carriedTo u := by
  obtain ⟨hp, hc⟩ := h
  obtain ⟨hp', hc'⟩ := h'
  exact ⟨hp'.trans hp, hc' ∘ hc⟩

/-- One step: the bounds become those of `w`, the code moves by `f` with the bit read. -/
theorem readStep_ensures_carriedTo {s : State} {w : Interval} {f : Bound → Bool → Bound}
    (hd : s.iv.low.toNat ≤ s.iv.high.toNat → s.iv.Doubles w f) (hcode : w.code = s.iv.code)
    (hpend : w.pend = s.iv.pend) :
    (s.setIv w).readBit.ensures fun b t =>
      s.iv.carriedTo { t.iv with code := f t.iv.code b } := by
  refine (s.setIv w).readBit_ensures.mono fun b t ⟨e, ht, _⟩ => ?_
  rw [ht]
  refine ⟨hpend, fun ⟨hl, hh⟩ => ?_⟩
  rw [← hcode] at hl hh
  exact (hd (hl.trans hh)).holds hl hh b

theorem renormD_ensures_carriedTo (n : Nat) (s : State) :
    (renormD n s).ensures fun _ t => s.iv.carriedTo t.iv := by
  induction n generalizing s with
  | zero => exact ⟨rfl, id⟩
  | succ n ih =>
    rw [renormD]
    split
    · next h12 =>
      exact Flow.ensures_andThen (readStep_ensures_carriedTo (Interval.shift_doubles h12) rfl rfl)
        fun b t ht => (ih (t.setIv (t.iv.shiftCode b))).mono fun _ _ hu => ht.trans hu
    · split
      · next h3 =>
        exact Flow.ensures_andThen
          (readStep_ensures_carriedTo (fun _ => Interval.widen_doubles h3) rfl rfl)
          fun b t ht => (ih (t.setIv (t.iv.widenCode b))).mono fun _ _ hu => ht.trans hu
      · exact ⟨rfl, id⟩

theorem State.decodeFrom_ensures_carriedTo (s : State) :
    s.decodeFrom.ensures fun _ t => s.iv.carriedTo t.iv :=
  Flow.ensures_andThen (renormD_ensures_carriedTo Config.width s) fun _ _ ht => ht

theorem State.decodeFrom_ensures_settled {s : State} (hle : s.iv.low.toNat ≤ s.iv.high.toNat) :
    s.decodeFrom.ensures fun _ t => t.iv.settled :=
  Flow.ensures_andThen (renormD_ends hle (width_steps_suffice hle)).2 fun _ _ ht => ht

/-- Each step of the loop doubles the interval (R144, R173). -/
theorem State.decodeFrom_ensures_size {s : State} (hle : s.iv.low.toNat ≤ s.iv.high.toNat) :
    s.decodeFrom.ensures fun _ t =>
      t.iv.size = 2 ^ Interval.steps Config.width s.iv * s.iv.size := by
  refine (State.decodeFrom_ensures_bounds hle).mono fun _ t ht => ?_
  have hsize := Interval.size_renormed Config.width (v := s.iv.bounds) hle
  rw [← ht, Interval.steps_bounds] at hsize
  exact hsize

/-- Settles O50: the command is one request for each step of the loop, and the loop doubles the interval,
carries the code along and ends settled. -/
theorem dsymCompletes : Obligations.DsymCompletes := by
  intro s nl nh as rest hst hsym hn has n
  have hl := State.legal_dsym hst
  have hx := State.effect_dsym hsym hn
  obtain ⟨-, -, hle⟩ := narrow_some hn
  have hreads : (s.setBounds nl nh).decodeFrom.Reads s.chan s.iv.eoscnt n :=
    (s.setBounds nl nh).decodeFrom_reads
  refine ⟨fun hlen h => ?_, fun hlt h => exec_of_source_fail hl hx hreads has hlt h,
    fun hlt hcount h => exec_of_source_limit hl hx hreads has hlt hcount h,
    fun hlt h => exec_of_source_silent hl hx hreads has hlt h⟩
  obtain ⟨u, hu, hexec, hchan, heos, hst', hlatch, hmodel, hfaults, hdraws⟩ :=
    exec_of_source_taken hl hx hreads has hlen h
  have hset := (State.decodeFrom_ensures_settled (s := s.setBounds nl nh) hle).of_goesOn hu
  have hsize := (State.decodeFrom_ensures_size (s := s.setBounds nl nh) hle).of_goesOn hu
  obtain ⟨hpend, hholds⟩ := (s.setBounds nl nh).decodeFrom_ensures_carriedTo.of_goesOn hu
  refine ⟨_, hexec, Interval.steps_le 16 _, ?_, hset, hset.low_le_high,
    fun hcl hch => hholds ⟨hcl, hch⟩, hpend, heos, hst'.trans (if_neg hsym), hlatch, hmodel, hfaults,
    hdraws, hchan⟩
  rw [State.respondOk_iv, Interval.size_eq_sub_add_one hset.low_le_high, hsize,
    ← Interval.size_eq_sub_add_one (v := (s.setBounds nl nh).iv) hle]
  rfl

end Sys2Proof.Machine
end

section
/-! The system commands (`spec/43_system.md`): all three are legal in every state (R31, R233), so only the
operand of `RDREG` can be refused. -/

namespace Sys2Proof.Machine

theorem State.admits_nop (s : State) : s.admits .nop := ⟨rfl, rfl⟩

theorem State.admits_reset (s : State) : s.admits .reset := ⟨rfl, rfl⟩

theorem State.admits_rdreg {s : State} {r : RegNo} : s.admits (.rdreg r) ↔ r.toNat ≤ 14 := by
  simp [State.admits, Instr.wellFormed, registerOk, State.legal]

/-! ### `NOP` (R200) and `RESET` (R201) -/

/-- Settles O20: every state admits the command, and its effect is the response alone. -/
theorem nopChangesNothing : Obligations.NopChangesNothing :=
  fun s => ⟨_, guarded_of_admits s.admits_nop _, rfl, rfl, rfl, rfl, rfl, rfl, rfl⟩

/-- Settles O21: every state admits the command, its effect is `State.resetRegs`, which leaves the channels
alone, and the response leaves the registers alone. -/
theorem resetCommand : Obligations.ResetCommand :=
  fun s => ⟨_, guarded_of_admits s.admits_reset _, s.resetRegs_isReset, rfl⟩

/-! ### `RDREG` (R202) -/

/-- The register map of R42 as a list: its entry `r` is register `r` as 32 bits. -/
def State.registerMap (s : State) : List Word :=
  [Config.idWord, s.statusWord, s.iv.low.setWidth 32, s.iv.high.setWidth 32, s.iv.code.setWidth 32,
    s.iv.pend, s.latch.rl.setWidth 32, s.latch.rh.setWidth 32, s.latch.rt.setWidth 32,
    s.latch.sv.setWidth 32, s.latch.sym.setWidth 32, s.model.tot.setWidth 32, Config.ceilingWord,
    s.faults.fcause.setWidth 32, s.faults.fcmd]

/-- The map ends at register 14. -/
theorem State.le_of_registerMap_eq_some {s : State} {n : Nat} {x : Word}
    (h : s.registerMap[n]? = some x) : n ≤ 14 := by
  obtain ⟨hlt, -⟩ := List.getElem?_eq_some_iff.mp h
  exact Nat.le_of_lt_succ hlt

/-- A register is read from its place in the map, and a number past the map's end names none. -/
theorem State.readReg_eq_registerMap (s : State) (r : RegNo) :
    s.readReg r = s.registerMap[r.toNat]? := by
  unfold State.readReg
  generalize r.toNat = n
  match n with
  | 0 | 1 | 2 | 3 | 4 | 5 | 6 | 7 | 8 | 9 | 10 | 11 | 12 | 13 | 14 => rfl
  | _ + 15 => rfl

/-- A register of the map is answered, and only the response changes. -/
theorem exec_rdreg_of_registerMap {s : State} {r : RegNo} {x : Word}
    (h : s.registerMap[r.toNat]? = some x) : exec (.rdreg r) s = .next (s.respondOk x) := by
  refine (guarded_of_admits (State.admits_rdreg.mpr (State.le_of_registerMap_eq_some h)) _).trans ?_
  rw [s.readReg_eq_registerMap, h]

/-- Settles O22: register `r` is entry `r` of the map, and a number above 14 does not pass the decode
test. -/
theorem rdregReadsTheMap : Obligations.RdregReadsTheMap := by
  refine fun s r => ⟨fun x hx => ?_, fun hr => exec_of_not_admits fun h => ?_⟩
  · exact ⟨_, exec_rdreg_of_registerMap hx, rfl, rfl, rfl, rfl, rfl, rfl, rfl⟩
  · have hle := State.admits_rdreg.mp h
    omega

end Sys2Proof.Machine
end

section
/-! Faults (`spec/60_exceptions.md`): what raising one records, what it keeps, and what the fault state still
runs (R225, R230 to R234). -/

namespace Sys2Proof.Machine

/-! ### Raising a fault (R225, R230) -/

/-- Settles O14: the fault registers by `FaultRegs.record_afterRaise`; in mid-command the five interval
registers are written beside them. -/
theorem raiseRecordsFault : Obligations.RaiseRecordsFault := fun s k w =>
  ⟨s.raise_faultedPre k w,
    State.raiseMid_faultedMid k w (State.sameRun_of_sameRest s.sameRest_refl) rfl,
    rfl, rfl, rfl, decide_eq_true_iff⟩

/-- Settles O13: such a command does nothing but raise. -/
theorem illegalCommandRaised : Obligations.IllegalCommandRaised := fun _ s h =>
  ⟨_, exec_of_illegal h, s.raise_faultedPre _ _⟩

/-- A word that is no command, or none that is legal, raises `IllegalCommand` (R225). -/
theorem runWord_of_not_legal {w : Word} {s : State}
    (h : ∀ i, decode w = .instr i → s.legal i = false) :
    runWord w s = .next (s.raise .illegalCommand w) := by
  cases hd : decode w with
  | illegal why => exact runWord_of_illegal s hd
  | instr i => rw [runWord_of_instr s hd, exec_of_illegal (.inr (h i hd)), encode_of_decode hd]

/-! ### The commands that the fault state runs (R233) -/

/-- The commands that answer a datum and write nothing (R113, R200, R202). -/
inductive Instr.ReadsOnly : Instr → Prop where
  | nop : ReadsOnly .nop
  | rdreg (r : RegNo) : ReadsOnly (.rdreg r)
  | rdcnt (x : Symbol) : ReadsOnly (.rdcnt x)

theorem exec_rdcnt_of_admits {s : State} {x : Symbol} (h : s.admits (.rdcnt x)) :
    exec (.rdcnt x) s = .next (s.respondOk ((CountTable.read s.model.cnt x.toNat).setWidth 32)) :=
  guarded_of_admits h _

/-- Every register from 0 to 14 is in the map, so it is answered. -/
theorem exec_rdreg_of_le {r : RegNo} (s : State) (hr : r.toNat ≤ 14) :
    ∃ d, s.readReg r = some d ∧ exec (.rdreg r) s = .next (s.respondOk d) := by
  have hmap : s.registerMap[r.toNat]? = some _ := List.getElem?_eq_getElem (Nat.lt_succ_of_le hr)
  exact ⟨_, (s.readReg_eq_registerMap r).trans hmap, exec_rdreg_of_registerMap hmap⟩

theorem Instr.ReadsOnly.exec_eq {s : State} {i : Instr} (hi : Instr.ReadsOnly i) (h : s.admits i) :
    ∃ d, exec i s = .next (s.respondOk d) := by
  cases hi with
  | nop => exact ⟨_, guarded_of_admits h _⟩
  | rdreg r =>
    obtain ⟨d, -, hexec⟩ := exec_rdreg_of_le s (State.admits_rdreg.mp h)
    exact ⟨d, hexec⟩
  | rdcnt x => exact ⟨_, exec_rdcnt_of_admits h⟩

/-- Of the commands that write, `RESET` alone is legal in `FAULT` (R31). -/
theorem State.readsOnly_of_legal_in_fault {s : State} {i : Instr} (hst : s.st = .fault)
    (hl : s.legal i = true) (hi : i ≠ .reset) : Instr.ReadsOnly i := by
  cases i
  case reset => exact absurd rfl hi
  case nop => exact .nop
  case rdreg r => exact .rdreg r
  case rdcnt x => exact .rdcnt x
  all_goals simp [State.legal, hst] at hl

/-- In `FAULT` a command other than `RESET` that runs changes nothing but the responses. -/
theorem exec_of_admits_in_fault {s : State} {i : Instr} (hst : s.st = .fault) (h : s.admits i)
    (hi : i ≠ .reset) : ∃ d, exec i s = .next (s.respondOk d) :=
  (State.readsOnly_of_legal_in_fault hst h.2 hi).exec_eq h

/-- Settles O18: a command that runs keeps `ST`, any other raises. -/
theorem onlyResetLeavesFault : Obligations.OnlyResetLeavesFault := by
  intro i s t hi hst h
  by_cases hadm : s.admits i
  · obtain ⟨d, hd⟩ := exec_of_admits_in_fault hst hadm hi
    obtain rfl := next_eq (hd.symm.trans h)
    exact hst
  · obtain ⟨u, hu, -, -, -, -, hfault, -⟩ := exec_of_not_admits hadm
    obtain rfl := next_eq (hu.symm.trans h)
    exact hfault

/-- In `FAULT` a command is illegal if it is none of the four, or a `RDCNT` without a valid model (R233). -/
theorem State.illegal_in_fault {s : State} {i : Instr} (hst : s.st = .fault) (hnop : i ≠ .nop)
    (hreset : i ≠ .reset) (hrdreg : ∀ r, i ≠ .rdreg r)
    (hrdcnt : ∀ x, i = .rdcnt x → s.model.mvalid = false) : s.legal i = false := by
  refine Bool.eq_false_iff.mpr fun hl => ?_
  cases State.readsOnly_of_legal_in_fault hst hl hreset with
  | nop => exact hnop rfl
  | rdreg r => exact hrdreg r rfl
  | rdcnt x => exact Bool.eq_false_iff.mp (hrdcnt x rfl) hl

theorem FaultRegs.eIll_record (f : FaultRegs) (w : Word) :
    (f.record .illegalCommand w).eIll = true := by
  obtain ⟨-, -, -, -, hill, -⟩ := f.record_afterRaise .illegalCommand w
  rw [hill, decide_eq_true rfl, Bool.or_true]

/-- Settles O16: the four commands are admitted, and any other word raises once more, which sets the flag
and leaves the record of the first fault. -/
theorem faultStateAnswers : Obligations.FaultStateAnswers := by
  intro s rest hst hcause hready
  refine ⟨?nop, fun r hr => ?rdreg, fun x hx hv => ?rdcnt, ?reset,
    fun w hin hnop hreset hrdreg hrdcnt => ?other⟩
  case nop => exact ⟨_, guarded_of_admits s.admits_nop _, hst, rfl⟩
  case rdreg =>
    obtain ⟨d, hd, hexec⟩ := exec_rdreg_of_le s hr
    exact ⟨_, d, hd, hexec, hst, rfl⟩
  case rdcnt => exact ⟨_, exec_rdcnt_of_admits (State.admits_rdcnt.mpr ⟨hx, hv⟩), hst, rfl⟩
  case reset => exact ⟨_, guarded_of_admits s.admits_reset _, rfl, rfl⟩
  case other =>
    obtain ⟨hkeeps, hcmd⟩ := s.faults.record_later .illegalCommand w hcause
    refine ⟨_, (step_of_command hin hready).trans (runWord_of_not_legal fun i hd => ?_), rfl,
      s.faults.eIll_record w, hkeeps, hcmd, rfl⟩
    rw [hd] at hnop hreset hrdreg hrdcnt
    simp only [ne_eq, Decoded.instr.injEq] at hnop hreset hrdreg hrdcnt
    exact State.illegal_in_fault (s := s.setInputs rest) hst hnop hreset hrdreg hrdcnt

/-! ### What a fault keeps (R231, R232) -/

/-- A success that ends in `FAULT` began there, and it only reads. -/
theorem Quiet.of_st_fault {i : Instr} {s t : State} (hq : Quiet i s t) (h : exec i s = .next t)
    (hadm : s.admits i) (ht : t.st = .fault) : ∃ d, t = s.respondOk d := by
  obtain ⟨d, hchan⟩ := hq.answered
  have hafter : s.stAfter i = .fault := (exec_ok_st h (congrArg Channels.responses hchan)).symm.trans ht
  have hi : i ≠ .reset := by
    rintro rfl
    cases hafter
  have hst : s.st = .fault := (State.stAfter_fault hadm.2 hi).1.mp hafter
  obtain ⟨d, hd⟩ := exec_of_admits_in_fault hst hadm hi
  exact ⟨d, next_eq (hd.symm.trans h)⟩

/-- Settles O15: a fault before any change writes none of these, an effect with channel requests is one of
the four commands and writes neither model nor latches, and a success only reads. -/
theorem faultKeepsModelAndLatches : Obligations.FaultKeepsModelAndLatches := by
  intro i s t h ht
  cases exec_cases h with
  | illegal h => simp [h]
  | pre k hl hk h => simp [h]
  | quiet hw hl hq =>
    obtain ⟨d, rfl⟩ := hq.of_st_fault h ⟨hw, hl⟩ ht
    exact ⟨rfl, rfl, fun _ _ _ _ => ⟨rfl, rfl, rfl, rfl⟩⟩
  | effect hl x hx h =>
    obtain ⟨hlatch, hmodel, -⟩ := finish_effect_keeps hx h
    refine ⟨hlatch, hmodel, fun h1 h2 h3 h4 => ?_⟩
    simpa [h1, h2, h3, h4] using State.effect_eq_some_cases hx

end Sys2Proof.Machine
end

section
/-! Steps that run no command, and the hardware reset at any time (`spec/70_reset_and_hazards.md`): in
every phase, in a wait, and in place of a command's response (R250 to R252). -/

namespace Sys2Proof.Machine

/-- Settles O6: the host's list is empty, or the core waits and takes nothing but the reset. -/
theorem stepWaits : Obligations.StepWaits :=
  fun _ => ⟨step_of_no_input, fun _ _ => step_of_waiting⟩

/-! ### What the hardware reset leaves on the channels (R251) -/

/-- The events made stay; only a waiting bit-out request can add one, if the sink acted on it. -/
theorem withdrawn_eq_or_append (n : Nat) (c : Channels) :
    withdrawn n c = c.events ∨ ∃ e, c.waiting = some (.out e) ∧ withdrawn n c = c.events ++ [e] := by
  rcases hw : c.waiting with _ | (e | _ | _)
  case some.out =>
    cases hacted : Config.withdrawnActed n with
    | true => exact .inr ⟨e, rfl, by simp [withdrawn, hw, hacted]⟩
    | false => exact .inl (by simp [withdrawn, hw, hacted])
  all_goals exact .inl (by simp [withdrawn, hw])

theorem State.hardwareReset_chan (s : State) (a : List SinkAnswer) (b : List SourceAnswer) :
    (s.hardwareReset a b).chan =
      { s.chan with
        sinkAnswers := a, sourceAnswers := b, events := withdrawn s.draws s.chan, waiting := none } := rfl

theorem State.hardwareReset_events (s : State) (a : List SinkAnswer) (b : List SourceAnswer) :
    (s.hardwareReset a b).chan.events = s.chan.events ∨
      ∃ e, s.chan.waiting = some (.out e) ∧
        (s.hardwareReset a b).chan.events = s.chan.events ++ [e] := by
  rw [s.hardwareReset_chan]
  exact withdrawn_eq_or_append s.draws s.chan

/-- Settles O10: the step and the micro-step are both `State.hardwareReset`, and a sequencer in `RN_IDLE`
makes no micro-step. -/
theorem hardwareResetAtAnyTime : Obligations.HardwareResetAtAnyTime := by
  refine ⟨fun s a b rest hin => ?step, fun m a b => ?micro, rfl, rfl⟩
  case step =>
    exact ⟨_, step_of_hardwareReset hin, State.hardwareReset_isReset _ a b, rfl, rfl, rfl, rfl, rfl,
      (s.setInputs rest).hardwareReset_events a b⟩
  case micro =>
    exact ⟨_, rfl, m.hardwareReset_phase a b, m.st.hardwareReset_isReset a b, rfl, rfl, rfl, rfl, rfl,
      m.st.hardwareReset_events a b, microRun_of_idle (m.hardwareReset_phase a b)⟩

/-- Settles O11: the word runs, its response is taken back, and the reset is taken where the word ended.
That the host's later actions are still to come is `runWord_answersOnce`. -/
theorem abandonedCommand : Obligations.AbandonedCommand := by
  intro s r w a b rest hin hready hrun
  obtain ⟨hrest, -⟩ := runWord_answersOnce (s := s.setInputs rest) hready hrun
  exact ⟨_, (step_of_abandoned hin hready).trans (runAbandoned_of_next a b hrun),
    State.hardwareReset_isReset _ a b, rfl, hrest, rfl,
    (r.withResponses s.chan.responses).hardwareReset_events a b⟩

end Sys2Proof.Machine
end

section
/-! SUPPORT. The count table keeps its canonical form (log 1) in every step, from any state where it has
it: unlike in `stepKeepsInvariant`, the other invariants of the command boundary are not assumed. -/

namespace Sys2Proof.Machine

/-- A fault, in front of a command or in its middle, and a wait leave the model as it was; a success
writes a table in canonical form. -/
theorem exec_keeps_tableInv {i : Instr} {s t : State} (hs : s.TableInv) (h : exec i s = .next t) :
    t.TableInv := by
  cases exec_ends h with
  | fault k h => exact hs.congr (by simp [h])
  | midFault k u hu h =>
    obtain ⟨-, hm, -⟩ := hu
    exact hs.congr (by simp [h, hm])
  | waits hl hx =>
    obtain ⟨-, hm, -⟩ := State.effect_sameRun hx
    exact hs.congr hm
  | success u d hw hl hu h => exact (hu.tableInv hs hw).congr (by simp [h])

theorem runWord_keeps_tableInv {w : Word} {s t : State} (hs : s.TableInv) (h : runWord w s = .next t) :
    t.TableInv := by
  rcases runWord_cases h with ⟨_, -, rfl⟩ | ⟨i, -, h⟩
  · exact hs.congr rfl
  · exact exec_keeps_tableInv hs h

/-- Settles O59: a word run keeps the form, in a wait too; both resets write a whole new table. -/
theorem stepKeepsTableCanonical : Obligations.StepKeepsTableCanonical := by
  intro s t hs h
  exact (step_keeps (T := State.TableInv) (B := State.TableInv) (fun _ h => h) (fun _ _ h => h)
    (fun s => freeTable_wf s.draws)
    (fun w s t hs h => have ht := runWord_keeps_tableInv hs h; ⟨ht, fun _ => ht⟩)
    ⟨hs, fun _ => hs⟩ h).1

end Sys2Proof.Machine
end
